-- ==== Sys2Proof/Word.lean ====
section
/-! DEFINITION. The words of the block: command word (R70), byte, sample, colour triple, channel and strip numbers. -/

namespace Sys2Proof

/-- One command word, exactly 64 bits (30_encoding.md R70). -/
abbrev Word64 := BitVec 64

/-- One colour channel, or one component of a hue/saturation/value triple (R150). -/
abbrev Byte := BitVec 8

/-- A channel number `ch`; `CHANNELS` is 4 in every configuration (R6). -/
abbrev ChannelId := Fin 4

/-- A strip number `s`; `STRIPS` is 2 in every configuration (R6). -/
abbrev StripId := Fin 2

/-- A colour: a triple of unsigned 8-bit channels in the order red, green, blue (R27, R150). -/
structure Pixel where
  r : Byte
  g : Byte
  b : Byte
  deriving DecidableEq, Repr

/-- "black (off)", the triple (0, 0, 0) (R27). -/
def Pixel.black : Pixel := ⟨0, 0, 0⟩

end Sys2Proof
end

