-- ==== Sys2Proof/Config.lean ====
section
/-! DEFINITION. The build-time parameters (00_scope.md R4), the constraints on them (R6, R143, R153), a configuration, which is
parameters with a proof that they meet the constraints, the constants and register widths derived from it (R5, R20), and the
three parameters the spec leaves OPEN, which have no body. -/

namespace Sys2Proof

/-- The parameters of a block (R4), as they may be given, legal or not. -/
structure Parameters where
  /-- `CHANNELS`, the number of sensor channels; the type `ChannelId` is for the one legal value -/
  channels : Nat
  /-- `STRIPS`, the number of strips; the type `StripId` is for the one legal value -/
  strips : Nat
  /-- `N`, pixels per strip -/
  n : Nat
  /-- `W`, slots per history -/
  w : Nat
  /-- `ADC_MAX`, the largest raw sample -/
  adcMax : Nat
  /-- `FULL_SCALE`, the divisor of the normalizer -/
  fullScale : Nat
  /-- `PERIOD_SLOW`, the pulse period at fraction 0 -/
  periodSlow : Nat
  /-- `PERIOD_FAST`, the pulse period at fraction 1 -/
  periodFast : Nat
  /-- `AMP_MAX`, the pulse amplitude at fraction 1 -/
  ampMax : Nat
  /-- `HUE_MAX`, the full scale of the hue -/
  hueMax : Nat
  /-- `FRAC_BITS`, the fraction bits of a normalized reading -/
  fracBits : Nat
  /-- `CASC_CH[s]`, the channel whose fraction drives the cascade of strip `s` -/
  cascCh : StripId → ChannelId
  /-- `PULSE_CH[s]`, the channel whose fraction drives the pulse of strip `s` -/
  pulseCh : StripId → ChannelId
  /-- `BASE_HUE`, the hue of the cascade colour -/
  baseHue : Byte
  /-- `BASE_SAT`, the saturation of the cascade colour -/
  baseSat : Byte
  /-- `PULSE_SAT`, the saturation of the pulse colour -/
  pulseSat : Byte
  /-- `SINQ`, the quarter-wave sine table -/
  sinq : List Nat
  /-- `HSV2RGB`, the colour lookup, of hue, saturation and value -/
  hsv2rgb : Byte → Byte → Byte → Pixel

/-- The constraints of R6, the laws R143 asks of `SINQ` and the law L2 of R153 (L1 and L3 hold by the type of `hsv2rgb`). -/
structure Parameters.Legal (p : Parameters) : Prop where
  channels_eq : p.channels = 4
  strips_eq : p.strips = 2
  n_range : 1 ≤ p.n ∧ p.n ≤ 65535
  w_range : 1 ≤ p.w ∧ p.w ≤ 65535
  adcMax_range : 1 ≤ p.adcMax ∧ p.adcMax ≤ 32767
  fullScale_range : 1 ≤ p.fullScale ∧ p.fullScale ≤ 32767
  period_range : 1 ≤ p.periodFast ∧ p.periodFast ≤ p.periodSlow ∧ p.periodSlow ≤ 65535
  ampMax_range : p.ampMax ≤ 255
  hueMax_eq : p.hueMax = 255
  fracBits_range : 1 ≤ p.fracBits ∧ p.fracBits ≤ 31
  sinq_length : p.sinq.length = 257
  sinq_first : p.sinq[0]? = some 0
  sinq_last : p.sinq[256]? = some 32768
  sinq_range : ∀ v ∈ p.sinq, v ≤ 32768
  sinq_mono : p.sinq.Pairwise (· ≤ ·)
  hsv_black : ∀ h s, p.hsv2rgb h s 0 = Pixel.black

/-- The same constraints as a check. -/
def Parameters.check (p : Parameters) : Bool :=
  decide (p.channels = 4) && decide (p.strips = 2) && decide (1 ≤ p.n ∧ p.n ≤ 65535) && decide (1 ≤ p.w ∧ p.w ≤ 65535) &&
  decide (1 ≤ p.adcMax ∧ p.adcMax ≤ 32767) &&
  decide (1 ≤ p.fullScale ∧ p.fullScale ≤ 32767) &&
  decide (1 ≤ p.periodFast ∧ p.periodFast ≤ p.periodSlow ∧ p.periodSlow ≤ 65535) && decide (p.ampMax ≤ 255) &&
  decide (p.hueMax = 255) && decide (1 ≤ p.fracBits ∧ p.fracBits ≤ 31) && decide (p.sinq.length = 257) &&
  decide (p.sinq[0]? = some 0) && decide (p.sinq[256]? = some 32768) && decide (∀ v ∈ p.sinq, v ≤ 32768) &&
  decide (p.sinq.Pairwise (· ≤ ·)) && decide (∀ h s : Byte, p.hsv2rgb h s 0 = Pixel.black)

theorem Parameters.check_iff (p : Parameters) : p.check = true ↔ p.Legal := by
  simp only [check, Bool.and_eq_true, decide_eq_true_eq]
  constructor
  · rintro ⟨⟨⟨⟨⟨⟨⟨⟨⟨⟨⟨⟨⟨⟨⟨ch, st⟩, n⟩, w⟩, adc⟩, fs⟩, per⟩, amp⟩, hue⟩, fb⟩, len⟩, first⟩, last⟩, range⟩, mono⟩, black⟩
    exact ⟨ch, st, n, w, adc, fs, per, amp, hue, fb, len, first, last, range, mono, black⟩
  · rintro ⟨ch, st, n, w, adc, fs, per, amp, hue, fb, len, first, last, range, mono, black⟩
    exact ⟨⟨⟨⟨⟨⟨⟨⟨⟨⟨⟨⟨⟨⟨⟨ch, st⟩, n⟩, w⟩, adc⟩, fs⟩, per⟩, amp⟩, hue⟩, fb⟩, len⟩, first⟩, last⟩, range⟩, mono⟩, black⟩

/-- A configuration of this hardware: parameters that meet the constraints. No other parameters are a configuration, and no
operation of the model takes them (R6, 93_implementation_defined.md U1). -/
structure Config extends Parameters where
  legal : toParameters.Legal

/-- The configuration with the given parameters; refused where they break a constraint (R6, U1). -/
def Parameters.configure (p : Parameters) : Option Config :=
  if h : p.check = true then some { toParameters := p, legal := p.check_iff.mp h } else none

/-! ### Derived constants and widths -/

/-- The least `k` with `m < 2^k`: how many bits hold the numbers `0..m`. -/
def bitsFor (m : Nat) : Nat := if m = 0 then 0 else Nat.log2 m + 1

/-- `ONE = 2^FRAC_BITS`, the representation of the fraction 1.0 (R5). -/
def Config.one (c : Config) : Nat := 2 ^ c.fracBits

/-- `HALF = ONE / 2` (R5). -/
def Config.half (c : Config) : Nat := c.one / 2

/-- `SAMPLE_BITS`, the least `k` with `ADC_MAX < 2^k` (R5). -/
def Config.sampleBits (c : Config) : Nat := bitsFor c.adcMax

/-- A raw sample and a history slot: `SAMPLE_BITS` bits (R20, R22). -/
abbrev Config.Sample (c : Config) : Type := BitVec c.sampleBits

/-- A write cursor: enough bits for `0..W-1` (R20, R23). -/
abbrev Config.Cursor (c : Config) : Type := BitVec (bitsFor (c.w - 1))

/-- A fraction register: `FRAC_BITS + 1` bits (R20, R26). -/
abbrev Config.Fraction (c : Config) : Type := BitVec (c.fracBits + 1)

/-- `BASE_HUE`: OPEN, no value is given (R4, 92_eei_decisions.md D10). -/
opaque openBaseHue : Byte

/-- `BASE_SAT`: OPEN, no value is given (R4, 92_eei_decisions.md D10). -/
opaque openBaseSat : Byte

/-- `PULSE_SAT`: OPEN, no value is given (R4, 92_eei_decisions.md D10). -/
opaque openPulseSat : Byte

end Sys2Proof
end

