-- ==== Sys2Proof/Syntax.lean ====
section
/-! DEFINITION. The 21 commands (30_encoding.md R74), one constructor per row of the opcode table. Each holds exactly the
fields of the format C64 that R75 marks as used, in the order `sel`, `sub` or `idx`, `imm` (R80), as the raw bits of the word:
a selector, index or operand outside its range is still a command, which faults when it executes (R78 checks 3 to 6). -/

namespace Sys2Proof

/-- A command. `sel`: channel or strip; `sub`: read-out register; `idx`: element index; `imm`: immediate operand (R71). -/
inductive Instr where
  /-- R171 -/
  | nop
  /-- R91 -/
  | sminit (sel : BitVec 4) (imm : BitVec 32)
  /-- R92 -/
  | smobs (sel : BitVec 4) (imm : BitVec 32)
  /-- R93 -/
  | rdhist (sel : BitVec 4) (idx : BitVec 16)
  /-- R94 -/
  | rdcur (sel : BitVec 4)
  /-- R95 -/
  | setsm (sel : BitVec 4) (imm : BitVec 32)
  /-- R96 -/
  | rdsm (sel : BitVec 4)
  /-- R111 -/
  | norm (sel : BitVec 4)
  /-- R112 -/
  | setfr (sel : BitVec 4) (imm : BitVec 32)
  /-- R113 -/
  | rdfr (sel : BitVec 4)
  /-- R121 -/
  | clr (sel : BitVec 4)
  /-- R122 -/
  | casc (sel : BitVec 4)
  /-- R140 -/
  | pulse (sel : BitVec 4) (imm : BitVec 32)
  /-- R141 -/
  | qsin (imm : BitVec 32)
  /-- R155 -/
  | qhsv (imm : BitVec 32)
  /-- R156 -/
  | blend (sel : BitVec 4) (imm : BitVec 32)
  /-- R157 -/
  | setpix (sel : BitVec 4) (idx : BitVec 16) (imm : BitVec 32)
  /-- R158 -/
  | rdpix (sel : BitVec 4) (idx : BitVec 16)
  /-- R170 -/
  | render (sel : BitVec 4) (imm : BitVec 32)
  /-- R172 -/
  | rddiag (sel : BitVec 4) (sub : BitVec 4)
  /-- R173 -/
  | rdstat
  deriving DecidableEq, Repr

end Sys2Proof
end

