-- ==== Sys2Proof/WellFormed.lean ====
section
/-! DEFINITION. Which commands are well-formed: those whose selectors, index and operand are in range, that is those that pass
checks 3, 4 and 5 of 30_encoding.md R78 (checks 1 and 2 are the decoder's; check 6 is about the state). -/

namespace Sys2Proof

/-- `sel` names a channel: `sel <= CHANNELS - 1` (R76). -/
def channelSelOk (sel : BitVec 4) : Bool := sel.toNat ≤ 3

/-- `sel` names a strip: `sel <= STRIPS - 1` (R76). -/
def stripSelOk (sel : BitVec 4) : Bool := sel.toNat ≤ 1

/-- `sub` names a read-out register: `sub <= 7` (R76). -/
def diagSubOk (sub : BitVec 4) : Bool := sub.toNat ≤ 7

/-- `idx` names a pixel: `idx <= N - 1` (R76). -/
def pixelIdxOk (c : Config) (idx : BitVec 16) : Bool := idx.toNat < c.n

/-- `idx` names a history slot: `idx <= W - 1` (R76). -/
def slotIdxOk (c : Config) (idx : BitVec 16) : Bool := idx.toNat < c.w

/-- A raw sample: `0 <= imm <= ADC_MAX` (R72). -/
def sampleImmOk (c : Config) (imm : BitVec 32) : Bool := imm.toNat ≤ c.adcMax

/-- `SETSM`: `imm[31:16]` all equal to `imm[15]` (R72). -/
def signedImmOk (imm : BitVec 32) : Bool :=
  imm.extractLsb' 16 16 == (if imm.getLsbD 15 then 0xFFFF#16 else 0#16)

/-- `SETFR`: `0 <= imm <= ONE` (R72). -/
def fractionImmOk (c : Config) (imm : BitVec 32) : Bool := imm.toNat ≤ c.one

/-- `QSIN`: `0 <= imm <= 1023` (R72). -/
def angleImmOk (imm : BitVec 32) : Bool := imm.toNat ≤ 1023

/-- `QHSV`, `BLEND`, `SETPIX`: `imm[31:24] = 0` (R72). -/
def tripleImmOk (imm : BitVec 32) : Bool := imm.extractLsb' 24 8 == 0#8

/-- Checks 3, 4 and 5 of R78 for every command. -/
def Instr.wellFormed (c : Config) : Instr → Bool
  | .nop => true
  | .sminit sel imm => channelSelOk sel && sampleImmOk c imm
  | .smobs sel imm => channelSelOk sel && sampleImmOk c imm
  | .rdhist sel idx => channelSelOk sel && slotIdxOk c idx
  | .rdcur sel => channelSelOk sel
  | .setsm sel imm => channelSelOk sel && signedImmOk imm
  | .rdsm sel => channelSelOk sel
  | .norm sel => channelSelOk sel
  | .setfr sel imm => channelSelOk sel && fractionImmOk c imm
  | .rdfr sel => channelSelOk sel
  | .clr sel => stripSelOk sel
  | .casc sel => stripSelOk sel
  | .pulse sel _ => stripSelOk sel
  | .qsin imm => angleImmOk imm
  | .qhsv imm => tripleImmOk imm
  | .blend sel imm => stripSelOk sel && tripleImmOk imm
  | .setpix sel idx imm => stripSelOk sel && pixelIdxOk c idx && tripleImmOk imm
  | .rdpix sel idx => stripSelOk sel && pixelIdxOk c idx
  | .render sel _ => stripSelOk sel
  | .rddiag sel sub => stripSelOk sel && diagSubOk sub
  | .rdstat => true

end Sys2Proof
end

