-- ==== Sys2Proof/Decode.lean ====
section
/-! DEFINITION. Decoding a command word (30_encoding.md R70 to R78), the encoder, the written form (R80) and the two
pseudo-commands (R81, R82). The decoder makes checks 1 and 2 of R78; the checks of ranges and of the state are made where the
command executes. -/

namespace Sys2Proof

/-- The causes of a fault (60_exceptions.md R191), in the order of their codes. -/
inductive Cause where
  /-- 1: `op` is not one of the 21 values of R74 -/
  | illegalOpcode
  /-- 2: a field that R75 marks `0` is not zero -/
  | reservedNonzero
  /-- 3: `sel` or `sub` out of range -/
  | badSelector
  /-- 4: `idx` out of range -/
  | badIndex
  /-- 5: `imm` outside the legal values of R72 -/
  | badOperand
  /-- 6: `INITED[ch] = 0` in `SMOBS` or `RDHIST` -/
  | uninit
  deriving DecidableEq, Repr

/-- The code a cause has in `STATUS.CAUSE` (R191). -/
def Cause.code : Cause → BitVec 4
  | .illegalOpcode => 1
  | .reservedNonzero => 2
  | .badSelector => 3
  | .badIndex => 4
  | .badOperand => 5
  | .uninit => 6

/-- The five fields of the one format `C64` (R71). -/
structure Fields where
  op : BitVec 8
  sel : BitVec 4
  sub : BitVec 4
  idx : BitVec 16
  imm : BitVec 32
  deriving DecidableEq, Repr

/-- The fields of a word: `op[63:56] sel[55:52] sub[51:48] idx[47:32] imm[31:0]` (R71). -/
def fieldsOf (w : Word64) : Fields where
  op := w.extractLsb' 56 8
  sel := w.extractLsb' 52 4
  sub := w.extractLsb' 48 4
  idx := w.extractLsb' 32 16
  imm := w.extractLsb' 0 32

/-- The word with the given fields (R71). -/
def packFields (f : Fields) : Word64 := f.op ++ f.sel ++ f.sub ++ f.idx ++ f.imm

/-- A row of the opcode map: the opcode byte (R74), which fields the command uses (R75), and the command. -/
structure Row where
  op : BitVec 8
  usesSel : Bool
  usesSub : Bool
  usesIdx : Bool
  usesImm : Bool
  build : Fields → Instr

/-- Every field that R75 marks `0` for the row is zero. -/
def Row.reservedZero (r : Row) (f : Fields) : Bool :=
  (r.usesSel || f.sel == 0) && (r.usesSub || f.sub == 0) && (r.usesIdx || f.idx == 0) && (r.usesImm || f.imm == 0)

/-- The opcode map of R74 with the used fields of R75: the smoother and the normalizer. -/
def rowsLow : List Row :=
  [ ⟨0x00, false, false, false, false, fun _ => .nop⟩,
    ⟨0x10, true, false, false, true, fun f => .sminit f.sel f.imm⟩,
    ⟨0x11, true, false, false, true, fun f => .smobs f.sel f.imm⟩,
    ⟨0x12, true, false, true, false, fun f => .rdhist f.sel f.idx⟩,
    ⟨0x13, true, false, false, false, fun f => .rdcur f.sel⟩,
    ⟨0x14, true, false, false, true, fun f => .setsm f.sel f.imm⟩,
    ⟨0x15, true, false, false, false, fun f => .rdsm f.sel⟩,
    ⟨0x20, true, false, false, false, fun f => .norm f.sel⟩,
    ⟨0x21, true, false, false, true, fun f => .setfr f.sel f.imm⟩,
    ⟨0x22, true, false, false, false, fun f => .rdfr f.sel⟩ ]

/-- The opcode map of R74 with the used fields of R75: the renderer, the compositor and the system commands. -/
def rowsHigh : List Row :=
  [ ⟨0x30, true, false, false, false, fun f => .clr f.sel⟩,
    ⟨0x31, true, false, false, false, fun f => .casc f.sel⟩,
    ⟨0x40, true, false, false, true, fun f => .pulse f.sel f.imm⟩,
    ⟨0x41, false, false, false, true, fun f => .qsin f.imm⟩,
    ⟨0x50, false, false, false, true, fun f => .qhsv f.imm⟩,
    ⟨0x51, true, false, false, true, fun f => .blend f.sel f.imm⟩,
    ⟨0x52, true, false, true, true, fun f => .setpix f.sel f.idx f.imm⟩,
    ⟨0x53, true, false, true, false, fun f => .rdpix f.sel f.idx⟩,
    ⟨0x60, true, false, false, true, fun f => .render f.sel f.imm⟩,
    ⟨0x61, true, true, false, false, fun f => .rddiag f.sel f.sub⟩,
    ⟨0x62, false, false, false, false, fun _ => .rdstat⟩ ]

/-- The whole opcode map (R74, R75). -/
def rows : List Row := rowsLow ++ rowsHigh

/-- Checks 1 and 2 of R78, total on all words: the command, or the cause of the first of the two that fails. -/
def decode (w : Word64) : Except Cause Instr :=
  match rows.find? (fun r => r.op == (fieldsOf w).op) with
  | none => .error .illegalOpcode
  | some r => if r.reservedZero (fieldsOf w) then .ok (r.build (fieldsOf w)) else .error .reservedNonzero

/-- The fields of a command's word, every unused field zero (R74, R75). -/
def encodeFields : Instr → Fields
  | .nop => ⟨0x00, 0, 0, 0, 0⟩
  | .sminit sel imm => ⟨0x10, sel, 0, 0, imm⟩
  | .smobs sel imm => ⟨0x11, sel, 0, 0, imm⟩
  | .rdhist sel idx => ⟨0x12, sel, 0, idx, 0⟩
  | .rdcur sel => ⟨0x13, sel, 0, 0, 0⟩
  | .setsm sel imm => ⟨0x14, sel, 0, 0, imm⟩
  | .rdsm sel => ⟨0x15, sel, 0, 0, 0⟩
  | .norm sel => ⟨0x20, sel, 0, 0, 0⟩
  | .setfr sel imm => ⟨0x21, sel, 0, 0, imm⟩
  | .rdfr sel => ⟨0x22, sel, 0, 0, 0⟩
  | .clr sel => ⟨0x30, sel, 0, 0, 0⟩
  | .casc sel => ⟨0x31, sel, 0, 0, 0⟩
  | .pulse sel imm => ⟨0x40, sel, 0, 0, imm⟩
  | .qsin imm => ⟨0x41, 0, 0, 0, imm⟩
  | .qhsv imm => ⟨0x50, 0, 0, 0, imm⟩
  | .blend sel imm => ⟨0x51, sel, 0, 0, imm⟩
  | .setpix sel idx imm => ⟨0x52, sel, 0, idx, imm⟩
  | .rdpix sel idx => ⟨0x53, sel, 0, idx, 0⟩
  | .render sel imm => ⟨0x60, sel, 0, 0, imm⟩
  | .rddiag sel sub => ⟨0x61, sel, sub, 0, 0⟩
  | .rdstat => ⟨0x62, 0, 0, 0, 0⟩

/-- The one word of a command (R70: no command has a second word). -/
def encode (i : Instr) : Word64 := packFields (encodeFields i)

/-- The command word whose bits are `w`, numbered as spec/opcode_table.json numbers them (bit 0 the least significant), of
which the table gives `nbits`; the bits above are zero. -/
def tableWord (nbits w : Nat) : Word64 := BitVec.ofNat 64 (w % 2 ^ nbits)

/-- The command the decoder reads from the word with the bits `w`. -/
def decodeTableWord (nbits w : Nat) : Option Instr := (decode (tableWord nbits w)).toOption

/-- The pseudo-command `INIT #x0, #x1, #x2, #x3` (R81). -/
def initCommands (x0 x1 x2 x3 : BitVec 32) : List Instr :=
  [.sminit 0 x0, .sminit 1 x1, .sminit 2 x2, .sminit 3 x3]

/-- The pseudo-command `FRAME #x0, #x1, #x2, #x3, #now` (R82): ten commands in this order. -/
def frameCommands (x0 x1 x2 x3 now : BitVec 32) : List Instr :=
  [.smobs 0 x0, .smobs 1 x1, .smobs 2 x2, .smobs 3 x3, .norm 0, .norm 1, .norm 2, .norm 3, .render 0 now, .render 1 now]

/-- The mnemonic of a command (R74). -/
def Instr.mnemonic : Instr → String
  | .nop => "NOP"
  | .sminit _ _ => "SMINIT"
  | .smobs _ _ => "SMOBS"
  | .rdhist _ _ => "RDHIST"
  | .rdcur _ => "RDCUR"
  | .setsm _ _ => "SETSM"
  | .rdsm _ => "RDSM"
  | .norm _ => "NORM"
  | .setfr _ _ => "SETFR"
  | .rdfr _ => "RDFR"
  | .clr _ => "CLR"
  | .casc _ => "CASC"
  | .pulse _ _ => "PULSE"
  | .qsin _ => "QSIN"
  | .qhsv _ => "QHSV"
  | .blend _ _ => "BLEND"
  | .setpix _ _ _ => "SETPIX"
  | .rdpix _ _ => "RDPIX"
  | .render _ _ => "RENDER"
  | .rddiag _ _ => "RDDIAG"
  | .rdstat => "RDSTAT"

/-- A bare decimal register selector or index (R80). -/
def writtenNumber {k : Nat} (v : BitVec k) : String := toString v.toNat

/-- An immediate, `#` and a decimal number (R80). -/
def writtenImm (imm : BitVec 32) : String := "#" ++ toString imm.toNat

/-- The operands in the order `sel`, `sub` or `idx`, `imm` (R80); the immediate of `SETSM` is signed. -/
def writtenOperands : Instr → List String
  | .nop => []
  | .sminit sel imm => [writtenNumber sel, writtenImm imm]
  | .smobs sel imm => [writtenNumber sel, writtenImm imm]
  | .rdhist sel idx => [writtenNumber sel, writtenNumber idx]
  | .rdcur sel => [writtenNumber sel]
  | .setsm sel imm => [writtenNumber sel, "#" ++ toString imm.toInt]
  | .rdsm sel => [writtenNumber sel]
  | .norm sel => [writtenNumber sel]
  | .setfr sel imm => [writtenNumber sel, writtenImm imm]
  | .rdfr sel => [writtenNumber sel]
  | .clr sel => [writtenNumber sel]
  | .casc sel => [writtenNumber sel]
  | .pulse sel imm => [writtenNumber sel, writtenImm imm]
  | .qsin imm => [writtenImm imm]
  | .qhsv imm => [writtenImm imm]
  | .blend sel imm => [writtenNumber sel, writtenImm imm]
  | .setpix sel idx imm => [writtenNumber sel, writtenNumber idx, writtenImm imm]
  | .rdpix sel idx => [writtenNumber sel, writtenNumber idx]
  | .render sel imm => [writtenNumber sel, writtenImm imm]
  | .rddiag sel sub => [writtenNumber sel, writtenNumber sub]
  | .rdstat => []

/-- The written form of a command: its mnemonic, then its operands separated by commas (R80). -/
def Instr.written (i : Instr) : String :=
  match writtenOperands i with
  | [] => i.mnemonic
  | ops => i.mnemonic ++ " " ++ ", ".intercalate ops

end Sys2Proof
end

