-- ==== Sys2Proof/Machine/Defaults.lean ====
section
/-! DEFINITION. The default colour lookup (44_color_compositor.md R152) and the default configuration (00_scope.md R4): every
parameter at its default, the three OPEN colour parameters left without a value. -/

namespace Sys2Proof.Machine

/-- The default `HSV2RGB` (R152). -/
def hsv2rgbDefault (h s v : Byte) : Pixel :=
  if s = 0 then ⟨v, v, v⟩
  else
    let region := h.toNat / 43
    let rem := (h.toNat - region * 43) * 6
    let p := BitVec.ofNat 8 (v.toNat * (255 - s.toNat) / 256)
    let q := BitVec.ofNat 8 (v.toNat * (255 - s.toNat * rem / 256) / 256)
    let t := BitVec.ofNat 8 (v.toNat * (255 - s.toNat * (255 - rem) / 256) / 256)
    match region with
    | 0 => ⟨v, t, p⟩
    | 1 => ⟨q, v, p⟩
    | 2 => ⟨p, v, t⟩
    | 3 => ⟨p, q, v⟩
    | 4 => ⟨t, p, v⟩
    | _ => ⟨v, p, q⟩

/-- Every parameter at the default of R4, with the given colour parameters. -/
def defaultParameters (baseHue baseSat pulseSat : Byte) : Parameters where
  channels := 4
  strips := 2
  n := 75
  w := 8
  adcMax := 4095
  fullScale := 4095
  periodSlow := 1400
  periodFast := 150
  ampMax := 200
  hueMax := 255
  fracBits := 24
  cascCh := fun s => if s = 0 then 0 else 1
  pulseCh := fun s => if s = 0 then 2 else 3
  baseHue := baseHue
  baseSat := baseSat
  pulseSat := pulseSat
  sinq := sinqTable
  hsv2rgb := hsv2rgbDefault

theorem hsv2rgbDefault_black (h s : Byte) : hsv2rgbDefault h s 0 = Pixel.black := by
  unfold hsv2rgbDefault
  split
  · rfl
  · dsimp only
    split <;> simp [Pixel.black]

theorem sinqTable_length : sinqTable.length = 257 := by decide +kernel
theorem sinqTable_last : sinqTable[256]? = some 32768 := by decide +kernel
theorem sinqTable_le : ∀ v ∈ sinqTable, v ≤ 32768 := by decide +kernel
theorem sinqTable_mono : sinqTable.Pairwise (· ≤ ·) := by decide +kernel

/-- The defaults meet the constraints, whatever the colours are. -/
theorem defaultParameters_legal (baseHue baseSat pulseSat : Byte) : (defaultParameters baseHue baseSat pulseSat).Legal where
  channels_eq := rfl
  strips_eq := rfl
  n_range := by simp only [defaultParameters]; decide
  w_range := by simp only [defaultParameters]; decide
  adcMax_range := by simp only [defaultParameters]; decide
  fullScale_range := by simp only [defaultParameters]; decide
  period_range := by simp only [defaultParameters]; decide
  ampMax_range := by simp only [defaultParameters]; decide
  hueMax_eq := rfl
  fracBits_range := by simp only [defaultParameters]; decide
  sinq_length := sinqTable_length
  sinq_first := rfl
  sinq_last := sinqTable_last
  sinq_range := sinqTable_le
  sinq_mono := sinqTable_mono
  hsv_black := hsv2rgbDefault_black

/-- The configuration with every parameter at its default and the given colours. -/
def defaultsWith (baseHue baseSat pulseSat : Byte) : Config where
  toParameters := defaultParameters baseHue baseSat pulseSat
  legal := defaultParameters_legal baseHue baseSat pulseSat

/-- The configuration that `exec` and `step` run with: the defaults, the colour parameters open. -/
def block : Config := defaultsWith openBaseHue openBaseSat openPulseSat

/-- The colour test configuration T0 of 95_test_vectors.md, for worked examples only. -/
def testColours : Config := defaultsWith 160 255 255

end Sys2Proof.Machine
end

