-- ==== Sys2Proof/Machine/State.lean ====
section
/-! DEFINITION. The whole architectural state of the block (10_state.md R20), for any configuration, the input port and the last response (the model's
own fields), the state after reset (R38), and the reasons a step can stop. -/

namespace Sys2Proof.Machine

/-- An element-indexed memory (20_memory.md R50): pairs of an element's index and its value, in one canonical form: indices
strictly rising, below the size of the space, and no entry equal to what an unlisted index reads as. -/
abbrev Memory (α : Type) := List (Nat × α)

/-- The canonical form of a memory of `size` elements in which an unlisted index reads as `unlisted` (`none`: it holds no
value). -/
abbrev Memory.wf {α : Type} [DecidableEq α] (size : Nat) (unlisted : Option α) (m : Memory α) : Prop :=
  m.Pairwise (fun x y => x.1 < y.1) ∧ ∀ x ∈ m, x.1 < size ∧ some x.2 ≠ unlisted

/-- The registers and the history of one sensor channel. -/
structure Channel (c : Config) where
  /-- `HIST[ch]`, the history; an unlisted slot holds no value (R22, R38) -/
  hist : Memory c.Sample
  /-- `CUR[ch]`, the write cursor (R23) -/
  cur : c.Cursor
  /-- `INITED[ch]` (R24) -/
  inited : Bool
  /-- `SM[ch]`, the smoothed value, signed (R25) -/
  sm : BitVec 16
  /-- `FR[ch]`, the fraction (R26) -/
  fr : c.Fraction
  deriving DecidableEq, Repr

/-- The pixel buffer and the read-out registers of one strip. -/
structure Strip where
  /-- `PIX[s]`, the pixel buffer; an unlisted pixel reads black (R27, R38) -/
  pix : Memory Pixel
  /-- `LIT[s]` (R28) -/
  lit : BitVec 16
  /-- `HUE[s]` (R29) -/
  hue : BitVec 8
  /-- `PER[s]` (R29) -/
  per : BitVec 16
  /-- `AMP[s]` (R29) -/
  amp : BitVec 8
  /-- `ANG[s]` (R30) -/
  ang : BitVec 10
  /-- `PHS[s]` (R30) -/
  phs : BitVec 17
  /-- `PB[s]` (R30) -/
  pb : BitVec 8
  /-- `PCOL[s]` (R31) -/
  pcol : Pixel
  deriving DecidableEq, Repr

/-- `STATUS`, the fault latch (R32). -/
structure Status where
  /-- `ERR`, sticky -/
  err : Bool
  /-- `CAUSE`, the code of the first fault since reset -/
  cause : BitVec 4
  deriving DecidableEq, Repr

/-- The response to a command (30_encoding.md R73). -/
structure Response where
  err : Bool
  data : BitVec 32
  deriving DecidableEq, Repr

/-- What the host does at the port: issue a command word (R70), or pulse the reset input (70_reset_and_hazards.md R210). -/
inductive HostEvent where
  | command (w : Word64)
  | reset
  deriving DecidableEq, Repr

/-- The state of a block of the configuration `c` (R20), with the model's own `port` and `rsp`. `State` alone is the state of
the block with the defaults. -/
structure State (c : Config := block) where
  /-- the four channels -/
  chan : Vector (Channel c) 4
  /-- the two strips -/
  strip : Vector Strip 2
  /-- the fault latch -/
  status : Status
  /-- MODEL'S OWN: what the host has issued and the block has not yet accepted, oldest first -/
  port : List HostEvent
  /-- MODEL'S OWN: the response to the last command, none while no command has been answered since reset -/
  rsp : Option Response
  deriving DecidableEq, Repr

/-- A channel after reset (R38). -/
def Channel.reset (c : Config) : Channel c := { hist := [], cur := 0, inited := false, sm := 0, fr := 0 }

/-- A strip after reset (R38). -/
def Strip.reset : Strip :=
  { pix := [], lit := 0, hue := 0, per := 0, amp := 0, ang := 0, phs := 0, pb := 0, pcol := Pixel.black }

/-- The state of a block of any configuration after reset (R38, R210), nothing yet issued by the host. -/
def State.resetOf (c : Config) : State c :=
  { chan := Vector.replicate 4 (Channel.reset c)
    strip := Vector.replicate 2 Strip.reset
    status := { err := false, cause := 0 }
    port := []
    rsp := none }

/-- The state after reset, with the defaults. -/
def State.reset : State := State.resetOf block

/-- Why a step can stop. The faults of 60_exceptions.md are NOT among these: the spec says what they do, so taking one is a next
state. -/
inductive Fault where
  /-- Raised by `SMOBS` and `RDHIST` when `INITED[ch] = 1` and a slot to be read holds no value. No run from reset reaches such
  a state (`SMINIT` writes all slots). Safe: the model stops where the spec gives the slot no value (R38). -/
  | historySlotEmpty
  deriving DecidableEq, Repr

/-- Why a step can be refused. -/
inductive Refusal where
  /-- Raised only by an arm of `exec` that gives its command no meaning; safe. No arm of this model does. -/
  | notModelled (mnemonic : String)
  deriving DecidableEq, Repr

end Sys2Proof.Machine
end

