-- ==== Sys2Proof/Machine/Flags.lean ====
section
/-! DEFINITION. The status register: the sticky fault latch (10_state.md R32, 60_exceptions.md R193) and the word `RDSTAT` reads.
The block has no arithmetic flags. -/

namespace Sys2Proof.Machine

/-- The latch records a fault: `ERR <- 1`; `CAUSE <- code` only if `ERR` was 0 (R193 (2), (3)). -/
def latchFault (cause : Cause) (st : Status) : Status :=
  { err := true, cause := if st.err then st.cause else cause.code }

/-- One bit of a word. -/
def bit (b : Bool) : BitVec 1 := BitVec.ofBool b

/-- `{20'b0, INITED[3], INITED[2], INITED[1], INITED[0], CAUSE[3:0], 3'b0, ERR}` (R32, R173). -/
def statusWord (st : Status) (inited : ChannelId → Bool) : BitVec 32 :=
  0#20 ++ bit (inited 3) ++ bit (inited 2) ++ bit (inited 1) ++ bit (inited 0) ++ st.cause ++ 0#3 ++ bit st.err

end Sys2Proof.Machine
end

