-- ==== Sys2Proof/Machine/Ops.lean ====
section
/-! DEFINITION. The named operations over the two memories and the registers, taking a fault (60_exceptions.md R193; there is
no return from one, R196), the response (30_encoding.md R73), reset, and accepting what the host has issued. -/

namespace Sys2Proof.Machine

variable {c : Config}

/-! ### Memories -/

/-- The element at index `a`, if one is listed. -/
def readCell {α : Type} : Memory α → Nat → Option α
  | [], _ => none
  | (b, v) :: m, a => if b = a then some v else readCell m a

/-- List `v` at index `a`, in its place. -/
def putCell {α : Type} : Memory α → Nat → α → Memory α
  | [], a, v => [(a, v)]
  | (b, u) :: m, a, v =>
    if a < b then (a, v) :: (b, u) :: m else if a = b then (a, v) :: m else (b, u) :: putCell m a v

/-- List nothing at index `a`. -/
def dropCell {α : Type} (m : Memory α) (a : Nat) : Memory α := m.filter (fun x => x.1 != a)

/-- Pixel `i` of a buffer: black where none is listed (R38). -/
def readPix (m : Memory Pixel) (i : Nat) : Pixel := (readCell m i).getD Pixel.black

/-- Write pixel `i` of a buffer; black is what an unlisted pixel reads as, so it is not listed. -/
def writePix (m : Memory Pixel) (i : Nat) (p : Pixel) : Memory Pixel :=
  if p = Pixel.black then dropCell m i else putCell m i p

/-- `for all i in is: PIX[s][i] <- g(PIX[s][i])`; the accesses are independent (R57, R154). -/
def mapPix (is : List Nat) (g : Pixel → Pixel) (m : Memory Pixel) : Memory Pixel :=
  is.foldl (fun m i => writePix m i (g (readPix m i))) m

/-- `for all i in 0..w-1: HIST[ch][i] <- x` (R91). -/
def fillHist {n : Nat} (w : Nat) (x : BitVec n) (m : Memory (BitVec n)) : Memory (BitVec n) :=
  (List.range w).foldl (fun m i => putCell m i x) m

/-- `HIST[ch][0] + ... + HIST[ch][k-1]`, if all these slots hold a value (R90). -/
def slotSum {n : Nat} (m : Memory (BitVec n)) : Nat → Option Nat
  | 0 => some 0
  | k + 1 =>
    match slotSum m k, readCell m k with
    | some t, some v => some (t + v.toNat)
    | _, _ => none

/-! ### Registers, by the names of 10_state.md R20 -/

/-- The registers and history of channel `ch`. -/
def State.channel (s : State c) (ch : ChannelId) : Channel c := s.chan.get ch

/-- The registers and buffer of strip `k`. -/
def State.stripe (s : State c) (k : StripId) : Strip := s.strip.get k

/-- Replace channel `ch`, and nothing else. -/
def State.setChannel (s : State c) (ch : ChannelId) (k : Channel c) : State c := { s with chan := s.chan.set ch.1 k ch.2 }

/-- Replace strip `k`, and nothing else. -/
def State.setStripe (s : State c) (k : StripId) (t : Strip) : State c := { s with strip := s.strip.set k.1 t k.2 }

/-- `HIST[ch][i]`, if the slot holds a value. -/
def State.hist (s : State c) (ch : ChannelId) (i : Nat) : Option c.Sample := readCell (s.channel ch).hist i

/-- `CUR[ch]` -/
def State.cur (s : State c) (ch : ChannelId) : c.Cursor := (s.channel ch).cur

/-- `INITED[ch]` -/
def State.inited (s : State c) (ch : ChannelId) : Bool := (s.channel ch).inited

/-- `SM[ch]` -/
def State.sm (s : State c) (ch : ChannelId) : BitVec 16 := (s.channel ch).sm

/-- `FR[ch]` -/
def State.fr (s : State c) (ch : ChannelId) : c.Fraction := (s.channel ch).fr

/-- `PIX[k][i]` -/
def State.pix (s : State c) (k : StripId) (i : Nat) : Pixel := readPix (s.stripe k).pix i

/-! ### Ending a command -/

/-- What every step of the block ends in. -/
abbrev Result (c : Config) := Host.Outcome (State c) Fault Refusal

/-- A fault of the command is taken (R193): nothing changes but `STATUS`, and the response is `err = 1`, `data = 0`. -/
def takeFault (cause : Cause) (s : State c) : State c :=
  { s with status := latchFault cause s.status, rsp := some { err := true, data := 0 } }

/-- The command ends without a fault and responds `data` (R73). -/
def respond (data : BitVec 32) (s : State c) : State c := { s with rsp := some { err := false, data := data } }

/-- One check of 30_encoding.md R78: if it fails, its fault is taken and the command has no other effect; if it passes, the
command goes on with the operand it names. -/
def check {α : Type} (o : Except Cause α) (s : State c) (go : α → Result c) : Result c :=
  match o with
  | .error cause => .next (takeFault cause s)
  | .ok a => go a

/-! ### The port -/

/-- The block, idle, accepts the oldest of what the host has issued (70_reset_and_hazards.md R222). -/
def accept (s : State c) : Option (HostEvent × State c) :=
  match s.port with
  | [] => none
  | e :: rest => some (e, { s with port := rest })

/-- A pulse of the reset input: the state of R38; what the host goes on to issue stands as it stood (R210). -/
def pulseReset (s : State c) : State c := { State.resetOf c with port := s.port }

/-- The host issues commands, after those it has already issued. -/
def issue (is : List Instr) (s : State c) : State c :=
  { s with port := s.port ++ is.map (fun i => .command (encode i)) }

end Sys2Proof.Machine
end

