-- ==== Sys2Proof/Machine/Operands.lean ====
section
/-! DEFINITION. Every operand form of the commands: what a selector, an index or an immediate stands for, or the cause of the
fault it raises (30_encoding.md R72, R76, R78 checks 3 to 6), and the packing of colours (20_memory.md R52). -/

namespace Sys2Proof.Machine

/-- Check 3: `sel` as a channel (R76). -/
def channelOf (sel : BitVec 4) : Except Cause ChannelId :=
  if h : sel.toNat < 4 then .ok ⟨sel.toNat, h⟩ else .error .badSelector

/-- Check 3: `sel` as a strip (R76). -/
def stripOf (sel : BitVec 4) : Except Cause StripId :=
  if h : sel.toNat < 2 then .ok ⟨sel.toNat, h⟩ else .error .badSelector

/-- Check 3: `sub` as the number of a read-out register (R76). -/
def diagOf (sub : BitVec 4) : Except Cause (Fin 8) :=
  if h : sub.toNat < 8 then .ok ⟨sub.toNat, h⟩ else .error .badSelector

/-- Check 4: `idx` as a pixel index (R76). -/
def pixelOf (c : Config) (idx : BitVec 16) : Except Cause Nat :=
  if idx.toNat < c.n then .ok idx.toNat else .error .badIndex

/-- Check 4: `idx` as a slot index (R76). -/
def slotOf (c : Config) (idx : BitVec 16) : Except Cause Nat :=
  if idx.toNat < c.w then .ok idx.toNat else .error .badIndex

/-- Check 5: a raw sample (R72). -/
def sampleOf (c : Config) (imm : BitVec 32) : Except Cause c.Sample :=
  if imm.toNat ≤ c.adcMax then .ok (imm.setWidth c.sampleBits) else .error .badOperand

/-- Check 5: the signed value of `SETSM`; `imm` is the sign extension of its low half (R72, R95). -/
def signedOf (imm : BitVec 32) : Except Cause (BitVec 16) :=
  if imm = (imm.setWidth 16).signExtend 32 then .ok (imm.setWidth 16) else .error .badOperand

/-- Check 5: the fraction of `SETFR` (R72, R112). -/
def fractionOf (c : Config) (imm : BitVec 32) : Except Cause c.Fraction :=
  if imm.toNat ≤ c.one then .ok (imm.setWidth (c.fracBits + 1)) else .error .badOperand

/-- Check 5: the angle index of `QSIN` (R72, R141). -/
def angleOf (imm : BitVec 32) : Except Cause (BitVec 10) :=
  if imm.toNat ≤ 1023 then .ok (imm.setWidth 10) else .error .badOperand

/-- `imm[23:16]`, `imm[15:8]`, `imm[7:0]`: a packed colour or a packed hue, saturation and value (R52). -/
def unpackTriple (imm : BitVec 32) : Byte × Byte × Byte :=
  (imm.extractLsb' 16 8, imm.extractLsb' 8 8, imm.extractLsb' 0 8)

/-- Check 5: a packed triple, bits 31:24 zero (R72). -/
def tripleOf (imm : BitVec 32) : Except Cause (Byte × Byte × Byte) :=
  if imm.extractLsb' 24 8 = 0 then .ok (unpackTriple imm) else .error .badOperand

/-- Check 5: the colour of `BLEND` and `SETPIX` (R72). -/
def colourOf (imm : BitVec 32) : Except Cause Pixel :=
  match tripleOf imm with
  | .ok (r, g, b) => .ok ⟨r, g, b⟩
  | .error cause => .error cause

/-- `{8'h00, r, g, b}` (R52). -/
def packColour (p : Pixel) : BitVec 32 := 0#8 ++ p.r ++ p.g ++ p.b

/-- Check 6: `INITED[ch] = 1` (R78, R191). -/
def initedOf {c : Config} (s : State c) (ch : ChannelId) : Except Cause Unit :=
  if s.inited ch then .ok () else .error .uninit

end Sys2Proof.Machine
end

