-- ==== Sys2Proof/Machine/Units.lean ====
section
/-! DEFINITION. What the four units compute, as functions of a configuration and of plain numbers (no operation wraps, R8). -/

namespace Sys2Proof.Machine

/-- `clamp(v, lo, hi)` (R8). -/
def clamp (v lo hi : Nat) : Nat := min (max v lo) hi

/-- `rnd(f, K) = (f * K + HALF) >> FRAC_BITS` (R9). The constant stands first so that the kernel, comparing terms in which `f` is
not a numeral, does not count it down. -/
def rnd (c : Config) (f k : Nat) : Nat := (c.half + f * k) / c.one

/-! ### Smoother and normalizer -/

/-- The mean of the `W` slots, truncated (R90), if they all hold a value. -/
def mean (c : Config) (m : Memory c.Sample) : Option Nat := (slotSum m c.w).map (fun t => t / c.w)

/-- `normalize(x)` (R110). -/
def normalizeOf (c : Config) (x : Int) : Nat :=
  if x ≤ 0 then 0 else if (c.fullScale : Int) ≤ x then c.one else x.toNat * c.one / c.fullScale

/-! ### Cascade -/

/-- `litCount(f)` (R120). -/
def litCount (c : Config) (f : Nat) : Nat := clamp (rnd c f c.n) 0 c.n

/-- `BASE_RGB = HSV2RGB(BASE_HUE, BASE_SAT, 255)` (R123). -/
def baseRgb (c : Config) : Pixel := c.hsv2rgb c.baseHue c.baseSat 255

/-! ### Pulse -/

/-- `hue(f)` (R130). -/
def hueOf (c : Config) (f : Nat) : Nat := rnd c f c.hueMax

/-- `period(f)` (R131). -/
def periodOf (c : Config) (f : Nat) : Nat := c.periodSlow - rnd c f (c.periodSlow - c.periodFast)

/-- `amplitude(f)` (R132). -/
def amplitudeOf (c : Config) (f : Nat) : Nat := rnd c f c.ampMax

/-- The angle index of time `now` in a cycle of period `p` (R133, R134). -/
def angleIndex (now p : Nat) : Nat := now % p * 1024 / p

/-- `S(theta)` (R135), with `q = theta[9:8]` and `k = theta[7:0]`. -/
def sine (c : Config) (theta : Nat) : Int :=
  let k := theta % 256
  match theta / 256 % 4 with
  | 0 => (c.sinq.getD k 0 : Int)
  | 1 => (c.sinq.getD (256 - k) 0 : Int)
  | 2 => -(c.sinq.getD k 0 : Int)
  | _ => -(c.sinq.getD (256 - k) 0 : Int)

/-- `phase(theta)` (R136). -/
def phaseOf (c : Config) (theta : Nat) : Nat := (sine c theta + 32768).toNat

/-- `pulseBrightness` of a phase and an amplitude (R138); the constant stands first as in `rnd`. -/
def brightnessOf (ph a : Nat) : Nat := (32768 + ph * a) / 65536

/-- What steps 4 to 9 compute before the blend (R130 to R139). -/
structure PulseValues where
  hue : Nat
  per : Nat
  amp : Nat
  ang : Nat
  phs : Nat
  pb : Nat
  pcol : Pixel
  deriving DecidableEq, Repr

/-- Steps 4 to 9 for the fraction `f` at the time `now` (R140). -/
def pulseValues (c : Config) (f now : Nat) : PulseValues :=
  let per := periodOf c f
  let amp := amplitudeOf c f
  let ang := angleIndex now per
  let phs := phaseOf c ang
  let pb := brightnessOf phs amp
  { hue := hueOf c f, per, amp, ang, phs, pb
    pcol := c.hsv2rgb (BitVec.ofNat 8 (hueOf c f)) c.pulseSat (BitVec.ofNat 8 pb) }

/-! ### Colour -/

/-- One lane of the saturating adder: `min(a + b, 255)` (R151). -/
def satLane (a b : Byte) : Byte := BitVec.ofNat 8 (min (a.toNat + b.toNat) 255)

/-- `satadd` (R151): three independent lanes. -/
def satadd (x y : Pixel) : Pixel := ⟨satLane x.r y.r, satLane x.g y.g, satLane x.b y.b⟩

end Sys2Proof.Machine
end

