-- ==== Sys2Proof/Machine/Normalizer.lean ====
section
/-! DEFINITION. The normalization scaler: `NORM`, `SETFR`, `RDFR` (41_normalizer.md). -/

namespace Sys2Proof.Machine

/-- What `NORM` makes of its channel (R111). -/
def normChannel (c : Config) (k : Channel c) : Channel c := { k with fr := BitVec.ofNat _ (normalizeOf c k.sm.toInt) }

/-- `NORM ch` (R111). -/
def execNorm {c : Config} (sel : BitVec 4) (s : State c) : Result c :=
  check (channelOf sel) s fun ch =>
  let k := normChannel c (s.channel ch)
  .next (respond (k.fr.setWidth 32) (s.setChannel ch k))

/-- `SETFR ch, #f` (R112). -/
def execSetfr {c : Config} (sel : BitVec 4) (imm : BitVec 32) (s : State c) : Result c :=
  check (channelOf sel) s fun ch =>
  check (fractionOf c imm) s fun f =>
  .next (respond 0 (s.setChannel ch { s.channel ch with fr := f }))

/-- `RDFR ch` (R113). -/
def execRdfr {c : Config} (sel : BitVec 4) (s : State c) : Result c :=
  check (channelOf sel) s fun ch => .next (respond ((s.fr ch).setWidth 32) s)

end Sys2Proof.Machine
end

