-- ==== Sys2Proof/Machine/Smoother.lean ====
section
/-! DEFINITION. The moving-average filter: `SMINIT`, `SMOBS`, `RDHIST`, `RDCUR`, `SETSM`, `RDSM` (40_smoother.md). -/

namespace Sys2Proof.Machine

/-- What `SMINIT` makes of its channel (R91). -/
def initChannel (c : Config) (x : c.Sample) (k : Channel c) : Channel c :=
  { k with hist := fillHist c.w x k.hist, cur := 0, inited := true, sm := x.setWidth 16 }

/-- What `SMOBS` makes of its channel (R92): store at the cursor, advance it modulo `W`, take the mean; none where a slot holds
no value. -/
def observeChannel (c : Config) (x : c.Sample) (k : Channel c) : Option (Channel c) :=
  let hist := putCell k.hist k.cur.toNat x
  match mean c hist with
  | none => none
  | some m => some { k with hist := hist, cur := BitVec.ofNat _ ((k.cur.toNat + 1) % c.w), sm := BitVec.ofNat 16 m }

/-- `SMINIT ch, #x` (R91). -/
def execSminit {c : Config} (sel : BitVec 4) (imm : BitVec 32) (s : State c) : Result c :=
  check (channelOf sel) s fun ch =>
  check (sampleOf c imm) s fun x =>
  .next (respond (x.setWidth 32) (s.setChannel ch (initChannel c x (s.channel ch))))

/-- `SMOBS ch, #x` (R92). -/
def execSmobs {c : Config} (sel : BitVec 4) (imm : BitVec 32) (s : State c) : Result c :=
  check (channelOf sel) s fun ch =>
  check (sampleOf c imm) s fun x =>
  check (initedOf s ch) s fun _ =>
  match observeChannel c x (s.channel ch) with
  | none => .fault .historySlotEmpty
  | some k => .next (respond (k.sm.setWidth 32) (s.setChannel ch k))

/-- `RDHIST ch, i` (R93). -/
def execRdhist {c : Config} (sel : BitVec 4) (idx : BitVec 16) (s : State c) : Result c :=
  check (channelOf sel) s fun ch =>
  check (slotOf c idx) s fun i =>
  check (initedOf s ch) s fun _ =>
  match s.hist ch i with
  | none => .fault .historySlotEmpty
  | some v => .next (respond (v.setWidth 32) s)

/-- `RDCUR ch` (R94). -/
def execRdcur {c : Config} (sel : BitVec 4) (s : State c) : Result c :=
  check (channelOf sel) s fun ch => .next (respond ((s.cur ch).setWidth 32) s)

/-- `SETSM ch, #v` (R95). -/
def execSetsm {c : Config} (sel : BitVec 4) (imm : BitVec 32) (s : State c) : Result c :=
  check (channelOf sel) s fun ch =>
  check (signedOf imm) s fun v =>
  .next (respond 0 (s.setChannel ch { s.channel ch with sm := v }))

/-- `RDSM ch` (R96): the response is sign-extended. -/
def execRdsm {c : Config} (sel : BitVec 4) (s : State c) : Result c :=
  check (channelOf sel) s fun ch => .next (respond ((s.sm ch).signExtend 32) s)

end Sys2Proof.Machine
end

