-- ==== Sys2Proof/Machine/Cascade.lean ====
section
/-! DEFINITION. Clear and cascade fill: `CLR`, `CASC` (42_cascade.md). -/

namespace Sys2Proof.Machine

/-- `for all i in 0..N-1: PIX[s][i] <- (0, 0, 0)` (R121). -/
def clearStrip (c : Config) (t : Strip) : Strip :=
  { t with pix := mapPix (List.range c.n) (fun _ => Pixel.black) t.pix }

/-- The cascade for the fraction `f` (R122): `LIT[s]`, and the pixels `N - LIT[s] .. N - 1` at `BASE_RGB`. -/
def cascadeStrip (c : Config) (f : Nat) (t : Strip) : Strip :=
  { t with
    lit := BitVec.ofNat 16 (litCount c f)
    pix := mapPix (List.range' (c.n - litCount c f) (litCount c f)) (fun _ => baseRgb c) t.pix }

/-- `CLR s` (R121). -/
def execClr {c : Config} (sel : BitVec 4) (s : State c) : Result c :=
  check (stripOf sel) s fun k => .next (respond 0 (s.setStripe k (clearStrip c (s.stripe k))))

/-- `CASC s` (R122). -/
def execCasc {c : Config} (sel : BitVec 4) (s : State c) : Result c :=
  check (stripOf sel) s fun k =>
  let t := cascadeStrip c (s.fr (c.cascCh k)).toNat (s.stripe k)
  .next (respond (t.lit.setWidth 32) (s.setStripe k t))

end Sys2Proof.Machine
end

