-- ==== Sys2Proof/Machine/Compositor.lean ====
section
/-! DEFINITION. The colour lookup and the saturating compositor: `QHSV`, `BLEND`, `SETPIX`, `RDPIX` (44_color_compositor.md). -/

namespace Sys2Proof.Machine

/-- `blend(s, c)` (R154): the colour is added to every pixel of the strip. -/
def blendStrip (c : Config) (p : Pixel) (t : Strip) : Strip :=
  { t with pix := mapPix (List.range c.n) (fun old => satadd old p) t.pix }

/-- `QHSV #hsv` (R155). -/
def execQhsv {c : Config} (imm : BitVec 32) (s : State c) : Result c :=
  check (tripleOf imm) s fun hsv => .next (respond (packColour (c.hsv2rgb hsv.1 hsv.2.1 hsv.2.2)) s)

/-- `BLEND s, #rgb` (R156). -/
def execBlend {c : Config} (sel : BitVec 4) (imm : BitVec 32) (s : State c) : Result c :=
  check (stripOf sel) s fun k =>
  check (colourOf imm) s fun p =>
  .next (respond 0 (s.setStripe k (blendStrip c p (s.stripe k))))

/-- `SETPIX s, i, #rgb` (R157). -/
def execSetpix {c : Config} (sel : BitVec 4) (idx : BitVec 16) (imm : BitVec 32) (s : State c) : Result c :=
  check (stripOf sel) s fun k =>
  check (pixelOf c idx) s fun i =>
  check (colourOf imm) s fun p =>
  .next (respond 0 (s.setStripe k { s.stripe k with pix := writePix (s.stripe k).pix i p }))

/-- `RDPIX s, i` (R158). -/
def execRdpix {c : Config} (sel : BitVec 4) (idx : BitVec 16) (s : State c) : Result c :=
  check (stripOf sel) s fun k =>
  check (pixelOf c idx) s fun i =>
  .next (respond (packColour (s.pix k i)) s)

end Sys2Proof.Machine
end

