-- ==== Sys2Proof/Machine/Pulse.lean ====
section
/-! DEFINITION. The pulse: `PULSE`, `QSIN` (43_pulse.md). -/

namespace Sys2Proof.Machine

/-- The pulse of a strip for the fraction `f` at the time `now` (R140): the read-out registers, then the blend of the pulse
colour onto every pixel. -/
def pulseStrip (c : Config) (f now : Nat) (t : Strip) : Strip :=
  let v := pulseValues c f now
  blendStrip c v.pcol
    { t with
      hue := BitVec.ofNat 8 v.hue
      per := BitVec.ofNat 16 v.per
      amp := BitVec.ofNat 8 v.amp
      ang := BitVec.ofNat 10 v.ang
      phs := BitVec.ofNat 17 v.phs
      pb := BitVec.ofNat 8 v.pb
      pcol := v.pcol }

/-- `PULSE s, #now` (R140). -/
def execPulse {c : Config} (sel : BitVec 4) (imm : BitVec 32) (s : State c) : Result c :=
  check (stripOf sel) s fun k =>
  let t := pulseStrip c (s.fr (c.pulseCh k)).toNat imm.toNat (s.stripe k)
  .next (respond (t.pb.setWidth 32) (s.setStripe k t))

/-- `QSIN #theta` (R141): the response is sign-extended. -/
def execQsin {c : Config} (imm : BitVec 32) (s : State c) : Result c :=
  check (angleOf imm) s fun theta => .next (respond (BitVec.ofInt 32 (sine c theta.toNat)) s)

end Sys2Proof.Machine
end

