-- ==== Sys2Proof/Machine/System.lean ====
section
/-! DEFINITION. The composite render and the system commands: `RENDER`, `NOP`, `RDDIAG`, `RDSTAT` (45_render_and_system.md). -/

namespace Sys2Proof.Machine

/-- The nine steps of `RENDER` on one strip (R170): cascade length, clear, cascade, pulse. -/
def renderStrip (c : Config) (fc fp now : Nat) (t : Strip) : Strip :=
  pulseStrip c fp now (cascadeStrip c fc (clearStrip c t))

/-- The word `RDDIAG` reads (R172). -/
def diagWord (t : Strip) (sub : Fin 8) : BitVec 32 :=
  match sub with
  | 0 => t.lit.setWidth 32
  | 1 => t.hue.setWidth 32
  | 2 => t.per.setWidth 32
  | 3 => t.amp.setWidth 32
  | 4 => t.ang.setWidth 32
  | 5 => t.phs.setWidth 32
  | 6 => t.pb.setWidth 32
  | 7 => packColour t.pcol

/-- `RENDER s, #now` (R170). -/
def execRender {c : Config} (sel : BitVec 4) (imm : BitVec 32) (s : State c) : Result c :=
  check (stripOf sel) s fun k =>
  let t := renderStrip c (s.fr (c.cascCh k)).toNat (s.fr (c.pulseCh k)).toNat imm.toNat (s.stripe k)
  .next (respond (t.pb.setWidth 32) (s.setStripe k t))

/-- `NOP` (R171). -/
def execNop {c : Config} (s : State c) : Result c := .next (respond 0 s)

/-- `RDDIAG s, sub` (R172). -/
def execRddiag {c : Config} (sel sub : BitVec 4) (s : State c) : Result c :=
  check (stripOf sel) s fun k =>
  check (diagOf sub) s fun r =>
  .next (respond (diagWord (s.stripe k) r) s)

/-- `RDSTAT` (R173). -/
def execRdstat {c : Config} (s : State c) : Result c := .next (respond (statusWord s.status s.inited) s)

end Sys2Proof.Machine
end

