-- ==== Sys2Proof/Machine/Dispatch.lean ====
section
/-! DEFINITION. The effect of a decoded command on the state: one arm per constructor of `Instr`. -/

namespace Sys2Proof.Machine

def exec (i : Instr) (s : State) : Host.Outcome State Fault Refusal :=
  match i with
  | .nop => Sys2Proof.Machine.execNop s
  | .sminit sel imm => Sys2Proof.Machine.execSminit sel imm s
  | .smobs sel imm => Sys2Proof.Machine.execSmobs sel imm s
  | .rdhist sel idx => Sys2Proof.Machine.execRdhist sel idx s
  | .rdcur sel => Sys2Proof.Machine.execRdcur sel s
  | .setsm sel imm => Sys2Proof.Machine.execSetsm sel imm s
  | .rdsm sel => Sys2Proof.Machine.execRdsm sel s
  | .norm sel => Sys2Proof.Machine.execNorm sel s
  | .setfr sel imm => Sys2Proof.Machine.execSetfr sel imm s
  | .rdfr sel => Sys2Proof.Machine.execRdfr sel s
  | .clr sel => Sys2Proof.Machine.execClr sel s
  | .casc sel => Sys2Proof.Machine.execCasc sel s
  | .pulse sel imm => Sys2Proof.Machine.execPulse sel imm s
  | .qsin imm => Sys2Proof.Machine.execQsin imm s
  | .qhsv imm => Sys2Proof.Machine.execQhsv imm s
  | .blend sel imm => Sys2Proof.Machine.execBlend sel imm s
  | .setpix sel idx imm => Sys2Proof.Machine.execSetpix sel idx imm s
  | .rdpix sel idx => Sys2Proof.Machine.execRdpix sel idx s
  | .render sel imm => Sys2Proof.Machine.execRender sel imm s
  | .rddiag sel sub => Sys2Proof.Machine.execRddiag sel sub s
  | .rdstat => Sys2Proof.Machine.execRdstat s

end Sys2Proof.Machine
end

