-- ==== Sys2Proof/Machine/Run.lean ====
section
/-! DEFINITION. The block as a function of its configuration (00_scope.md R4, 93_implementation_defined.md U1): the effect of a
command, of a command word and of one step in a block of any legal configuration, and the machine that a set of parameters
makes, refused where the parameters break a constraint (R6). `exec` (Dispatch.lean), `step` (Step.lean) and `core` (Core.lean),
whose types are fixed, are these at the defaults: the same meanings, called with the configuration `block`. -/

namespace Sys2Proof.Machine

/-- The effect of a decoded command on a block of the configuration `c`. -/
def execute {c : Config} (i : Instr) (s : State c) : Result c :=
  match i with
  | .nop => execNop s
  | .sminit sel imm => execSminit sel imm s
  | .smobs sel imm => execSmobs sel imm s
  | .rdhist sel idx => execRdhist sel idx s
  | .rdcur sel => execRdcur sel s
  | .setsm sel imm => execSetsm sel imm s
  | .rdsm sel => execRdsm sel s
  | .norm sel => execNorm sel s
  | .setfr sel imm => execSetfr sel imm s
  | .rdfr sel => execRdfr sel s
  | .clr sel => execClr sel s
  | .casc sel => execCasc sel s
  | .pulse sel imm => execPulse sel imm s
  | .qsin imm => execQsin imm s
  | .qhsv imm => execQhsv imm s
  | .blend sel imm => execBlend sel imm s
  | .setpix sel idx imm => execSetpix sel idx imm s
  | .rdpix sel idx => execRdpix sel idx s
  | .render sel imm => execRender sel imm s
  | .rddiag sel sub => execRddiag sel sub s
  | .rdstat => execRdstat s

/-- The effect of a command word: a word that fails check 1 or 2 of R78 takes that fault; any other word is a command and is
executed, here by `ex`. -/
def obey {c : Config} (ex : Instr → State c → Result c) (w : Word64) (s : State c) : Result c :=
  match decode w with
  | .error cause => .next (takeFault cause s)
  | .ok i => ex i s

/-- One step of a block that executes its commands by `ex`. With nothing issued it holds its state (R204); a reset pulse gives
the state after reset (R210); a command word is accepted and has its effect (20_memory.md R57, 30_encoding.md R77). -/
def advance {c : Config} (ex : Instr → State c → Result c) (s : State c) : Result c :=
  match accept s with
  | none => .next s
  | some (.reset, s') => .next (pulseReset s')
  | some (.command w, s') => obey ex w s'

/-- One step of a block of any configuration. -/
def stepOf {c : Config} (s : State c) : Result c := advance execute s

/-- The machine of a configuration. -/
def coreOf (c : Config) : Host.Core :=
  { State := State c
    Fault := Fault
    Refusal := Refusal
    step := stepOf
    reset := State.resetOf c }

/-- The machine that a set of parameters makes; none where they break a constraint (R6, U1). -/
def instantiate (p : Parameters) : Option Host.Core := p.configure.map coreOf

end Sys2Proof.Machine
end

