-- ==== Sys2Proof/Machine/Step.lean ====
section
/-! DEFINITION. One step of the block with the defaults: accept what the host has issued and execute it (20_memory.md R57,
30_encoding.md R77, R78). -/

namespace Sys2Proof.Machine

/-- One step: `advance`, by the arms of `exec`. -/
def step (s : State) : Host.Outcome State Fault Refusal := advance exec s

/-- The state in which the next step accepts the word with the bits `w`, in place of the oldest thing the host has issued. -/
def State.withFetchWord (s : State) (nbits w : Nat) : State :=
  { s with port := .command (tableWord nbits w) :: s.port.tail }

end Sys2Proof.Machine
end

