-- ==== Sys2Proof/Safety.lean ====
section
/-! DEFINITION. What a good state and a good run are (60_exceptions.md R196, 70_reset_and_hazards.md R224), and the invariants of
a block of any configuration (10_state.md R35). -/

namespace Sys2Proof.Machine

/-- The invariants of one channel (R35), and the canonical form of its history, the model's own (log entry 4). -/
structure Channel.Inv {c : Config} (k : Channel c) : Prop where
  cur_lt : k.cur.toNat < c.w
  fr_le : k.fr.toNat ≤ c.one
  hist_wf : Memory.wf c.w none k.hist
  hist_full : k.inited = true → ∀ i < c.w, ∃ v, readCell k.hist i = some v ∧ v.toNat ≤ c.adcMax

/-- The invariants of one strip (R35), and the canonical form of its buffer, the model's own (log entry 5). -/
structure Strip.Inv (c : Config) (t : Strip) : Prop where
  pix_wf : Memory.wf c.n (some Pixel.black) t.pix
  lit_le : t.lit.toNat ≤ c.n
  per_range : t.per = 0 ∨ c.periodFast ≤ t.per.toNat ∧ t.per.toNat ≤ c.periodSlow
  amp_le : t.amp.toNat ≤ c.ampMax
  phs_le : t.phs.toNat ≤ 65536
  pb_le : t.pb.toNat ≤ t.amp.toNat

/-- The latch: `CAUSE` is 0 exactly while `ERR` is 0 (R32), and codes 7 to 15 are never recorded (R191). -/
structure Status.Inv (st : Status) : Prop where
  cause_zero : st.err = false ↔ st.cause = 0
  cause_le : st.cause.toNat ≤ 6

/-- The invariants of the block (R35), and the canonical form of both memories, the model's own (log entries 4 and 5). -/
structure State.Inv {c : Config} (s : State c) : Prop where
  channel : ∀ ch, (s.channel ch).Inv
  stripe : ∀ k, (s.stripe k).Inv c
  status : s.status.Inv

/-- "gone wrong" is `ERR = 1` (R196); a run is good when it ends in a good state (R224). -/
def State.Good {c : Config} (s : State c) : Prop := s.status.err = false

/-- A run from `s`: the host issues these command words, whatever they are (a word that decodes to no command takes its fault),
and the block is in `t` after the last of them (R77, R224). -/
inductive RunsTo {c : Config} : State c → List Word64 → State c → Prop where
  | done (s : State c) : RunsTo s [] s
  | cons {s t u : State c} {w : Word64} {ws : List Word64} :
    obey execute w s = .next t → RunsTo t ws u → RunsTo s (w :: ws) u

end Sys2Proof.Machine
end

