-- ==== Sys2Proof/Certificates/Slice0/Obligations.lean ====
section
/-! DEFINITION. The statements for the provers, and the words they are written in. A statement about one command is about `exec`,
the block at the default parameters (00_scope.md R4): the formulas of the rules are written out there in numbers, not through the
model's own units, wherever the spec gives a formula; the colour lookup is the default one (R152) and the three open colour
parameters stay open. A statement about the whole machine, and one whose rule speaks of a parameter in general, is about the
blocks of all configurations: there a command is `execute`, a step `stepOf`, a run `RunsTo`. -/

namespace Sys2Proof.Statements

open Sys2Proof.Machine

variable {c : Config}

/-! ### What is the same in two states -/

/-- The history, cursor, `INITED`, `SM` and `FR` of channel `ch` are the same. -/
def SameChannel (s t : State c) (ch : ChannelId) : Prop :=
  (∀ i, t.hist ch i = s.hist ch i) ∧ t.cur ch = s.cur ch ∧ t.inited ch = s.inited ch ∧ t.sm ch = s.sm ch ∧ t.fr ch = s.fr ch

/-- Every pixel of strip `k` reads the same. -/
def SamePixels (s t : State c) (k : StripId) : Prop := ∀ i, t.pix k i = s.pix k i

/-- `HUE`, `PER`, `AMP`, `ANG`, `PHS`, `PB` and `PCOL` of strip `k` are the same. -/
def SamePulse (s t : State c) (k : StripId) : Prop :=
  (t.stripe k).hue = (s.stripe k).hue ∧ (t.stripe k).per = (s.stripe k).per ∧ (t.stripe k).amp = (s.stripe k).amp ∧
    (t.stripe k).ang = (s.stripe k).ang ∧ (t.stripe k).phs = (s.stripe k).phs ∧ (t.stripe k).pb = (s.stripe k).pb ∧
    (t.stripe k).pcol = (s.stripe k).pcol

/-- Every read-out register of strip `k` is the same. -/
def SameReadouts (s t : State c) (k : StripId) : Prop := (t.stripe k).lit = (s.stripe k).lit ∧ SamePulse s t k

/-- Every pixel and every read-out register of strip `k` is the same. -/
def SameStrip (s t : State c) (k : StripId) : Prop := SamePixels s t k ∧ SameReadouts s t k

/-- Nothing differs but, perhaps, the response. -/
def SameAll (s t : State c) : Prop :=
  (∀ ch, SameChannel s t ch) ∧ (∀ k, SameStrip s t k) ∧ t.status = s.status ∧ t.port = s.port

/-- Nothing differs but, perhaps, channel `ch` and the response. -/
def OnlyChannel (ch : ChannelId) (s t : State c) : Prop :=
  (∀ ch', ch' ≠ ch → SameChannel s t ch') ∧ (∀ k, SameStrip s t k) ∧ t.status = s.status ∧ t.port = s.port

/-- Nothing differs but, perhaps, strip `k` and the response. -/
def OnlyStrip (k : StripId) (s t : State c) : Prop :=
  (∀ ch, SameChannel s t ch) ∧ (∀ k', k' ≠ k → SameStrip s t k') ∧ t.status = s.status ∧ t.port = s.port

/-! ### Responses and faults -/

/-- The response is `err = 0` with the unsigned number `n`. -/
def Answers (t : State c) (n : Nat) : Prop := ∃ d, t.rsp = some { err := false, data := d } ∧ d.toNat = n

/-- The response is `err = 0` with the signed number `x`. -/
def AnswersInt (t : State c) (x : Int) : Prop := ∃ d, t.rsp = some { err := false, data := d } ∧ d.toInt = x

/-- A fault of the given code has been taken between `s` and `t` (R193): nothing but `STATUS` differs, `ERR` is 1, `CAUSE` is
the code if this is the first fault, and the response is `err = 1`, `data = 0`. -/
def FaultTaken (code : BitVec 4) (s t : State c) : Prop :=
  (∀ ch, SameChannel s t ch) ∧ (∀ k, SameStrip s t k) ∧ t.port = s.port ∧ t.status.err = true ∧
    t.status.cause = (if s.status.err then s.status.cause else code) ∧ t.rsp = some { err := true, data := 0 }

/-- The command takes the fault of the given code. -/
def Faults (i : Instr) (s : State) (code : BitVec 4) : Prop := ∃ t, exec i s = .next t ∧ FaultTaken code s t

/-! ### Words -/

/-- `v[hi:lo]` as an unsigned integer (R7). -/
def bits (w : Word64) (hi lo : Nat) : Nat := w.toNat / 2 ^ lo % 2 ^ (hi + 1 - lo)

/-- Every word with the opcode `op` decodes to the command `mk` makes of its fields if the fields not used are zero, and to the
fault `RESERVED_NONZERO` if one of them is not (R71, R75). -/
def EncodedAs (op : Nat) (sel sub idx imm : Bool) (mk : BitVec 4 → BitVec 4 → BitVec 16 → BitVec 32 → Instr) : Prop :=
  ∀ w : Word64, bits w 63 56 = op →
    let unusedZero := (sel = false → bits w 55 52 = 0) ∧ (sub = false → bits w 51 48 = 0) ∧
      (idx = false → bits w 47 32 = 0) ∧ (imm = false → bits w 31 0 = 0)
    (unusedZero → decode w = .ok (mk (BitVec.ofNat 4 (bits w 55 52)) (BitVec.ofNat 4 (bits w 51 48))
      (BitVec.ofNat 16 (bits w 47 32)) (BitVec.ofNat 32 (bits w 31 0)))) ∧
    (¬unusedZero → decode w = .error .reservedNonzero)

/-! ### The formulas of the rules, at the default parameters -/

/-- The value of a slot, of those that hold one. -/
def slotValue (s : State c) (ch : ChannelId) (i : Nat) : Nat := ((s.hist ch i).map BitVec.toNat).getD 0

/-- `rnd(f, K)` with `FRAC_BITS = 24` (R9). -/
def scaled (f k : Nat) : Nat := (8388608 + f * k) / 16777216

/-- `litCount(f)` with `N = 75` (R120). -/
def litOf (f : Nat) : Nat := min (scaled f 75) 75

/-- `period(f)` (R131). -/
def perOf (f : Nat) : Nat := 1400 - scaled f 1250

/-- `S(theta)`, one quadrant after the other (R135), of the table R137. -/
def sinOf (theta : Nat) : Int :=
  if theta < 256 then sinqTable.getD theta 0
  else if theta < 512 then sinqTable.getD (512 - theta) 0
  else if theta < 768 then -sinqTable.getD (theta - 512) 0
  else -sinqTable.getD (1024 - theta) 0

/-- `BASE_RGB` (R123). -/
def baseColour : Pixel := hsv2rgbDefault openBaseHue openBaseSat 255

/-- The read-out registers of strip `k` hold what R140 computes for the fraction `f` and the time `now`. -/
def PulseOf (t : State) (k : StripId) (f now : Nat) : Prop :=
  (t.stripe k).hue.toNat = scaled f 255 ∧ (t.stripe k).per.toNat = perOf f ∧ (t.stripe k).amp.toNat = scaled f 200 ∧
    (t.stripe k).ang.toNat = now % perOf f * 1024 / perOf f ∧
    ((t.stripe k).phs.toNat : Int) = sinOf (t.stripe k).ang.toNat + 32768 ∧
    (t.stripe k).pb.toNat = (32768 + (t.stripe k).phs.toNat * (t.stripe k).amp.toNat) / 65536 ∧
    (t.stripe k).pcol = hsv2rgbDefault (t.stripe k).hue openPulseSat (t.stripe k).pb

/-- The three channels of a colour as one number (R52). -/
def packed (p : Pixel) : Nat := p.r.toNat * 65536 + p.g.toNat * 256 + p.b.toNat

/-- The channel `CASC_CH[k]` (R4). -/
def cascChannel (k : StripId) : ChannelId := if k = 0 then 0 else 1

/-- The channel `PULSE_CH[k]` (R4). -/
def pulseChannel (k : StripId) : ChannelId := if k = 0 then 2 else 3

/-! ### Which check a word fails (R75, R76, R72, R191) -/

/-- The opcodes of the map (R74). -/
def knownOps : List Nat :=
  [0x00, 0x10, 0x11, 0x12, 0x13, 0x14, 0x15, 0x20, 0x21, 0x22, 0x30, 0x31, 0x40, 0x41, 0x50, 0x51, 0x52, 0x53, 0x60, 0x61, 0x62]

/-- The word `w` fails, in the state `s`, the check whose fault has the code `code` (R191). -/
def FailsCheck (w : Word64) (s : State) (code : Nat) : Prop :=
  let op := bits w 63 56
  let sel := bits w 55 52
  let sub := bits w 51 48
  let idx := bits w 47 32
  let imm := bits w 31 0
  match code with
  | 1 => op ∉ knownOps
  | 2 => op ∈ knownOps ∧ (sel ≠ 0 ∧ op ∈ [0x00, 0x41, 0x50, 0x62] ∨ sub ≠ 0 ∧ op ≠ 0x61 ∨ idx ≠ 0 ∧ op ∉ [0x12, 0x52, 0x53] ∨
      imm ≠ 0 ∧ op ∈ [0x00, 0x12, 0x13, 0x15, 0x20, 0x22, 0x30, 0x31, 0x53, 0x61, 0x62])
  | 3 => op ∈ [0x10, 0x11, 0x12, 0x13, 0x14, 0x15, 0x20, 0x21, 0x22] ∧ 4 ≤ sel ∨
      op ∈ [0x30, 0x31, 0x40, 0x51, 0x52, 0x53, 0x60, 0x61] ∧ 2 ≤ sel ∨ op = 0x61 ∧ 8 ≤ sub
  | 4 => op ∈ [0x52, 0x53] ∧ 75 ≤ idx ∨ op = 0x12 ∧ 8 ≤ idx
  | 5 => op ∈ [0x10, 0x11] ∧ 4095 < imm ∨ op = 0x14 ∧ 32768 ≤ imm ∧ imm < 4294934528 ∨ op = 0x21 ∧ 16777216 < imm ∨
      op = 0x41 ∧ 1023 < imm ∨ op ∈ [0x50, 0x51, 0x52] ∧ 16777216 ≤ imm
  | 6 => op ∈ [0x11, 0x12] ∧ ∃ ch : ChannelId, sel = ch.val ∧ s.inited ch = false
  | _ => False

/-! ### What a command may change (R62, R99 and the rules of the commands) -/

/-- The command may write slot `j` of channel `ch`. -/
def WritesSlot (i : Instr) (s : State) (ch : ChannelId) (j : Nat) : Prop :=
  match i with
  | .sminit sel _ => sel.toNat = ch.val ∧ j < 8
  | .smobs sel _ => sel.toNat = ch.val ∧ j = (s.cur ch).toNat
  | _ => False

/-- The command may write `CUR[ch]`. -/
def WritesCur (i : Instr) (ch : ChannelId) : Prop :=
  match i with
  | .sminit sel _ | .smobs sel _ => sel.toNat = ch.val
  | _ => False

/-- The command may write `INITED[ch]`. -/
def WritesInited (i : Instr) (ch : ChannelId) : Prop :=
  match i with
  | .sminit sel _ => sel.toNat = ch.val
  | _ => False

/-- The command may write `SM[ch]`. -/
def WritesSm (i : Instr) (ch : ChannelId) : Prop :=
  match i with
  | .sminit sel _ | .smobs sel _ | .setsm sel _ => sel.toNat = ch.val
  | _ => False

/-- The command may write `FR[ch]`. -/
def WritesFr (i : Instr) (ch : ChannelId) : Prop :=
  match i with
  | .norm sel | .setfr sel _ => sel.toNat = ch.val
  | _ => False

/-- The command may write pixel `j` of strip `k`. -/
def WritesPixel (i : Instr) (s : State) (k : StripId) (j : Nat) : Prop :=
  match i with
  | .clr sel | .pulse sel _ | .render sel _ | .blend sel _ => sel.toNat = k.val ∧ j < 75
  | .casc sel => sel.toNat = k.val ∧ 75 - litOf (s.fr (cascChannel k)).toNat ≤ j ∧ j < 75
  | .setpix sel idx _ => sel.toNat = k.val ∧ j = idx.toNat
  | _ => False

/-- The command may write `LIT[k]`. -/
def WritesLit (i : Instr) (k : StripId) : Prop :=
  match i with
  | .casc sel | .render sel _ => sel.toNat = k.val
  | _ => False

/-- The command may write the pulse read-outs of strip `k`. -/
def WritesPulse (i : Instr) (k : StripId) : Prop :=
  match i with
  | .pulse sel _ | .render sel _ => sel.toNat = k.val
  | _ => False

/-! ### Runs -/

/-- The samples that the `SMOBS` commands on the channel `sel` store, in order: those that are in range. -/
def storedSamples (c : Config) (sel : BitVec 4) : List Word64 → List Nat
  | [] => []
  | w :: ws =>
    match decode w with
    | .ok (.smobs sel' x) =>
      if sel' = sel ∧ x.toNat ≤ c.adcMax then x.toNat :: storedSamples c sel ws else storedSamples c sel ws
    | _ => storedSamples c sel ws

/-- The sum of the last `n` numbers of a list. -/
def sumOfLast (n : Nat) (xs : List Nat) : Nat := (xs.drop (xs.length - n)).sum

/-- Valid use (R190): every word is that of a well-formed command, and there is no `SMOBS` or `RDHIST` on a channel before its
`SMINIT`. -/
def ValidUse (c : Config) : (ChannelId → Bool) → List Word64 → Prop
  | _, [] => True
  | inited, w :: ws =>
    ∃ i, decode w = .ok i ∧ i.wellFormed c = true ∧
      (match i with
        | .smobs sel _ | .rdhist sel _ => ∀ ch : ChannelId, sel.toNat = ch.val → inited ch = true
        | _ => True) ∧
      ValidUse c
        (match i with
          | .sminit sel _ => fun ch => inited ch || sel.toNat == ch.val
          | _ => inited) ws

/-- Two states that differ, perhaps, in the read-out registers, and in nothing else. -/
def SameButReadouts (s t : State c) : Prop :=
  (∀ ch, SameChannel s t ch) ∧ (∀ k, SamePixels s t k) ∧ t.status = s.status ∧ t.port = s.port ∧ t.rsp = s.rsp

/-- Two states that differ, perhaps, in `STATUS`, and in nothing else. -/
def SameButStatus (s t : State c) : Prop :=
  (∀ ch, SameChannel s t ch) ∧ (∀ k, SameStrip s t k) ∧ t.port = s.port ∧ t.rsp = s.rsp

end Sys2Proof.Statements

open Sys2Proof Sys2Proof.Machine Sys2Proof.Statements

/-! ## Encoding -/

/-- Decoding the word of any command gives the command back, whatever its fields hold (30_encoding.md R71, R74, R75). -/
def Obligations.DecodeOfEncodeIsTheCommand : Prop := ∀ i : Instr, decode (encode i) = .ok i

/-- A word that decodes to a command is the word of that command: no bit of an accepted word is dropped (R71, R75). -/
def Obligations.EncodeOfDecodeIsTheWord : Prop := ∀ (w : Word64) (i : Instr), decode w = .ok i → encode i = w

/-- Words the spec writes out in its examples (R80, R92, R95, R156, R170, R172) decode to the commands they stand for. -/
def Obligations.WrittenWordsDecodeAsTheSpecSays : Prop :=
  decode 0x11000000000003F0 = .ok (.smobs 0 1008) ∧ decode 0x14300000FFFFFFFB = .ok (.setsm 3 (BitVec.ofInt 32 (-5))) ∧
    decode 0x5210000500FAFA10 = .ok (.setpix 1 5 0xFAFA10) ∧ decode 0x5300002500000000 = .ok (.rdpix 0 37) ∧
    decode 0x51100000000A050F = .ok (.blend 1 0x0A050F) ∧ decode 0x6106000000000000 = .ok (.rddiag 0 6) ∧
    decode 0x600000000001E240 = .ok (.render 0 123456)

/-! ## The step -/

/-- When the word the block accepts decodes to a command, the step is the command's effect on the state in which the port has
moved on by that word. -/
def Obligations.StepExecutesTheDecodedCommand : Prop :=
  ∀ (s : State) (w : Word64) (rest : List HostEvent) (i : Instr),
    s.port = .command w :: rest → decode w = .ok i → step s = exec i { s with port := rest }

/-- A word that fails check 1 or 2 takes its fault; a reset pulse gives the values of R38 whatever the state; with nothing issued
the block holds its state. (That reset and the host's words stand in one queue is the model's choice, log entries 1 and 3.) -/
def Obligations.StepOnBadWordsResetAndIdle : Prop :=
  (∀ (s : State) (w : Word64) (rest : List HostEvent) (cause : Cause), s.port = .command w :: rest → decode w = .error cause →
    ∃ t, step s = .next t ∧ FaultTaken cause.code { s with port := rest } t) ∧
  (∀ (s : State) (rest : List HostEvent), s.port = .reset :: rest → step s = .next { State.reset with port := rest }) ∧
  (∀ s : State, s.port = [] → step s = .next s)

/-- The state after reset (10_state.md R38). -/
def Obligations.ResetLeavesTheValuesOfTheTable : Prop :=
  (∀ (ch : ChannelId) (i : Nat), State.reset.hist ch i = none) ∧
  (∀ ch : ChannelId, State.reset.cur ch = 0 ∧ State.reset.inited ch = false ∧ State.reset.sm ch = 0 ∧ State.reset.fr ch = 0) ∧
  (∀ (k : StripId) (i : Nat), State.reset.pix k i = ⟨0, 0, 0⟩) ∧
  (∀ k : StripId, (State.reset.stripe k).lit = 0 ∧ (State.reset.stripe k).hue = 0 ∧ (State.reset.stripe k).per = 0 ∧
    (State.reset.stripe k).amp = 0 ∧ (State.reset.stripe k).ang = 0 ∧ (State.reset.stripe k).phs = 0 ∧
    (State.reset.stripe k).pb = 0 ∧ (State.reset.stripe k).pcol = ⟨0, 0, 0⟩) ∧
  State.reset.status.err = false ∧ State.reset.status.cause = 0

/-! ## Invariants and safety -/

/-- The invariants of R35 hold after reset, in a block of any configuration; and so does the canonical form of both memories, which
is the model's own choice (log entries 4 and 5). -/
def Obligations.ResetMeetsTheInvariants : Prop := State.reset.Inv ∧ ∀ c : Config, (State.resetOf c).Inv

/-- Every step keeps the invariants of R35, and the canonical form of both memories, which is the model's own choice (log entries 4
and 5), from any state that meets them, in a block of any configuration. -/
def Obligations.StepKeepsTheInvariants : Prop :=
  (∀ s t : State, s.Inv → step s = .next t → t.Inv) ∧
  ∀ (c : Config) (s t : State c), s.Inv → stepOf s = .next t → t.Inv

/-- From a state that meets the invariants a step always answers a next state: the block never halts (R196, R222). -/
def Obligations.StepNeverStops : Prop :=
  (∀ s : State, s.Inv → ∃ t, step s = .next t) ∧ ∀ (c : Config) (s : State c), s.Inv → ∃ t, stepOf s = .next t

/-- Every 64-bit word has one defined outcome: if it fails a check, the fault of the lowest failing code is taken; if it fails
none, it executes, answers `err = 0`, and leaves `STATUS` as it was (R78, R191, R194). -/
def Obligations.EveryWordExecutesOrTakesItsFirstFault : Prop :=
  ∀ (s : State) (w : Word64) (rest : List HostEvent), s.Inv → s.port = .command w :: rest →
    (∀ code : Nat, code ∈ [1, 2, 3, 4, 5, 6] → FailsCheck w s code → (∀ lower < code, ¬FailsCheck w s lower) →
      ∃ t, step s = .next t ∧ FaultTaken (BitVec.ofNat 4 code) { s with port := rest } t) ∧
    ((∀ code ∈ [1, 2, 3, 4, 5, 6], ¬FailsCheck w s code) →
      ∃ t d, step s = .next t ∧ t.rsp = some { err := false, data := d } ∧ t.status = s.status ∧ t.port = rest)

/-- Each command changes only what its rule names: the slots and pixels of R62, and only the registers of its own channel or
strip (R99); `STATUS` only by faulting; nothing of what the host has issued (R60). -/
def Obligations.EachCommandChangesOnlyWhatItsRuleNames : Prop :=
  ∀ (i : Instr) (s t : State), exec i s = .next t →
    (∀ ch j, ¬WritesSlot i s ch j → t.hist ch j = s.hist ch j) ∧
    (∀ ch, ¬WritesCur i ch → t.cur ch = s.cur ch) ∧
    (∀ ch, ¬WritesInited i ch → t.inited ch = s.inited ch) ∧
    (∀ ch, ¬WritesSm i ch → t.sm ch = s.sm ch) ∧
    (∀ ch, ¬WritesFr i ch → t.fr ch = s.fr ch) ∧
    (∀ k j, ¬WritesPixel i s k j → t.pix k j = s.pix k j) ∧
    (∀ k, ¬WritesLit i k → (t.stripe k).lit = (s.stripe k).lit) ∧
    (∀ k, ¬WritesPulse i k → SamePulse s t k) ∧
    (t.status = s.status ∨ t.rsp = some { err := true, data := 0 }) ∧
    t.port = s.port

/-- After a fault (R196): no command clears `ERR` or changes `CAUSE`, only reset does; and every later command but the one that
reads `STATUS` executes as if the fault had not happened. -/
def Obligations.FaultIsStickyAndOtherwiseWithoutEffect : Prop :=
  (∀ (c : Config) (i : Instr) (s t : State c), execute i s = .next t → s.status.err = true → t.status = s.status) ∧
  (∀ (c : Config) (s : State c) (rest : List HostEvent), s.port = .reset :: rest →
    ∃ t, stepOf s = .next t ∧ t.status = { err := false, cause := 0 }) ∧
  (∀ (c : Config) (i : Instr) (s t : State c) (st : Status), i ≠ .rdstat → execute i s = .next t →
    ∃ t', execute i { s with status := st } = .next t' ∧ SameButStatus t t')

/-- In valid use the block raises no fault (R190): from a good state, a run of words of well-formed commands that initialises each
channel before using it goes through and ends good. -/
def Obligations.ValidUseRaisesNoFault : Prop :=
  ∀ (c : Config) (s : State c) (ws : List Word64), s.Inv → s.Good → ValidUse c s.inited ws → ∃ t, RunsTo s ws t ∧ t.Good

/-- A run of any command words from a good state ends good exactly when none of the words answered `err = 1` (R224). -/
def Obligations.RunIsGoodExactlyWhenNoWordAnsweredErr : Prop :=
  ∀ (c : Config) (s t : State c) (ws : List Word64), s.Good → RunsTo s ws t →
    (t.Good ↔ ∀ (before after : List Word64) (w : Word64) (u v : State c), ws = before ++ w :: after → RunsTo s before u →
      obey execute w u = .next v → ∃ d, v.rsp = some { err := false, data := d })

/-- A run is what the steps of the machine do with the words of the run, issued before anything else at the port (R21, R57, R224):
of the machine `core`, and of that of any configuration. -/
def Obligations.RunIsTheStepsThatAcceptItsWords : Prop :=
  (∀ (s t : State) (ws : List Word64),
    Sys2Proof.core.run ws.length { s with port := ws.map .command ++ s.port } = .next t ↔ RunsTo s ws t) ∧
  ∀ (c : Config) (s t : State c) (ws : List Word64),
    (coreOf c).run ws.length { s with port := ws.map .command ++ s.port } = .next t ↔ RunsTo s ws t

/-! ## The smoother -/

/-- `SMINIT` (R91). -/
def Obligations.SminitFillsTheHistoryOfItsChannel : Prop :=
  EncodedAs 0x10 true false false true (fun sel _ _ imm => .sminit sel imm) ∧
  ∀ (s : State) (sel : BitVec 4) (imm : BitVec 32),
    (4 ≤ sel.toNat → Faults (.sminit sel imm) s 3) ∧
    (sel.toNat < 4 → 4095 < imm.toNat → Faults (.sminit sel imm) s 5) ∧
    (∀ ch : ChannelId, sel.toNat = ch.val → imm.toNat ≤ 4095 →
      ∃ t, exec (.sminit sel imm) s = .next t ∧
        (∀ i < 8, ∃ v, t.hist ch i = some v ∧ v.toNat = imm.toNat) ∧ (∀ i, 8 ≤ i → t.hist ch i = s.hist ch i) ∧
        t.cur ch = 0 ∧ t.inited ch = true ∧ (t.sm ch).toInt = imm.toNat ∧ t.fr ch = s.fr ch ∧
        Answers t imm.toNat ∧ OnlyChannel ch s t)

/-- `SMOBS` (R92). -/
def Obligations.SmobsStoresAdvancesAndAverages : Prop :=
  EncodedAs 0x11 true false false true (fun sel _ _ imm => .smobs sel imm) ∧
  ∀ (s : State) (sel : BitVec 4) (imm : BitVec 32),
    (4 ≤ sel.toNat → Faults (.smobs sel imm) s 3) ∧
    (sel.toNat < 4 → 4095 < imm.toNat → Faults (.smobs sel imm) s 5) ∧
    (∀ ch : ChannelId, sel.toNat = ch.val → imm.toNat ≤ 4095 →
      (s.inited ch = false → Faults (.smobs sel imm) s 6) ∧
      (s.inited ch = true → (∀ i < 8, i ≠ (s.cur ch).toNat → (s.hist ch i).isSome) →
        ∃ t, exec (.smobs sel imm) s = .next t ∧
          slotValue t ch (s.cur ch).toNat = imm.toNat ∧ (t.hist ch (s.cur ch).toNat).isSome ∧
          (∀ i, i ≠ (s.cur ch).toNat → t.hist ch i = s.hist ch i) ∧
          (t.cur ch).toNat = ((s.cur ch).toNat + 1) % 8 ∧
          (t.sm ch).toInt = ((∑ i ∈ Finset.range 8, slotValue t ch i) / 8 : Nat) ∧
          t.inited ch = true ∧ t.fr ch = s.fr ch ∧ AnswersInt t (t.sm ch).toInt ∧ OnlyChannel ch s t))

/-- `RDHIST` (R93). -/
def Obligations.RdhistReadsOneSlot : Prop :=
  EncodedAs 0x12 true false true false (fun sel _ idx _ => .rdhist sel idx) ∧
  ∀ (s : State) (sel : BitVec 4) (idx : BitVec 16),
    (4 ≤ sel.toNat → Faults (.rdhist sel idx) s 3) ∧
    (sel.toNat < 4 → 8 ≤ idx.toNat → Faults (.rdhist sel idx) s 4) ∧
    (∀ ch : ChannelId, sel.toNat = ch.val → idx.toNat < 8 →
      (s.inited ch = false → Faults (.rdhist sel idx) s 6) ∧
      (∀ v : block.Sample, s.inited ch = true → s.hist ch idx.toNat = some v →
        ∃ t, exec (.rdhist sel idx) s = .next t ∧ Answers t v.toNat ∧ SameAll s t))

/-- The model's own stop (log entry 4): in a state, which no run reaches, where `INITED` is 1 and a slot to be read holds no
value, `SMOBS` and `RDHIST` stop with the fault `historySlotEmpty`. -/
def Obligations.ReadingASlotWithoutAValueStops : Prop :=
  ∀ (s : State) (ch : ChannelId) (sel : BitVec 4), sel.toNat = ch.val → s.inited ch = true →
    (∀ imm : BitVec 32, imm.toNat ≤ 4095 → (∃ i < 8, i ≠ (s.cur ch).toNat ∧ s.hist ch i = none) →
      exec (.smobs sel imm) s = .fault .historySlotEmpty) ∧
    (∀ idx : BitVec 16, idx.toNat < 8 → s.hist ch idx.toNat = none → exec (.rdhist sel idx) s = .fault .historySlotEmpty)

/-- `RDCUR` (R94). -/
def Obligations.RdcurReadsTheCursor : Prop :=
  EncodedAs 0x13 true false false false (fun sel _ _ _ => .rdcur sel) ∧
  ∀ (s : State) (sel : BitVec 4),
    (4 ≤ sel.toNat → Faults (.rdcur sel) s 3) ∧
    (∀ ch : ChannelId, sel.toNat = ch.val →
      ∃ t, exec (.rdcur sel) s = .next t ∧ Answers t (s.cur ch).toNat ∧ SameAll s t)

/-- `SETSM` (R95); a legal immediate is the 32-bit form of a signed 16-bit number. -/
def Obligations.SetsmWritesTheSmoothedValue : Prop :=
  EncodedAs 0x14 true false false true (fun sel _ _ imm => .setsm sel imm) ∧
  ∀ (s : State) (sel : BitVec 4) (imm : BitVec 32),
    (4 ≤ sel.toNat → Faults (.setsm sel imm) s 3) ∧
    (sel.toNat < 4 → (imm.toInt < -32768 ∨ 32767 < imm.toInt) → Faults (.setsm sel imm) s 5) ∧
    (∀ ch : ChannelId, sel.toNat = ch.val → -32768 ≤ imm.toInt → imm.toInt ≤ 32767 →
      ∃ t, exec (.setsm sel imm) s = .next t ∧ (t.sm ch).toInt = imm.toInt ∧
        (∀ i, t.hist ch i = s.hist ch i) ∧ t.cur ch = s.cur ch ∧ t.inited ch = s.inited ch ∧ t.fr ch = s.fr ch ∧
        Answers t 0 ∧ OnlyChannel ch s t)

/-- `RDSM` (R96): the answer is signed. -/
def Obligations.RdsmReadsTheSmoothedValue : Prop :=
  EncodedAs 0x15 true false false false (fun sel _ _ _ => .rdsm sel) ∧
  ∀ (s : State) (sel : BitVec 4),
    (4 ≤ sel.toNat → Faults (.rdsm sel) s 3) ∧
    (∀ ch : ChannelId, sel.toNat = ch.val →
      ∃ t, exec (.rdsm sel) s = .next t ∧ AnswersInt t (s.sm ch).toInt ∧ SameAll s t)

/-- The source's property of the filter (R97), for every window `W`: after `SMINIT` with `x0` and then any words, among them `SMOBS`
on the channel with the samples `x_1, …, x_k`, the last of them last, `SM` and the response are the mean, truncated, of the last
`W` of `W` times `x0` and then `x_1, …, x_k`: of the last `W` samples once `k >= W`, and before that with `W - k` copies of
`x0`. -/
def Obligations.FilterIsTheMeanOfTheLastSamples : Prop :=
  ∀ (c : Config) (s t : State c) (ch : ChannelId) (sel : BitVec 4) (x0 x : BitVec 32) (ws : List Word64),
    sel.toNat = ch.val → x0.toNat ≤ c.adcMax → x.toNat ≤ c.adcMax →
    (∀ w ∈ ws, ∀ y, decode w = .ok (.sminit sel y) → c.adcMax < y.toNat) →
    RunsTo s (encode (.sminit sel x0) :: ws ++ [encode (.smobs sel x)]) t →
    let mean := sumOfLast c.w (List.replicate c.w x0.toNat ++ storedSamples c sel (ws ++ [encode (.smobs sel x)])) / c.w
    (t.sm ch).toInt = mean ∧ Answers t mean

/-- Bounds and monotonicity of the mean (R98): after `SMINIT` or `SMOBS` the value is in `0..ADC_MAX` and between the least and
the greatest slot; and of two observations that leave slots one below the other, the means are one below the other. -/
def Obligations.SmoothedValueLiesBetweenTheSlots : Prop :=
  (∀ (c : Config) (s t : State c) (ch : ChannelId) (sel : BitVec 4) (imm : BitVec 32) (i : Instr), s.Inv → sel.toNat = ch.val →
    i = .sminit sel imm ∨ i = .smobs sel imm → execute i s = .next t → (∃ d, t.rsp = some { err := false, data := d }) →
    0 ≤ (t.sm ch).toInt ∧ (t.sm ch).toInt ≤ c.adcMax ∧
    (∀ lo : Nat, (∀ j < c.w, lo ≤ slotValue t ch j) → (lo : Int) ≤ (t.sm ch).toInt) ∧
    (∀ hi : Nat, (∀ j < c.w, slotValue t ch j ≤ hi) → (t.sm ch).toInt ≤ hi) ∧
    (∀ v : Nat, (∀ j < c.w, slotValue t ch j = v) → (t.sm ch).toInt = v)) ∧
  (∀ (c : Config) (s s' t t' : State c) (ch : ChannelId) (sel : BitVec 4) (imm imm' : BitVec 32), s.Inv → s'.Inv →
    sel.toNat = ch.val → execute (.smobs sel imm) s = .next t → execute (.smobs sel imm') s' = .next t' →
    (∃ d, t.rsp = some { err := false, data := d }) → (∃ d, t'.rsp = some { err := false, data := d }) →
    (∀ j < c.w, slotValue t ch j ≤ slotValue t' ch j) → (t.sm ch).toInt ≤ (t'.sm ch).toInt)

/-- The four filters are independent (R99): what a smoother command on channel `ch` answers and leaves in its channel is the
same in two states in which channel `ch` is the same. -/
def Obligations.FilterReadsOnlyItsOwnChannel : Prop :=
  ∀ (c : Config) (s s' t : State c) (ch : ChannelId) (sel : BitVec 4) (i : Instr), sel.toNat = ch.val →
    ((∃ x, i = .sminit sel x) ∨ (∃ x, i = .smobs sel x) ∨ (∃ j, i = .rdhist sel j) ∨ i = .rdcur sel ∨
      (∃ v, i = .setsm sel v) ∨ i = .rdsm sel) →
    s'.channel ch = s.channel ch → execute i s = .next t →
    ∃ t', execute i s' = .next t' ∧ t'.channel ch = t.channel ch ∧ t'.rsp = t.rsp

/-! ## The normalizer -/

/-- `NORM` (R111), with the scaler of R110. -/
def Obligations.NormClampsAndScales : Prop :=
  EncodedAs 0x20 true false false false (fun sel _ _ _ => .norm sel) ∧
  ∀ (s : State) (sel : BitVec 4),
    (4 ≤ sel.toNat → Faults (.norm sel) s 3) ∧
    (∀ ch : ChannelId, sel.toNat = ch.val →
      ∃ t, exec (.norm sel) s = .next t ∧
        ((s.sm ch).toInt ≤ 0 → (t.fr ch).toNat = 0) ∧
        (4095 ≤ (s.sm ch).toInt → (t.fr ch).toNat = 16777216) ∧
        (0 < (s.sm ch).toInt → (s.sm ch).toInt < 4095 → ((t.fr ch).toNat : Int) = (s.sm ch).toInt * 16777216 / 4095) ∧
        (∀ i, t.hist ch i = s.hist ch i) ∧ t.cur ch = s.cur ch ∧ t.inited ch = s.inited ch ∧ t.sm ch = s.sm ch ∧
        Answers t (t.fr ch).toNat ∧ OnlyChannel ch s t)

/-- `SETFR` (R112). -/
def Obligations.SetfrWritesTheFraction : Prop :=
  EncodedAs 0x21 true false false true (fun sel _ _ imm => .setfr sel imm) ∧
  ∀ (s : State) (sel : BitVec 4) (imm : BitVec 32),
    (4 ≤ sel.toNat → Faults (.setfr sel imm) s 3) ∧
    (sel.toNat < 4 → 16777216 < imm.toNat → Faults (.setfr sel imm) s 5) ∧
    (∀ ch : ChannelId, sel.toNat = ch.val → imm.toNat ≤ 16777216 →
      ∃ t, exec (.setfr sel imm) s = .next t ∧ (t.fr ch).toNat = imm.toNat ∧
        (∀ i, t.hist ch i = s.hist ch i) ∧ t.cur ch = s.cur ch ∧ t.inited ch = s.inited ch ∧ t.sm ch = s.sm ch ∧
        Answers t 0 ∧ OnlyChannel ch s t)

/-- `RDFR` (R113). -/
def Obligations.RdfrReadsTheFraction : Prop :=
  EncodedAs 0x22 true false false false (fun sel _ _ _ => .rdfr sel) ∧
  ∀ (s : State) (sel : BitVec 4),
    (4 ≤ sel.toNat → Faults (.rdfr sel) s 3) ∧
    (∀ ch : ChannelId, sel.toNat = ch.val →
      ∃ t, exec (.rdfr sel) s = .next t ∧ Answers t (s.fr ch).toNat ∧ SameAll s t)

/-- The source's properties of the normalizer (R114), for every admissible configuration: the ends, monotonicity, the range, and
strictness where `ONE >= F`, which the defaults satisfy. -/
def Obligations.NormalizerIsMonotoneAndClamped : Prop :=
  (∀ c : Config,
    normalizeOf c 0 = 0 ∧ normalizeOf c c.fullScale = c.one ∧
    (∀ x y : Int, x ≤ y → normalizeOf c x ≤ normalizeOf c y) ∧
    (∀ x : Int, normalizeOf c x ≤ c.one) ∧
    (c.fullScale ≤ c.one → ∀ x y : Int, 0 ≤ x → x < y → y ≤ c.fullScale → normalizeOf c x < normalizeOf c y)) ∧
  block.fullScale ≤ block.one

/-- Quantisation, the first sentence of R115, for every admissible configuration: `0 < x < F` gives
`x/F - 1/ONE < normalize(x)/ONE <= x/F`. -/
def Obligations.NormalizerIsWithinOneUnitOfTheRatio : Prop :=
  ∀ (c : Config) (x : Int), 0 < x → x < c.fullScale →
    (x : ℚ) / c.fullScale - 1 / c.one < normalizeOf c x / c.one ∧ (normalizeOf c x : ℚ) / c.one ≤ x / c.fullScale

/-! ## The cascade -/

/-- `CLR` (R121). -/
def Obligations.ClrBlackensItsStrip : Prop :=
  EncodedAs 0x30 true false false false (fun sel _ _ _ => .clr sel) ∧
  ∀ (s : State) (sel : BitVec 4),
    (2 ≤ sel.toNat → Faults (.clr sel) s 3) ∧
    (∀ k : StripId, sel.toNat = k.val →
      ∃ t, exec (.clr sel) s = .next t ∧ (∀ i < 75, t.pix k i = ⟨0, 0, 0⟩) ∧ (∀ i, 75 ≤ i → t.pix k i = s.pix k i) ∧
        SameReadouts s t k ∧ Answers t 0 ∧ OnlyStrip k s t)

/-- `CASC` (R122), with the cascade length of R120 and the cascade colour of R123. -/
def Obligations.CascLightsTheLastPixels : Prop :=
  EncodedAs 0x31 true false false false (fun sel _ _ _ => .casc sel) ∧
  ∀ (s : State) (sel : BitVec 4),
    (2 ≤ sel.toNat → Faults (.casc sel) s 3) ∧
    (∀ k : StripId, sel.toNat = k.val →
      ∃ t, exec (.casc sel) s = .next t ∧
        (t.stripe k).lit.toNat = litOf (s.fr (cascChannel k)).toNat ∧
        (∀ i, 75 - (t.stripe k).lit.toNat ≤ i → i < 75 → t.pix k i = baseColour) ∧
        (∀ i, i < 75 - (t.stripe k).lit.toNat ∨ 75 ≤ i → t.pix k i = s.pix k i) ∧
        SamePulse s t k ∧ Answers t (t.stripe k).lit.toNat ∧ OnlyStrip k s t)

/-- The source's cascade properties (R124): nothing lit at fraction 0, all lit at fraction 1, monotone, and after `CLR; CASC` the
lit pixels are the block that ends at index `N - 1`, at the base colour of R123, and the others are black; with the defaults, at
one half, 38 pixels. -/
def Obligations.CascadeIsTheTopmostBlock : Prop :=
  (∀ c : Config, litCount c 0 = 0 ∧ litCount c c.one = c.n ∧ ∀ f g : Nat, f ≤ g → litCount c f ≤ litCount c g) ∧
  litCount block block.half = 38 ∧
  (∀ (c : Config) (s t : State c) (k : StripId) (sel : BitVec 4), sel.toNat = k.val →
    RunsTo s [encode (.clr sel), encode (.casc sel)] t →
    (t.stripe k).lit.toNat = litCount c (s.fr (c.cascCh k)).toNat ∧
    (∀ i, i < c.n - (t.stripe k).lit.toNat → t.pix k i = ⟨0, 0, 0⟩) ∧
    (∀ i, c.n - (t.stripe k).lit.toNat ≤ i → i < c.n → t.pix k i = c.hsv2rgb c.baseHue c.baseSat 255))

/-! ## The pulse -/

/-- `PULSE` (R140), with the values of R130 to R139 and the adder of R151. -/
def Obligations.PulseComputesAndAddsItsColour : Prop :=
  EncodedAs 0x40 true false false true (fun sel _ _ imm => .pulse sel imm) ∧
  ∀ (s : State) (sel : BitVec 4) (now : BitVec 32),
    (2 ≤ sel.toNat → Faults (.pulse sel now) s 3) ∧
    (∀ k : StripId, sel.toNat = k.val → (s.fr (pulseChannel k)).toNat ≤ 16777216 →
      ∃ t, exec (.pulse sel now) s = .next t ∧ PulseOf t k (s.fr (pulseChannel k)).toNat now.toNat ∧
        (∀ i < 75, t.pix k i = satadd (s.pix k i) (t.stripe k).pcol) ∧ (∀ i, 75 ≤ i → t.pix k i = s.pix k i) ∧
        (t.stripe k).lit = (s.stripe k).lit ∧ Answers t (t.stripe k).pb.toNat ∧ OnlyStrip k s t)

/-- `QSIN` (R141). -/
def Obligations.QsinAnswersTheSine : Prop :=
  EncodedAs 0x41 false false false true (fun _ _ _ imm => .qsin imm) ∧
  ∀ (s : State) (imm : BitVec 32),
    (1023 < imm.toNat → Faults (.qsin imm) s 5) ∧
    (imm.toNat ≤ 1023 → ∃ t, exec (.qsin imm) s = .next t ∧ AnswersInt t (sinOf imm.toNat) ∧ SameAll s t)

/-- The sine (R135, R136) and the checks on the transcription of the table (R137): 257 entries, strictly increasing, their sum,
`SINQ[128]`, the sum of the absolute values over a cycle; the values at the quarters, the two symmetries, the range. -/
def Obligations.SineTableAndSymmetries : Prop :=
  sinqTable.length = 257 ∧ sinqTable.Pairwise (· < ·) ∧ sinqTable.sum = 5356720 ∧ sinqTable[128]? = some 23170 ∧
  (∑ theta ∈ Finset.range 1024, (sine block theta).natAbs) = 21361344 ∧
  sine block 0 = 0 ∧ sine block 256 = 32768 ∧ sine block 512 = 0 ∧ sine block 768 = -32768 ∧
  (∀ theta < 1024, sine block theta = sinOf theta ∧ sine block ((theta + 512) % 1024) = -sine block theta) ∧
  (∀ theta ≤ 512, sine block (512 - theta) = sine block theta) ∧
  (∀ theta < 1024, (phaseOf block theta : Int) = sine block theta + 32768 ∧ phaseOf block theta ≤ 65536)

/-- The source's pulse properties (R142), without its comparison with the real-valued sine: no brightness at fraction 0, the fast
period and the largest amplitude at fraction 1; the brightness repeats with the period and is bounded; the pulse is the same on
both strips for the same fraction and time. -/
def Obligations.PulseFollowsFractionAndTime : Prop :=
  (∀ (c : Config) (now : Nat), (pulseValues c 0 now).pb = 0 ∧ (pulseValues c 0 now).pcol = ⟨0, 0, 0⟩) ∧
  (∀ (c : Config) (now : Nat), (pulseValues c c.one now).per = c.periodFast ∧ (pulseValues c c.one now).amp = c.ampMax) ∧
  (∀ (c : Config) (f now : Nat), f ≤ c.one →
    pulseValues c f (now + (pulseValues c f now).per) = pulseValues c f now ∧
    (pulseValues c f now).pb ≤ (pulseValues c f now).amp ∧ (pulseValues c f now).amp ≤ c.ampMax) ∧
  (∀ (c : Config) (s t : State c) (k : StripId) (sel : BitVec 4) (now : BitVec 32), sel.toNat = k.val →
    s.fr (c.pulseCh k) = 0 → execute (.pulse sel now) s = .next t → SamePixels s t k) ∧
  (∀ (c : Config) (s t u : State c) (now : BitVec 32), s.fr (c.pulseCh 0) = s.fr (c.pulseCh 1) →
    execute (.pulse 0 now) s = .next t → execute (.pulse 1 now) s = .next u →
    (t.stripe 0).pcol = (u.stripe 1).pcol ∧ (t.stripe 0).pb = (u.stripe 1).pb ∧ (t.stripe 0).per = (u.stripe 1).per)

/-! ## The compositor -/

/-- `QHSV` (R155), with the default lookup (R152). -/
def Obligations.QhsvAnswersTheLookup : Prop :=
  EncodedAs 0x50 false false false true (fun _ _ _ imm => .qhsv imm) ∧
  ∀ (s : State) (imm : BitVec 32),
    (16777216 ≤ imm.toNat → Faults (.qhsv imm) s 5) ∧
    (imm.toNat < 16777216 → ∃ t, exec (.qhsv imm) s = .next t ∧
      Answers t (packed (hsv2rgbDefault (BitVec.ofNat 8 (imm.toNat / 65536)) (BitVec.ofNat 8 (imm.toNat / 256))
        (BitVec.ofNat 8 imm.toNat))) ∧ SameAll s t)

/-- `BLEND` (R156, R154): each channel of each pixel is the sum, held at 255. -/
def Obligations.BlendAddsOneColourSaturating : Prop :=
  EncodedAs 0x51 true false false true (fun sel _ _ imm => .blend sel imm) ∧
  ∀ (s : State) (sel : BitVec 4) (imm : BitVec 32),
    (2 ≤ sel.toNat → Faults (.blend sel imm) s 3) ∧
    (sel.toNat < 2 → 16777216 ≤ imm.toNat → Faults (.blend sel imm) s 5) ∧
    (∀ k : StripId, sel.toNat = k.val → imm.toNat < 16777216 →
      ∃ t, exec (.blend sel imm) s = .next t ∧
        (∀ i < 75, (t.pix k i).r.toNat = min ((s.pix k i).r.toNat + imm.toNat / 65536) 255 ∧
          (t.pix k i).g.toNat = min ((s.pix k i).g.toNat + imm.toNat / 256 % 256) 255 ∧
          (t.pix k i).b.toNat = min ((s.pix k i).b.toNat + imm.toNat % 256) 255) ∧
        (∀ i, 75 ≤ i → t.pix k i = s.pix k i) ∧ SameReadouts s t k ∧ Answers t 0 ∧ OnlyStrip k s t)

/-- `SETPIX` (R157). -/
def Obligations.SetpixWritesOnePixel : Prop :=
  EncodedAs 0x52 true false true true (fun sel _ idx imm => .setpix sel idx imm) ∧
  ∀ (s : State) (sel : BitVec 4) (idx : BitVec 16) (imm : BitVec 32),
    (2 ≤ sel.toNat → Faults (.setpix sel idx imm) s 3) ∧
    (sel.toNat < 2 → 75 ≤ idx.toNat → Faults (.setpix sel idx imm) s 4) ∧
    (sel.toNat < 2 → idx.toNat < 75 → 16777216 ≤ imm.toNat → Faults (.setpix sel idx imm) s 5) ∧
    (∀ k : StripId, sel.toNat = k.val → idx.toNat < 75 → imm.toNat < 16777216 →
      ∃ t, exec (.setpix sel idx imm) s = .next t ∧
        (t.pix k idx.toNat).r.toNat = imm.toNat / 65536 ∧ (t.pix k idx.toNat).g.toNat = imm.toNat / 256 % 256 ∧
        (t.pix k idx.toNat).b.toNat = imm.toNat % 256 ∧
        (∀ i, i ≠ idx.toNat → t.pix k i = s.pix k i) ∧ SameReadouts s t k ∧ Answers t 0 ∧ OnlyStrip k s t)

/-- `RDPIX` (R158), with the packing of R52. -/
def Obligations.RdpixReadsOnePixel : Prop :=
  EncodedAs 0x53 true false true false (fun sel _ idx _ => .rdpix sel idx) ∧
  ∀ (s : State) (sel : BitVec 4) (idx : BitVec 16),
    (2 ≤ sel.toNat → Faults (.rdpix sel idx) s 3) ∧
    (sel.toNat < 2 → 75 ≤ idx.toNat → Faults (.rdpix sel idx) s 4) ∧
    (∀ k : StripId, sel.toNat = k.val → idx.toNat < 75 →
      ∃ t, exec (.rdpix sel idx) s = .next t ∧ Answers t (packed (s.pix k idx.toNat)) ∧ SameAll s t)

/-- The adder (R151): three lanes, each the sum held at 255; black adds nothing; commutative, associative, monotone; a channel at
255 stays there. -/
def Obligations.SaturatingAddIsThreeIndependentLanes : Prop :=
  (∀ x y : Pixel, (satadd x y).r.toNat = min (x.r.toNat + y.r.toNat) 255 ∧
    (satadd x y).g.toNat = min (x.g.toNat + y.g.toNat) 255 ∧ (satadd x y).b.toNat = min (x.b.toNat + y.b.toNat) 255) ∧
  (∀ x : Pixel, satadd x ⟨0, 0, 0⟩ = x) ∧ (∀ x y : Pixel, satadd x y = satadd y x) ∧
  (∀ x y z : Pixel, satadd (satadd x y) z = satadd x (satadd y z)) ∧
  (∀ x x' y : Pixel, x.r ≤ x'.r → x.g ≤ x'.g → x.b ≤ x'.b →
    (satadd x y).r ≤ (satadd x' y).r ∧ (satadd x y).g ≤ (satadd x' y).g ∧ (satadd x y).b ≤ (satadd x' y).b) ∧
  (∀ x y : Pixel, (x.r = 255 → (satadd x y).r = 255) ∧ (x.g = 255 → (satadd x y).g = 255) ∧ (x.b = 255 → (satadd x y).b = 255))

/-- The default lookup (R152, R153): value 0 is black, saturation 0 is grey, every channel is at most the value and the largest is
the value; and the six values R152 lists. -/
def Obligations.DefaultLookupMeetsItsLaws : Prop :=
  (∀ h s : Byte, hsv2rgbDefault h s 0 = ⟨0, 0, 0⟩) ∧ (∀ h v : Byte, hsv2rgbDefault h 0 v = ⟨v, v, v⟩) ∧
  (∀ h s v : Byte, (hsv2rgbDefault h s v).r ≤ v ∧ (hsv2rgbDefault h s v).g ≤ v ∧ (hsv2rgbDefault h s v).b ≤ v ∧
    ((hsv2rgbDefault h s v).r = v ∨ (hsv2rgbDefault h s v).g = v ∨ (hsv2rgbDefault h s v).b = v)) ∧
  hsv2rgbDefault 0 255 255 = ⟨255, 0, 0⟩ ∧ hsv2rgbDefault 86 255 255 = ⟨0, 255, 0⟩ ∧
  hsv2rgbDefault 172 255 255 = ⟨0, 0, 255⟩ ∧ hsv2rgbDefault 160 255 255 = ⟨0, 69, 255⟩ ∧
  hsv2rgbDefault 255 255 100 = ⟨100, 0, 6⟩ ∧ hsv2rgbDefault 0 0 200 = ⟨200, 200, 200⟩

/-- Only parameters that meet every constraint of R6, R143 and R153 make a block (U1; what R6 asks of the colours and of the channel
maps holds by their types); `SAMPLE_BITS` is the least `k` with `ADC_MAX < 2^k` (R5); and with the defaults of R4, whatever the
three open colours, the block is `core`, with the numbers R5 gives. -/
def Obligations.OnlyLegalParametersMakeABlock : Prop :=
  (∀ p : Parameters, (instantiate p).isSome = true ↔
    p.channels = 4 ∧ p.strips = 2 ∧ (1 ≤ p.n ∧ p.n ≤ 65535) ∧ (1 ≤ p.w ∧ p.w ≤ 65535) ∧ (1 ≤ p.adcMax ∧ p.adcMax ≤ 32767) ∧
    (1 ≤ p.fullScale ∧ p.fullScale ≤ 32767) ∧ (1 ≤ p.periodFast ∧ p.periodFast ≤ p.periodSlow ∧ p.periodSlow ≤ 65535) ∧
    p.ampMax ≤ 255 ∧ p.hueMax = 255 ∧ (1 ≤ p.fracBits ∧ p.fracBits ≤ 31) ∧
    (p.sinq.length = 257 ∧ p.sinq[0]? = some 0 ∧ p.sinq[256]? = some 32768 ∧ (∀ v ∈ p.sinq, v ≤ 32768) ∧
      p.sinq.Pairwise (· ≤ ·)) ∧ ∀ h s : Byte, p.hsv2rgb h s 0 = ⟨0, 0, 0⟩) ∧
  (∀ c : Config, c.adcMax < 2 ^ c.sampleBits ∧ ∀ k, c.adcMax < 2 ^ k → c.sampleBits ≤ k) ∧
  instantiate (defaultParameters openBaseHue openBaseSat openPulseSat) = some Sys2Proof.core ∧
  block.one = 16777216 ∧ block.half = 8388608 ∧ block.sampleBits = 12

/-- A blend never darkens a channel and never wraps (R159). -/
def Obligations.BlendAndPulseNeverDarken : Prop :=
  ∀ (c : Config) (s t : State c) (i : Instr) (sel : BitVec 4) (imm : BitVec 32), i = .blend sel imm ∨ i = .pulse sel imm →
    execute i s = .next t →
    ∃ p : Pixel, ∀ (k : StripId) (j : Nat), sel.toNat = k.val → j < c.n → t.rsp ≠ some { err := true, data := 0 } →
      (t.pix k j).r.toNat = min ((s.pix k j).r.toNat + p.r.toNat) 255 ∧
      (t.pix k j).g.toNat = min ((s.pix k j).g.toNat + p.g.toNat) 255 ∧
      (t.pix k j).b.toNat = min ((s.pix k j).b.toNat + p.b.toNat) 255 ∧
      (s.pix k j).r ≤ (t.pix k j).r ∧ (s.pix k j).g ≤ (t.pix k j).g ∧ (s.pix k j).b ≤ (t.pix k j).b

/-! ## Render and the system commands -/

/-- `RENDER` (R170): the read-out registers, and the buffer in closed form. -/
def Obligations.RenderComputesTheWholeBuffer : Prop :=
  EncodedAs 0x60 true false false true (fun sel _ _ imm => .render sel imm) ∧
  ∀ (s : State) (sel : BitVec 4) (now : BitVec 32),
    (2 ≤ sel.toNat → Faults (.render sel now) s 3) ∧
    (∀ k : StripId, sel.toNat = k.val → (s.fr (pulseChannel k)).toNat ≤ 16777216 →
      ∃ t, exec (.render sel now) s = .next t ∧ (t.stripe k).lit.toNat = litOf (s.fr (cascChannel k)).toNat ∧
        PulseOf t k (s.fr (pulseChannel k)).toNat now.toNat ∧
        (∀ i, i < 75 - (t.stripe k).lit.toNat → t.pix k i = (t.stripe k).pcol) ∧
        (∀ i, 75 - (t.stripe k).lit.toNat ≤ i → i < 75 → t.pix k i = satadd baseColour (t.stripe k).pcol) ∧
        (∀ i, 75 ≤ i → t.pix k i = s.pix k i) ∧ Answers t (t.stripe k).pb.toNat ∧ OnlyStrip k s t)

/-- `RENDER` leaves the same state and the same response as `CLR; CASC; PULSE` (R170), for every selector. -/
def Obligations.RenderIsClearCascadePulse : Prop :=
  ∀ (c : Config) (s t : State c) (sel : BitVec 4) (now : BitVec 32),
    execute (.render sel now) s = .next t ↔ RunsTo s [encode (.clr sel), encode (.casc sel), encode (.pulse sel now)] t

/-- Properties of `RENDER` (R176): (a) and (d) the strip's buffer and read-outs do not depend on what the strips held, nor on any
state but the two fractions and the time; (b) it touches nothing but its strip; (c) with pulse fraction 0 the buffer is that of
`CLR; CASC`, at every time. -/
def Obligations.RenderDependsOnlyOnFractionsAndTime : Prop :=
  (∀ (c : Config) (s s' t t' : State c) (k : StripId) (sel : BitVec 4) (now : BitVec 32), sel.toNat = k.val →
    s'.fr (c.cascCh k) = s.fr (c.cascCh k) → s'.fr (c.pulseCh k) = s.fr (c.pulseCh k) →
    execute (.render sel now) s = .next t → execute (.render sel now) s' = .next t' →
    (∀ i < c.n, t'.pix k i = t.pix k i) ∧ SameReadouts t t' k ∧ t'.rsp = t.rsp) ∧
  (∀ (c : Config) (s t : State c) (k : StripId) (sel : BitVec 4) (now : BitVec 32), sel.toNat = k.val →
    execute (.render sel now) s = .next t → OnlyStrip k s t) ∧
  (∀ (c : Config) (s t u : State c) (k : StripId) (sel : BitVec 4) (now : BitVec 32), sel.toNat = k.val →
    s.fr (c.pulseCh k) = 0 → execute (.render sel now) s = .next t → RunsTo s [encode (.clr sel), encode (.casc sel)] u →
    SamePixels u t k)

/-- The pseudo-command `FRAME` (R177, R82): with all channels initialised and all samples in range, its ten commands go through
without a fault, `FR` is the scaled new mean of each channel, and each strip is rendered from its two fractions at `now`. -/
def Obligations.FrameRendersTheScaledMeans : Prop :=
  ∀ (s : State) (x : ChannelId → BitVec 32) (now : BitVec 32), s.Inv → s.Good → (∀ ch, s.inited ch = true) →
    (∀ ch, (x ch).toNat ≤ 4095) →
    ∃ t, RunsTo s ((frameCommands (x 0) (x 1) (x 2) (x 3) now).map encode) t ∧ t.Good ∧
      (∀ ch, slotValue t ch (s.cur ch).toNat = (x ch).toNat ∧
        (∀ j, j ≠ (s.cur ch).toNat → t.hist ch j = s.hist ch j) ∧ (t.cur ch).toNat = ((s.cur ch).toNat + 1) % 8 ∧
        (t.sm ch).toInt = ((∑ j ∈ Finset.range 8, slotValue t ch j) / 8 : Nat) ∧
        (t.fr ch).toNat = normalizeOf block (t.sm ch).toInt) ∧
      (∀ k : StripId, (t.stripe k).lit.toNat = litOf (t.fr (cascChannel k)).toNat ∧
        PulseOf t k (t.fr (pulseChannel k)).toNat now.toNat ∧
        (∀ i, i < 75 - (t.stripe k).lit.toNat → t.pix k i = (t.stripe k).pcol) ∧
        (∀ i, 75 - (t.stripe k).lit.toNat ≤ i → i < 75 → t.pix k i = satadd baseColour (t.stripe k).pcol))

/-- `NOP` (R171). -/
def Obligations.NopDoesNothing : Prop :=
  EncodedAs 0x00 false false false false (fun _ _ _ _ => .nop) ∧
  ∀ s : State, ∃ t, exec .nop s = .next t ∧ Answers t 0 ∧ SameAll s t

/-- `RDDIAG` (R172). -/
def Obligations.RddiagReadsAReadout : Prop :=
  EncodedAs 0x61 true true false false (fun sel sub _ _ => .rddiag sel sub) ∧
  ∀ (s : State) (sel sub : BitVec 4),
    (2 ≤ sel.toNat ∨ 8 ≤ sub.toNat → Faults (.rddiag sel sub) s 3) ∧
    (∀ k : StripId, sel.toNat = k.val → sub.toNat < 8 →
      ∃ t, exec (.rddiag sel sub) s = .next t ∧ SameAll s t ∧
        (sub = 0 → Answers t (s.stripe k).lit.toNat) ∧ (sub = 1 → Answers t (s.stripe k).hue.toNat) ∧
        (sub = 2 → Answers t (s.stripe k).per.toNat) ∧ (sub = 3 → Answers t (s.stripe k).amp.toNat) ∧
        (sub = 4 → Answers t (s.stripe k).ang.toNat) ∧ (sub = 5 → Answers t (s.stripe k).phs.toNat) ∧
        (sub = 6 → Answers t (s.stripe k).pb.toNat) ∧ (sub = 7 → Answers t (packed (s.stripe k).pcol)))

/-- `RDSTAT` (R173), with the layout of R32: `ERR` at bit 0, `CAUSE` at bits 7:4, `INITED[ch]` at bit `8 + ch`. -/
def Obligations.RdstatReadsTheLatchAndInited : Prop :=
  EncodedAs 0x62 false false false false (fun _ _ _ _ => .rdstat) ∧
  ∀ s : State, ∃ t, exec .rdstat s = .next t ∧ SameAll s t ∧
    Answers t (s.status.err.toNat + 16 * s.status.cause.toNat + 256 * (s.inited 0).toNat + 512 * (s.inited 1).toNat +
      1024 * (s.inited 2).toNat + 2048 * (s.inited 3).toNat)

/-! ## Whole-machine rules -/

/-- Idempotence (R54): repeating one of these commands, reads and writes alike, leaves the same state and the same response. -/
def Obligations.RepeatingAnIdempotentCommandChangesNothing : Prop :=
  ∀ (c : Config) (i : Instr) (s t : State c), s.Inv →
    (∀ sel imm, i ≠ .smobs sel imm ∧ i ≠ .pulse sel imm ∧ i ≠ .blend sel imm) →
    execute i s = .next t → execute i t = .next t

/-- Reads have no side effects (R54). -/
def Obligations.ReadsChangeNothing : Prop :=
  ∀ (c : Config) (i : Instr) (s t : State c) (d : BitVec 32),
    ((∃ sel j, i = .rdhist sel j) ∨ (∃ sel, i = .rdcur sel) ∨ (∃ sel, i = .rdsm sel) ∨ (∃ sel, i = .rdfr sel) ∨
      (∃ sel j, i = .rdpix sel j) ∨ (∃ sel sub, i = .rddiag sel sub) ∨ i = .rdstat ∨ (∃ x, i = .qhsv x) ∨ ∃ x, i = .qsin x) →
    execute i s = .next t → t.rsp = some { err := false, data := d } →
    SameAll s t ∧ execute i t = .next t

/-- No command's effect on any other state depends on a read-out register (R28 to R31): in two states that differ only in these,
every command but `RDDIAG` leaves states that differ only in these, with the same response. -/
def Obligations.NoEffectDependsOnTheReadouts : Prop :=
  ∀ (c : Config) (i : Instr) (s s' t : State c), (∀ sel sub, i ≠ .rddiag sel sub) → SameButReadouts s s' →
    execute i s = .next t → ∃ t', execute i s' = .next t' ∧ SameButReadouts t t'

/-- A read returns what the latest write to the same register or element left there (R57). -/
def Obligations.ReadAfterWriteReturnsTheWrittenValue : Prop :=
  (∀ (c : Config) (s t : State c) (sel : BitVec 4) (idx : BitVec 16) (imm : BitVec 32), sel.toNat < 2 → idx.toNat < c.n →
    imm.toNat < 16777216 → RunsTo s [encode (.setpix sel idx imm), encode (.rdpix sel idx)] t → Answers t imm.toNat) ∧
  (∀ (c : Config) (s t : State c) (sel : BitVec 4) (imm : BitVec 32), sel.toNat < 4 → imm.toNat ≤ c.one →
    RunsTo s [encode (.setfr sel imm), encode (.rdfr sel)] t → Answers t imm.toNat) ∧
  (∀ (c : Config) (s t : State c) (sel : BitVec 4) (imm : BitVec 32), sel.toNat < 4 → -32768 ≤ imm.toInt →
    imm.toInt ≤ 32767 → RunsTo s [encode (.setsm sel imm), encode (.rdsm sel)] t → AnswersInt t imm.toInt) ∧
  (∀ (c : Config) (s t : State c) (sel : BitVec 4) (idx : BitVec 16) (imm : BitVec 32), sel.toNat < 4 →
    imm.toNat ≤ c.adcMax → idx.toNat < c.w →
    RunsTo s [encode (.sminit sel imm), encode (.rdhist sel idx)] t → Answers t imm.toNat)
end

