-- ==== Sys2Proof/Laws/State.lean ====
section
/-! SUPPORT. One lemma per field per update of the state, so that no later proof unfolds a record update. -/

namespace Sys2Proof.Machine

variable {c : Config} (s : State c) (ch ch' : ChannelId) (k k' : StripId) (x : Channel c) (t : Strip) (cause : Cause) (d : BitVec 32)

/-! ### Replacing a channel -/

theorem channel_setChannel : (s.setChannel ch x).channel ch' = if ch' = ch then x else s.channel ch' := by
  simp only [State.channel, State.setChannel, Vector.get_eq_getElem, Vector.getElem_set, eq_comm (a := ch'), Fin.ext_iff]

@[simp] theorem channel_setChannel_self : (s.setChannel ch x).channel ch = x := by rw [channel_setChannel, if_pos rfl]

theorem channel_setChannel_ne (h : ch' ≠ ch) : (s.setChannel ch x).channel ch' = s.channel ch' := by
  rw [channel_setChannel, if_neg h]

@[simp] theorem stripe_setChannel : (s.setChannel ch x).stripe k = s.stripe k := rfl
@[simp] theorem status_setChannel : (s.setChannel ch x).status = s.status := rfl
@[simp] theorem port_setChannel : (s.setChannel ch x).port = s.port := rfl
@[simp] theorem rsp_setChannel : (s.setChannel ch x).rsp = s.rsp := rfl
@[simp] theorem strip_setChannel : (s.setChannel ch x).strip = s.strip := rfl

/-! ### Replacing a strip -/

theorem stripe_setStripe : (s.setStripe k t).stripe k' = if k' = k then t else s.stripe k' := by
  simp only [State.stripe, State.setStripe, Vector.get_eq_getElem, Vector.getElem_set, eq_comm (a := k'), Fin.ext_iff]

@[simp] theorem stripe_setStripe_self : (s.setStripe k t).stripe k = t := by rw [stripe_setStripe, if_pos rfl]

theorem stripe_setStripe_ne (h : k' ≠ k) : (s.setStripe k t).stripe k' = s.stripe k' := by
  rw [stripe_setStripe, if_neg h]

@[simp] theorem channel_setStripe : (s.setStripe k t).channel ch = s.channel ch := rfl
@[simp] theorem status_setStripe : (s.setStripe k t).status = s.status := rfl
@[simp] theorem port_setStripe : (s.setStripe k t).port = s.port := rfl
@[simp] theorem rsp_setStripe : (s.setStripe k t).rsp = s.rsp := rfl
@[simp] theorem chan_setStripe : (s.setStripe k t).chan = s.chan := rfl

/-! ### Taking a fault (R193) -/

@[simp] theorem channel_takeFault : (takeFault cause s).channel ch = s.channel ch := rfl
@[simp] theorem stripe_takeFault : (takeFault cause s).stripe k = s.stripe k := rfl
@[simp] theorem chan_takeFault : (takeFault cause s).chan = s.chan := rfl
@[simp] theorem strip_takeFault : (takeFault cause s).strip = s.strip := rfl
@[simp] theorem status_takeFault : (takeFault cause s).status = latchFault cause s.status := rfl
@[simp] theorem port_takeFault : (takeFault cause s).port = s.port := rfl
@[simp] theorem rsp_takeFault : (takeFault cause s).rsp = some { err := true, data := 0 } := rfl

/-! ### Responding (R73) -/

@[simp] theorem channel_respond : (respond d s).channel ch = s.channel ch := rfl
@[simp] theorem stripe_respond : (respond d s).stripe k = s.stripe k := rfl
@[simp] theorem chan_respond : (respond d s).chan = s.chan := rfl
@[simp] theorem strip_respond : (respond d s).strip = s.strip := rfl
@[simp] theorem status_respond : (respond d s).status = s.status := rfl
@[simp] theorem port_respond : (respond d s).port = s.port := rfl
@[simp] theorem rsp_respond : (respond d s).rsp = some { err := false, data := d } := rfl

/-! ### Reset -/

variable (c) in
@[simp] theorem channel_resetOf : (State.resetOf c).channel ch = Channel.reset c := by fin_cases ch <;> rfl

variable (c) in
@[simp] theorem stripe_resetOf : (State.resetOf c).stripe k = Strip.reset := by fin_cases k <;> rfl

@[simp] theorem channel_reset : State.reset.channel ch = Channel.reset block := channel_resetOf block ch
@[simp] theorem stripe_reset : State.reset.stripe k = Strip.reset := stripe_resetOf block k
@[simp] theorem channel_pulseReset : (pulseReset s).channel ch = Channel.reset c := channel_resetOf c ch
@[simp] theorem stripe_pulseReset : (pulseReset s).stripe k = Strip.reset := stripe_resetOf c k
@[simp] theorem status_pulseReset : (pulseReset s).status = { err := false, cause := 0 } := rfl
@[simp] theorem port_pulseReset : (pulseReset s).port = s.port := rfl
@[simp] theorem rsp_pulseReset : (pulseReset s).rsp = none := rfl

/-! ### Equal parts are equal states -/

/-- Two states with the same channels, strips, latch, port and response are the same state. -/
theorem state_ext {s t : State c} (hc : ∀ ch, s.channel ch = t.channel ch) (hk : ∀ k, s.stripe k = t.stripe k)
    (hs : s.status = t.status) (hp : s.port = t.port) (hr : s.rsp = t.rsp) : s = t := by
  obtain ⟨a, b, st, p, r⟩ := s
  obtain ⟨a', b', st', p', r'⟩ := t
  obtain rfl : a = a' := Vector.ext fun i hi => hc ⟨i, hi⟩
  obtain rfl : b = b' := Vector.ext fun i hi => hk ⟨i, hi⟩
  cases hs; cases hp; cases hr; rfl

end Sys2Proof.Machine
end

