-- ==== Sys2Proof/Laws/Operands.lean ====
section
/-! SUPPORT. One lemma per shared operation of a command: what a check can do, and when each operand form passes it, in a block of
any configuration. -/

namespace Sys2Proof.Machine

variable {α : Type} {c : Config} {s t : State c}

@[simp] theorem check_ok (a : α) (s : State c) (go : α → Result c) : check (.ok a) s go = go a := rfl

@[simp] theorem check_error (cause : Cause) (s : State c) (go : α → Result c) :
    check (.error cause) s go = .next (takeFault cause s) := rfl

/-- Everything a check can do on the way to a next state. -/
theorem check_next {o : Except Cause α} {go : α → Result c} (h : check o s go = .next t) :
    (∃ cause, o = .error cause ∧ t = takeFault cause s) ∨ ∃ a, o = .ok a ∧ go a = .next t := by
  cases o with
  | error cause => cases h; exact .inl ⟨cause, rfl, rfl⟩
  | ok a => exact .inr ⟨a, rfl, h⟩

/-! ### Selectors (check 3) -/

theorem channelOf_ok {sel : BitVec 4} (h : sel.toNat < 4) : channelOf sel = .ok ⟨sel.toNat, h⟩ := dif_pos h
theorem channelOf_error {sel : BitVec 4} (h : ¬sel.toNat < 4) : channelOf sel = .error .badSelector := dif_neg h
theorem stripOf_ok {sel : BitVec 4} (h : sel.toNat < 2) : stripOf sel = .ok ⟨sel.toNat, h⟩ := dif_pos h
theorem stripOf_error {sel : BitVec 4} (h : ¬sel.toNat < 2) : stripOf sel = .error .badSelector := dif_neg h
theorem diagOf_ok {sub : BitVec 4} (h : sub.toNat < 8) : diagOf sub = .ok ⟨sub.toNat, h⟩ := dif_pos h
theorem diagOf_error {sub : BitVec 4} (h : ¬sub.toNat < 8) : diagOf sub = .error .badSelector := dif_neg h

/-! ### Indices (check 4) -/

theorem pixelOf_ok {idx : BitVec 16} (h : idx.toNat < c.n) : pixelOf c idx = .ok idx.toNat := if_pos h
theorem pixelOf_error {idx : BitVec 16} (h : ¬idx.toNat < c.n) : pixelOf c idx = .error .badIndex := if_neg h
theorem slotOf_ok {idx : BitVec 16} (h : idx.toNat < c.w) : slotOf c idx = .ok idx.toNat := if_pos h
theorem slotOf_error {idx : BitVec 16} (h : ¬idx.toNat < c.w) : slotOf c idx = .error .badIndex := if_neg h

/-! ### Immediates (check 5) -/

theorem sampleOf_ok {imm : BitVec 32} (h : imm.toNat ≤ c.adcMax) : sampleOf c imm = .ok (imm.setWidth c.sampleBits) := if_pos h
theorem sampleOf_error {imm : BitVec 32} (h : ¬imm.toNat ≤ c.adcMax) : sampleOf c imm = .error .badOperand := if_neg h

theorem signedOf_ok {imm : BitVec 32} (h : imm = (imm.setWidth 16).signExtend 32) : signedOf imm = .ok (imm.setWidth 16) :=
  if_pos h
theorem signedOf_error {imm : BitVec 32} (h : ¬imm = (imm.setWidth 16).signExtend 32) : signedOf imm = .error .badOperand :=
  if_neg h

theorem fractionOf_ok {imm : BitVec 32} (h : imm.toNat ≤ c.one) : fractionOf c imm = .ok (imm.setWidth (c.fracBits + 1)) :=
  if_pos h
theorem fractionOf_error {imm : BitVec 32} (h : ¬imm.toNat ≤ c.one) : fractionOf c imm = .error .badOperand := if_neg h

theorem angleOf_ok {imm : BitVec 32} (h : imm.toNat ≤ 1023) : angleOf imm = .ok (imm.setWidth 10) := if_pos h
theorem angleOf_error {imm : BitVec 32} (h : ¬imm.toNat ≤ 1023) : angleOf imm = .error .badOperand := if_neg h

theorem tripleOf_ok {imm : BitVec 32} (h : imm.extractLsb' 24 8 = 0) : tripleOf imm = .ok (unpackTriple imm) := if_pos h
theorem tripleOf_error {imm : BitVec 32} (h : ¬imm.extractLsb' 24 8 = 0) : tripleOf imm = .error .badOperand := if_neg h

theorem colourOf_ok {imm : BitVec 32} (h : imm.extractLsb' 24 8 = 0) :
    colourOf imm = .ok ⟨imm.extractLsb' 16 8, imm.extractLsb' 8 8, imm.extractLsb' 0 8⟩ := by
  rw [colourOf, tripleOf_ok h]; rfl
theorem colourOf_error {imm : BitVec 32} (h : ¬imm.extractLsb' 24 8 = 0) : colourOf imm = .error .badOperand := by
  rw [colourOf, tripleOf_error h]

/-- The top byte of a word is zero exactly when the word is below 2^24. -/
theorem triple_legal_iff (imm : BitVec 32) : imm.extractLsb' 24 8 = 0 ↔ imm.toNat < 16777216 := by
  rw [← BitVec.toNat_inj]
  simp only [BitVec.extractLsb'_toNat, Nat.shiftRight_eq_div_pow, BitVec.ofNat_eq_ofNat, BitVec.toNat_ofNat]
  have := imm.isLt
  omega

/-! ### The state (check 6) -/

theorem initedOf_ok {ch : ChannelId} (h : s.inited ch = true) : initedOf s ch = .ok () := if_pos h
theorem initedOf_error {ch : ChannelId} (h : s.inited ch = false) : initedOf s ch = .error .uninit := by
  rw [initedOf, h]; rfl

/-- A command is well-formed exactly when its operands pass the checks 3 to 5 that its meaning makes: the immediate of
`SETSM`. -/
theorem signedImmOk_iff (imm : BitVec 32) : signedImmOk imm = true ↔ imm = (imm.setWidth 16).signExtend 32 := by
  unfold signedImmOk
  rw [beq_iff_eq]
  constructor
  · intro h
    ext i hi
    have hb := congrArg (fun v => v.getLsbD (i - 16)) h
    simp only [BitVec.getLsbD_extractLsb'] at hb
    simp only [← BitVec.getLsbD_eq_getElem, BitVec.getLsbD_signExtend, BitVec.getLsbD_setWidth]
    by_cases h16 : i < 16
    · simp [hi, h16]
    · have e : 16 + (i - 16) = i := by omega
      have hlt : i - 16 < 16 := by omega
      simp only [e, hlt, decide_true, Bool.true_and] at hb
      simp only [hi, h16, decide_true, Bool.true_and, if_false, hb, BitVec.msb_setWidth]
      split
      · next h15 =>
        have : (0xFFFF#16).getLsbD (i - 16) = true := by
          have : 0xFFFF#16 = BitVec.allOnes 16 := rfl
          rw [this, BitVec.getLsbD_allOnes]; simpa using hlt
        simp [this, h15]
      · next h15 => simpa using h15
  · intro h
    ext j hj
    have hb := congrArg (fun v => v.getLsbD (16 + j)) h
    simp only [BitVec.getLsbD_signExtend, BitVec.getLsbD_setWidth, BitVec.msb_setWidth] at hb
    have h1 : ¬16 + j < 16 := by omega
    have h2 : 16 + j < 32 := by omega
    simp only [h1, h2, decide_true, Bool.true_and, if_false] at hb
    simp only [← BitVec.getLsbD_eq_getElem, BitVec.getLsbD_extractLsb', hj, decide_true, Bool.true_and, hb]
    split
    · next h15 =>
      have : (0xFFFF#16).getLsbD j = true := by
        have : 0xFFFF#16 = BitVec.allOnes 16 := rfl
        rw [this, BitVec.getLsbD_allOnes]; simpa using hj
      simp [this, h15]
    · next h15 => simpa using h15

end Sys2Proof.Machine
end

