-- ==== Sys2Proof/Laws/Commands.lean ====
section
/-! SUPPORT. What any command can do, said once: the five ways a command ends; and the commands and steps of
the block with the defaults as those of any block. -/

namespace Sys2Proof.Machine

variable {c : Config}

/-- A predicate of outcomes holds of a check when it holds of the fault and of every way on. -/
theorem check_all {α : Type} {o : Except Cause α} {s : State c} {go : α → Result c} (P : Result c → Prop)
    (hf : ∀ cause, P (.next (takeFault cause s))) (hgo : ∀ a, o = .ok a → P (go a)) : P (check o s go) := by
  cases o with
  | error cause => exact hf cause
  | ok a => exact hgo a rfl

/-- The ways a command can end: a fault is taken; only the response changes; one channel and the response; one strip and the
response; or a slot to be read holds no value. -/
inductive Ends (s : State c) : Result c → Prop where
  | fault (cause : Cause) : Ends s (.next (takeFault cause s))
  | answer (d : BitVec 32) : Ends s (.next (respond d s))
  | channel (ch : ChannelId) (k : Channel c) (d : BitVec 32) : Ends s (.next (respond d (s.setChannel ch k)))
  | strip (k : StripId) (t : Strip) (d : BitVec 32) : Ends s (.next (respond d (s.setStripe k t)))
  | stop : Ends s (.fault .historySlotEmpty)

/-- Every command ends in one of these ways, in a block of any configuration. -/
theorem execute_ends (i : Instr) (s : State c) : Ends s (execute i s) := by
  cases i with
  | nop => exact .answer _
  | sminit => exact check_all _ .fault fun _ _ => check_all _ .fault fun _ _ => .channel _ _ _
  | smobs =>
    refine check_all _ .fault fun _ _ => check_all _ .fault fun _ _ => check_all _ .fault fun _ _ => ?_
    split
    · exact .stop
    · exact .channel _ _ _
  | rdhist =>
    refine check_all _ .fault fun _ _ => check_all _ .fault fun _ _ => check_all _ .fault fun _ _ => ?_
    split
    · exact .stop
    · exact .answer _
  | rdcur => exact check_all _ .fault fun _ _ => .answer _
  | setsm => exact check_all _ .fault fun _ _ => check_all _ .fault fun _ _ => .channel _ _ _
  | rdsm => exact check_all _ .fault fun _ _ => .answer _
  | norm => exact check_all _ .fault fun _ _ => .channel _ _ _
  | setfr => exact check_all _ .fault fun _ _ => check_all _ .fault fun _ _ => .channel _ _ _
  | rdfr => exact check_all _ .fault fun _ _ => .answer _
  | clr => exact check_all _ .fault fun _ _ => .strip _ _ _
  | casc => exact check_all _ .fault fun _ _ => .strip _ _ _
  | pulse => exact check_all _ .fault fun _ _ => .strip _ _ _
  | qsin => exact check_all _ .fault fun _ _ => .answer _
  | qhsv => exact check_all _ .fault fun _ _ => .answer _
  | blend => exact check_all _ .fault fun _ _ => check_all _ .fault fun _ _ => .strip _ _ _
  | setpix => exact check_all _ .fault fun _ _ => check_all _ .fault fun _ _ => check_all _ .fault fun _ _ => .strip _ _ _
  | rdpix => exact check_all _ .fault fun _ _ => check_all _ .fault fun _ _ => .answer _
  | render => exact check_all _ .fault fun _ _ => .strip _ _ _
  | rddiag => exact check_all _ .fault fun _ _ => check_all _ .fault fun _ _ => .answer _
  | rdstat => exact .answer _

/-! ### `exec` and `step` are the block at its defaults -/

theorem exec_eq_execute (i : Instr) (s : State) : exec i s = execute i s := by cases i <;> rfl

theorem step_eq_stepOf (s : State) : step s = stepOf s :=
  congrArg (fun ex => advance ex s) (funext fun i => funext fun s => exec_eq_execute i s)

theorem exec_ends (i : Instr) (s : State) : Ends s (exec i s) := exec_eq_execute i s ▸ execute_ends i s

/-! ### Words -/

theorem obey_error {ex : Instr → State c → Result c} {w : Word64} {cause : Cause} (h : decode w = .error cause) (s : State c) :
    obey ex w s = .next (takeFault cause s) := by simp only [obey, h]

theorem obey_ok {ex : Instr → State c → Result c} {w : Word64} {i : Instr} (h : decode w = .ok i) (s : State c) :
    obey ex w s = ex i s := by simp only [obey, h]

/-- Every command word ends in one of the ways of a command. -/
theorem obey_ends (w : Word64) (s : State c) : Ends s (obey execute w s) := by
  cases h : decode w with
  | error cause => rw [obey_error h]; exact .fault cause
  | ok i => rw [obey_ok h]; exact execute_ends i s

end Sys2Proof.Machine
end

