-- ==== Sys2Proof/Laws/Decode.lean ====
section
/-! SUPPORT. The fields of a word, the opcode map, and what the decoder can answer. -/

namespace Sys2Proof

/-- Packing fields and taking them out again. -/
@[simp] theorem fieldsOf_packFields (f : Fields) : fieldsOf (packFields f) = f := by
  obtain ⟨op, sel, sub, idx, imm⟩ := f
  simp only [fieldsOf, packFields, Fields.mk.injEq]
  refine ⟨?_, ?_, ?_, ?_, ?_⟩ <;>
  · ext i hi
    simp only [← BitVec.getLsbD_eq_getElem, BitVec.getLsbD_extractLsb', BitVec.getLsbD_append, hi, decide_true, Bool.true_and]
    grind

/-- A word is the packing of its fields: no bit is outside them (R71). -/
@[simp] theorem packFields_fieldsOf (w : Word64) : packFields (fieldsOf w) = w := by
  simp only [fieldsOf, packFields]
  ext i hi
  simp only [← BitVec.getLsbD_eq_getElem, BitVec.getLsbD_append, BitVec.getLsbD_extractLsb']
  grind

@[simp] theorem fieldsOf_encode (i : Instr) : fieldsOf (encode i) = encodeFields i := fieldsOf_packFields _

/-- No opcode byte stands in two rows of the map. -/
theorem rows_ops_nodup : (rows.map (·.op)).Nodup := by decide

/-- The rows found by their own opcode byte. -/
theorem find_row {r : Row} (h : r ∈ rows) : rows.find? (fun r' => r'.op == r.op) = some r := by
  have key (l : List Row) (hl : (l.map (·.op)).Nodup) (hr : r ∈ l) : l.find? (fun r' => r'.op == r.op) = some r := by
    induction l with
    | nil => cases hr
    | cons x l ih =>
      obtain ⟨hx, hl⟩ := List.nodup_cons.mp hl
      rcases List.mem_cons.mp hr with rfl | hr
      · simp
      · have : x.op ≠ r.op := fun he => hx (List.mem_map.mpr ⟨r, hr, he.symm⟩)
        rw [List.find?_cons_of_neg (by simpa using this)]
        exact ih hl hr
  exact key rows rows_ops_nodup h

/-- What the decoder answers for a word whose opcode byte stands in the map. -/
theorem decode_of_row {w : Word64} {r : Row} (h : r ∈ rows) (hop : r.op = (fieldsOf w).op) :
    decode w = if r.reservedZero (fieldsOf w) then .ok (r.build (fieldsOf w)) else .error .reservedNonzero := by
  unfold decode
  rw [← hop, find_row h]

/-- What the decoder answers for any other word. -/
theorem decode_of_no_row {w : Word64} (h : ∀ r ∈ rows, r.op ≠ (fieldsOf w).op) : decode w = .error .illegalOpcode := by
  unfold decode
  rw [List.find?_eq_none.mpr (by simpa using h)]

/-- Everything the decoder can answer. -/
theorem decode_cases (w : Word64) :
    ((∀ r ∈ rows, r.op ≠ (fieldsOf w).op) ∧ decode w = .error .illegalOpcode) ∨
    ∃ r ∈ rows, r.op = (fieldsOf w).op ∧
      (r.reservedZero (fieldsOf w) = true ∧ decode w = .ok (r.build (fieldsOf w)) ∨
        r.reservedZero (fieldsOf w) = false ∧ decode w = .error .reservedNonzero) := by
  by_cases h : ∃ r ∈ rows, r.op = (fieldsOf w).op
  · obtain ⟨r, hr, hop⟩ := h
    refine .inr ⟨r, hr, hop, ?_⟩
    rw [decode_of_row hr hop]
    cases r.reservedZero (fieldsOf w) <;> simp
  · have h' : ∀ r ∈ rows, r.op ≠ (fieldsOf w).op := fun r hr he => h ⟨r, hr, he⟩
    exact .inl ⟨h', decode_of_no_row h'⟩

end Sys2Proof
end

