-- ==== Sys2Proof/Laws/Memory.lean ====
section
/-! SUPPORT. The two memories: what a read after each operation gives, and that each operation keeps the canonical form. -/

namespace Sys2Proof.Machine

variable {α : Type}

/-! ### Reads after writes -/

@[simp] theorem readCell_nil (a : Nat) : readCell ([] : Memory α) a = none := rfl

theorem readCell_cons (b : Nat) (v : α) (m : Memory α) (a : Nat) :
    readCell ((b, v) :: m) a = if b = a then some v else readCell m a := rfl

theorem readCell_putCell (m : Memory α) (a : Nat) (v : α) (b : Nat) :
    readCell (putCell m a v) b = if a = b then some v else readCell m b := by
  induction m with
  | nil => rfl
  | cons x m ih =>
    obtain ⟨k, u⟩ := x
    simp only [putCell]
    split
    · rfl
    · split
      · next h => subst h; simp only [readCell_cons]; split <;> rfl
      · simp only [readCell_cons, ih]
        split
        · next h => subst h; rw [if_neg (by assumption)]
        · rfl

theorem readCell_dropCell (m : Memory α) (a b : Nat) :
    readCell (dropCell m a) b = if a = b then none else readCell m b := by
  induction m with
  | nil => simp [dropCell]
  | cons x m ih =>
    obtain ⟨k, u⟩ := x
    unfold dropCell at ih ⊢
    by_cases hk : k = a
    · subst hk
      simp only [List.filter_cons, bne_self_eq_false, Bool.false_eq_true, if_false, ih, readCell_cons]
      split <;> rfl
    · simp only [List.filter_cons, bne_iff_ne, ne_eq, hk, not_false_eq_true, if_true, readCell_cons, ih]
      split
      · next h => subst h; rw [if_neg (fun h' => hk h'.symm)]
      · rfl

theorem readPix_writePix (m : Memory Pixel) (a : Nat) (p : Pixel) (b : Nat) :
    readPix (writePix m a p) b = if a = b then p else readPix m b := by
  unfold readPix writePix
  split
  · next h => rw [readCell_dropCell]; split <;> simp [h]
  · rw [readCell_putCell]; split <;> simp

/-- What an operation over many pixels leaves in every pixel. -/
theorem readPix_mapPix (is : List Nat) (h : is.Nodup) (g : Pixel → Pixel) (m : Memory Pixel) (a : Nat) :
    readPix (mapPix is g m) a = if a ∈ is then g (readPix m a) else readPix m a := by
  induction is generalizing m with
  | nil => rfl
  | cons i is ih =>
    obtain ⟨hi, h⟩ := List.nodup_cons.mp h
    change readPix (mapPix is g (writePix m i (g (readPix m i)))) a = _
    rw [ih h, readPix_writePix]
    by_cases ha : i = a
    · subst ha; simp [hi]
    · simp [ha, Ne.symm ha]

theorem readPix_mapPix_range (n : Nat) (g : Pixel → Pixel) (m : Memory Pixel) (a : Nat) :
    readPix (mapPix (List.range n) g m) a = if a < n then g (readPix m a) else readPix m a := by
  rw [readPix_mapPix _ List.nodup_range]; simp

theorem readPix_mapPix_range' (lo k : Nat) (g : Pixel → Pixel) (m : Memory Pixel) (a : Nat) :
    readPix (mapPix (List.range' lo k) g m) a = if lo ≤ a ∧ a < lo + k then g (readPix m a) else readPix m a := by
  rw [readPix_mapPix _ (List.nodup_range' ..)]; simp [List.mem_range'_1]

theorem readCell_fillHist {n : Nat} (w : Nat) (x : BitVec n) (m : Memory (BitVec n)) (i : Nat) :
    readCell (fillHist w x m) i = if i < w then some x else readCell m i := by
  have key (is : List Nat) (m : Memory (BitVec n)) :
      readCell (is.foldl (fun m i => putCell m i x) m) i = if i ∈ is then some x else readCell m i := by
    induction is generalizing m with
    | nil => rfl
    | cons j is ih =>
      rw [List.foldl_cons, ih, readCell_putCell]
      by_cases h : i ∈ is <;> by_cases hj : j = i <;> simp [h, hj, eq_comm (a := i)]
  rw [fillHist, key]
  simp only [List.mem_range]

/-! ### The canonical form -/

section
variable [DecidableEq α] {size : Nat} {unlisted : Option α}

theorem wf_nil : Memory.wf size unlisted ([] : Memory α) := ⟨.nil, by simp⟩

omit [DecidableEq α] in
theorem mem_putCell {m : Memory α} {a : Nat} {v : α} {x : Nat × α} (h : x ∈ putCell m a v) : x = (a, v) ∨ x ∈ m := by
  induction m with
  | nil => simpa [putCell] using h
  | cons y m ih =>
    obtain ⟨k, u⟩ := y
    simp only [putCell] at h
    split at h
    · simpa using h
    · split at h
      · rcases List.mem_cons.mp h with h | h
        · exact .inl h
        · exact .inr (List.mem_cons_of_mem _ h)
      · rcases List.mem_cons.mp h with h | h
        · exact .inr (h ▸ List.mem_cons_self)
        · rcases ih h with h | h
          · exact .inl h
          · exact .inr (List.mem_cons_of_mem _ h)

theorem wf_putCell {m : Memory α} {a : Nat} {v : α} (h : Memory.wf size unlisted m) (ha : a < size)
    (hv : some v ≠ unlisted) : Memory.wf size unlisted (putCell m a v) := by
  refine ⟨?_, fun x hx => ?_⟩
  · have h1 := h.1
    clear h hv
    induction m with
    | nil => simp [putCell]
    | cons y m ih =>
      obtain ⟨k, u⟩ := y
      obtain ⟨hk, hm⟩ := List.pairwise_cons.mp h1
      simp only [putCell]
      split
      · next hlt =>
        refine List.pairwise_cons.mpr ⟨fun x hx => ?_, h1⟩
        rcases List.mem_cons.mp hx with rfl | hx
        · exact hlt
        · exact Nat.lt_trans hlt (hk x hx)
      · split
        · next heq => subst heq; exact List.pairwise_cons.mpr ⟨hk, hm⟩
        · refine List.pairwise_cons.mpr ⟨fun x hx => ?_, ih hm⟩
          rcases mem_putCell hx with rfl | hx
          · simp only; omega
          · exact hk x hx
  · rcases mem_putCell hx with rfl | hx
    · exact ⟨ha, hv⟩
    · exact h.2 x hx

theorem wf_dropCell {m : Memory α} (a : Nat) (h : Memory.wf size unlisted m) : Memory.wf size unlisted (dropCell m a) :=
  ⟨h.1.sublist List.filter_sublist, fun x hx => h.2 x (List.mem_filter.mp hx).1⟩

/-- A memory's canonical form makes equal contents equal data. -/
theorem wf_ext {m m' : Memory α} (h : Memory.wf size unlisted m) (h' : Memory.wf size unlisted m')
    (heq : ∀ a, readCell m a = readCell m' a) : m = m' := by
  have none_below (m : Memory α) (a : Nat) (hm : ∀ x ∈ m, a < x.1) : readCell m a = none := by
    induction m with
    | nil => rfl
    | cons y m ih =>
      have := hm y List.mem_cons_self
      rw [readCell_cons, if_neg (by omega)]
      exact ih fun x hx => hm x (List.mem_cons_of_mem _ hx)
  have h1 := h.1
  have h1' := h'.1
  clear h h'
  induction m generalizing m' with
  | nil =>
    cases m' with
    | nil => rfl
    | cons y m' => have := heq y.1; rw [readCell_cons, if_pos rfl] at this; cases this
  | cons x m ih =>
    cases m' with
    | nil => have := heq x.1; rw [readCell_cons, if_pos rfl] at this; cases this
    | cons y m' =>
      obtain ⟨k, u⟩ := x
      obtain ⟨l, v⟩ := y
      obtain ⟨hk, hm⟩ := List.pairwise_cons.mp h1
      obtain ⟨hl, hm'⟩ := List.pairwise_cons.mp h1'
      have hkl : k = l := by
        rcases Nat.lt_trichotomy k l with hlt | heq' | hgt
        · have := heq k
          rw [readCell_cons, if_pos rfl, none_below] at this
          · exact absurd this (by simp)
          · intro z hz
            rcases List.mem_cons.mp hz with rfl | hz
            · exact hlt
            · exact Nat.lt_trans hlt (hl z hz)
        · exact heq'
        · have := heq l
          rw [none_below, readCell_cons, if_pos rfl] at this
          · exact absurd this.symm (by simp)
          · intro z hz
            rcases List.mem_cons.mp hz with rfl | hz
            · exact hgt
            · exact Nat.lt_trans hgt (hk z hz)
      subst hkl
      have huv : u = v := by have := heq k; simpa [readCell_cons] using this
      subst huv
      rw [ih (fun a => ?_) hm hm']
      by_cases ha : k = a
      · subst ha; rw [none_below _ _ hk, none_below _ _ hl]
      · simpa [readCell_cons, ha] using heq a

end

theorem wf_writePix {n : Nat} {m : Memory Pixel} {i : Nat} (p : Pixel) (h : Memory.wf n (some Pixel.black) m) (hi : i < n) :
    Memory.wf n (some Pixel.black) (writePix m i p) := by
  unfold writePix
  split
  · exact wf_dropCell i h
  · next hp => exact wf_putCell h hi (by simpa using hp)

theorem wf_mapPix {n : Nat} {is : List Nat} {m : Memory Pixel} (g : Pixel → Pixel) (h : Memory.wf n (some Pixel.black) m)
    (his : ∀ i ∈ is, i < n) : Memory.wf n (some Pixel.black) (mapPix is g m) := by
  induction is generalizing m with
  | nil => exact h
  | cons i is ih =>
    exact ih (wf_writePix _ h (his i List.mem_cons_self)) fun j hj => his j (List.mem_cons_of_mem _ hj)

theorem wf_fillHist {n w : Nat} {m : Memory (BitVec n)} (x : BitVec n) (h : Memory.wf w none m) :
    Memory.wf w none (fillHist w x m) := by
  have key (is : List Nat) (m : Memory (BitVec n)) (h : Memory.wf w none m) (his : ∀ i ∈ is, i < w) :
      Memory.wf w none (is.foldl (fun m i => putCell m i x) m) := by
    induction is generalizing m with
    | nil => exact h
    | cons i is ih =>
      exact ih _ (wf_putCell h (his i List.mem_cons_self) (by simp)) fun j hj => his j (List.mem_cons_of_mem _ hj)
  exact key _ m h (by simp)

/-- In a canonical buffer, equal pixels are equal data. -/
theorem pix_ext {n : Nat} {m m' : Memory Pixel} (h : Memory.wf n (some Pixel.black) m)
    (h' : Memory.wf n (some Pixel.black) m') (heq : ∀ i, readPix m i = readPix m' i) : m = m' := by
  have listed (m : Memory Pixel) (h : Memory.wf n (some Pixel.black) m) (i : Nat) :
      readCell m i = if readPix m i = Pixel.black then none else some (readPix m i) := by
    have ne (p : Pixel) (hp : readCell m i = some p) : p ≠ Pixel.black := by
      have : (i, p) ∈ m := by
        clear h
        induction m with
        | nil => simp at hp
        | cons y m ih =>
          obtain ⟨k, u⟩ := y
          rw [readCell_cons] at hp
          split at hp
          · next hk => subst hk; cases hp; exact List.mem_cons_self
          · exact List.mem_cons_of_mem _ (ih hp)
      simpa using (h.2 _ this).2
    unfold readPix
    cases hp : readCell m i with
    | none => simp
    | some p => simp [ne p hp]
  exact wf_ext h h' fun i => by rw [listed m h, listed m' h', heq]

/-! ### The sum of the slots -/

theorem slotSum_of_full {n : Nat} (m : Memory (BitVec n)) (k : Nat) (v : Nat → BitVec n) (h : ∀ i < k, readCell m i = some (v i)) :
    slotSum m k = some (∑ i ∈ Finset.range k, (v i).toNat) := by
  induction k with
  | zero => rfl
  | succ k ih =>
    simp only [slotSum, ih fun i hi => h i (by omega), h k (by omega), Finset.sum_range_succ]

theorem slotSum_eq_some_iff {n : Nat} (m : Memory (BitVec n)) (k : Nat) :
    (slotSum m k).isSome ↔ ∀ i < k, (readCell m i).isSome := by
  induction k with
  | zero => simp [slotSum]
  | succ k ih =>
    simp only [slotSum, Nat.lt_succ_iff_lt_or_eq]
    rcases h1 : slotSum m k with _ | t
    · simp only [h1, Option.isSome_none, Bool.false_eq_true, false_iff] at ih ⊢
      exact fun h => ih fun i hi => h i (.inl hi)
    · rcases h2 : readCell m k with _ | v
      · simp only [Option.isSome_none, Bool.false_eq_true, false_iff]
        intro h; simpa [h2] using h k (.inr rfl)
      · simp only [h1, Option.isSome_some, true_iff] at ih ⊢
        rintro i (hi | rfl)
        · exact ih i hi
        · simp [h2]

end Sys2Proof.Machine
end

