-- ==== Sys2Proof/Laws/PerInstr.lean ====
section
/-! SUPPORT. A family of lemmas, one per constructor: the word of every command passes checks 1 and 2 of 30_encoding.md R78. -/

namespace Sys2Proof.Laws.EncodePassesTableChecks

/-- The opcode byte of the command's word stands in the map (R74), and every field that R75 marks `0` is zero. -/
def Statement (i : Instr) : Prop :=
  ∃ r ∈ rows, r.op = (fieldsOf (encode i)).op ∧ r.reservedZero (fieldsOf (encode i)) = true

/-- A row of the map that has the command's opcode byte and marks as used every field the command uses. -/
theorem of_row {i : Instr} (r : Row) (h : r ∈ rows) (hop : r.op = (encodeFields i).op)
    (hz : r.reservedZero (encodeFields i) = true) : Statement i :=
  ⟨r, h, by rw [fieldsOf_encode, hop], by rw [fieldsOf_encode, hz]⟩

/-- The row at place `k` of the map will do. -/
theorem at_row {i : Instr} (k : Nat) (hk : k < rows.length) (hop : rows[k].op = (encodeFields i).op)
    (hz : rows[k].reservedZero (encodeFields i) = true) : Statement i :=
  of_row rows[k] (List.getElem_mem hk) hop hz

theorem nop : Statement (.nop) :=
  at_row 0 (by decide) rfl (by simp [Row.reservedZero, encodeFields, rows, rowsLow, rowsHigh])

theorem sminit (sel : BitVec 4) (imm : BitVec 32) : Statement (.sminit sel imm) :=
  at_row 1 (by decide) rfl (by simp [Row.reservedZero, encodeFields, rows, rowsLow, rowsHigh])

theorem smobs (sel : BitVec 4) (imm : BitVec 32) : Statement (.smobs sel imm) :=
  at_row 2 (by decide) rfl (by simp [Row.reservedZero, encodeFields, rows, rowsLow, rowsHigh])

theorem rdhist (sel : BitVec 4) (idx : BitVec 16) : Statement (.rdhist sel idx) :=
  at_row 3 (by decide) rfl (by simp [Row.reservedZero, encodeFields, rows, rowsLow, rowsHigh])

theorem rdcur (sel : BitVec 4) : Statement (.rdcur sel) :=
  at_row 4 (by decide) rfl (by simp [Row.reservedZero, encodeFields, rows, rowsLow, rowsHigh])

theorem setsm (sel : BitVec 4) (imm : BitVec 32) : Statement (.setsm sel imm) :=
  at_row 5 (by decide) rfl (by simp [Row.reservedZero, encodeFields, rows, rowsLow, rowsHigh])

theorem rdsm (sel : BitVec 4) : Statement (.rdsm sel) :=
  at_row 6 (by decide) rfl (by simp [Row.reservedZero, encodeFields, rows, rowsLow, rowsHigh])

theorem norm (sel : BitVec 4) : Statement (.norm sel) :=
  at_row 7 (by decide) rfl (by simp [Row.reservedZero, encodeFields, rows, rowsLow, rowsHigh])

theorem setfr (sel : BitVec 4) (imm : BitVec 32) : Statement (.setfr sel imm) :=
  at_row 8 (by decide) rfl (by simp [Row.reservedZero, encodeFields, rows, rowsLow, rowsHigh])

theorem rdfr (sel : BitVec 4) : Statement (.rdfr sel) :=
  at_row 9 (by decide) rfl (by simp [Row.reservedZero, encodeFields, rows, rowsLow, rowsHigh])

theorem clr (sel : BitVec 4) : Statement (.clr sel) :=
  at_row 10 (by decide) rfl (by simp [Row.reservedZero, encodeFields, rows, rowsLow, rowsHigh])

theorem casc (sel : BitVec 4) : Statement (.casc sel) :=
  at_row 11 (by decide) rfl (by simp [Row.reservedZero, encodeFields, rows, rowsLow, rowsHigh])

theorem pulse (sel : BitVec 4) (imm : BitVec 32) : Statement (.pulse sel imm) :=
  at_row 12 (by decide) rfl (by simp [Row.reservedZero, encodeFields, rows, rowsLow, rowsHigh])

theorem qsin (imm : BitVec 32) : Statement (.qsin imm) :=
  at_row 13 (by decide) rfl (by simp [Row.reservedZero, encodeFields, rows, rowsLow, rowsHigh])

theorem qhsv (imm : BitVec 32) : Statement (.qhsv imm) :=
  at_row 14 (by decide) rfl (by simp [Row.reservedZero, encodeFields, rows, rowsLow, rowsHigh])

theorem blend (sel : BitVec 4) (imm : BitVec 32) : Statement (.blend sel imm) :=
  at_row 15 (by decide) rfl (by simp [Row.reservedZero, encodeFields, rows, rowsLow, rowsHigh])

theorem setpix (sel : BitVec 4) (idx : BitVec 16) (imm : BitVec 32) : Statement (.setpix sel idx imm) :=
  at_row 16 (by decide) rfl (by simp [Row.reservedZero, encodeFields, rows, rowsLow, rowsHigh])

theorem rdpix (sel : BitVec 4) (idx : BitVec 16) : Statement (.rdpix sel idx) :=
  at_row 17 (by decide) rfl (by simp [Row.reservedZero, encodeFields, rows, rowsLow, rowsHigh])

theorem render (sel : BitVec 4) (imm : BitVec 32) : Statement (.render sel imm) :=
  at_row 18 (by decide) rfl (by simp [Row.reservedZero, encodeFields, rows, rowsLow, rowsHigh])

theorem rddiag (sel : BitVec 4) (sub : BitVec 4) : Statement (.rddiag sel sub) :=
  at_row 19 (by decide) rfl (by simp [Row.reservedZero, encodeFields, rows, rowsLow, rowsHigh])

theorem rdstat : Statement (.rdstat) :=
  at_row 20 (by decide) rfl (by simp [Row.reservedZero, encodeFields, rows, rowsLow, rowsHigh])

end Sys2Proof.Laws.EncodePassesTableChecks
end

