-- ==== Sys2Proof/Laws/Units.lean ====
section
/-! SUPPORT. The parameters of the block by value, the ranges of what the units compute, and what each operation on a channel
or a strip leaves in every register, slot and pixel. -/

namespace Sys2Proof.Machine

/-! ### The parameters of the block (R4) -/

@[simp] theorem block_n : block.n = 75 := rfl
@[simp] theorem block_w : block.w = 8 := rfl
@[simp] theorem block_adcMax : block.adcMax = 4095 := rfl
@[simp] theorem block_fullScale : block.fullScale = 4095 := rfl
@[simp] theorem block_periodSlow : block.periodSlow = 1400 := rfl
@[simp] theorem block_periodFast : block.periodFast = 150 := rfl
@[simp] theorem block_ampMax : block.ampMax = 200 := rfl
@[simp] theorem block_hueMax : block.hueMax = 255 := rfl
@[simp] theorem block_fracBits : block.fracBits = 24 := rfl
@[simp] theorem block_sinq : block.sinq = sinqTable := rfl
@[simp] theorem block_hsv2rgb : block.hsv2rgb = hsv2rgbDefault := rfl
theorem block_cascCh (k : StripId) : block.cascCh k = if k = 0 then 0 else 1 := rfl
theorem block_pulseCh (k : StripId) : block.pulseCh k = if k = 0 then 2 else 3 := rfl
theorem block_one : block.one = 16777216 := rfl
theorem block_half : block.half = 8388608 := rfl
theorem block_sampleBits : block.sampleBits = 12 := by decide
theorem block_cursorBits : bitsFor (block.w - 1) = 3 := by decide

/-! ### The widths of the registers (R5, R20, R35): every value a rule writes fits -/

theorem lt_two_pow_bitsFor (m : Nat) : m < 2 ^ bitsFor m := by
  unfold bitsFor
  split
  · next h => simp [h]
  · exact Nat.lt_log2_self

/-- A legal sample is kept whole by a slot. -/
theorem sample_toNat {c : Config} {imm : BitVec 32} (h : imm.toNat ≤ c.adcMax) :
    (imm.setWidth c.sampleBits : c.Sample).toNat = imm.toNat := by
  have : imm.toNat < 2 ^ c.sampleBits := Nat.lt_of_le_of_lt h (lt_two_pow_bitsFor _)
  rw [BitVec.toNat_setWidth, Nat.mod_eq_of_lt this]

/-- A legal sample is non-negative in the 16-bit `SM`. -/
theorem sample_toInt {c : Config} {x : c.Sample} (h : x.toNat ≤ c.adcMax) : (x.setWidth 16).toInt = x.toNat := by
  have := c.legal.adcMax_range
  have e : (x.setWidth 16).toNat = x.toNat := by rw [BitVec.toNat_setWidth]; omega
  rw [BitVec.toInt_eq_toNat_of_lt (by omega), e]

/-- A cursor position is kept whole by `CUR`. -/
theorem cursor_toNat {c : Config} {i : Nat} (h : i < c.w) : (BitVec.ofNat _ i : c.Cursor).toNat = i := by
  rw [BitVec.toNat_ofNat, Nat.mod_eq_of_lt (Nat.lt_of_le_of_lt (by omega : i ≤ c.w - 1) (lt_two_pow_bitsFor _))]

/-- A fraction of at most 1.0 is kept whole by `FR`. -/
theorem fraction_toNat {c : Config} {f : Nat} (h : f ≤ c.one) : (BitVec.ofNat _ f : c.Fraction).toNat = f := by
  rw [BitVec.toNat_ofNat, Nat.mod_eq_of_lt (Nat.lt_of_le_of_lt h (Nat.pow_lt_pow_right (by decide) (by omega)))]

/-! ### Ranges -/

theorem clamp_zero (v hi : Nat) : clamp v 0 hi = min v hi := by simp [clamp]

theorem litCount_le (c : Config) (f : Nat) : litCount c f ≤ c.n := by
  rw [litCount, clamp_zero]; exact Nat.min_le_right ..

theorem one_pos (c : Config) : 0 < c.one := Nat.two_pow_pos _

/-- A fraction of at most 1.0 scales a constant to at most the constant. -/
theorem rnd_le (c : Config) {f : Nat} (k : Nat) (hf : f ≤ c.one) : rnd c f k ≤ k := by
  have h1 := one_pos c
  have h2 : c.half < c.one := Nat.div_lt_self h1 (by decide)
  have h3 : f * k ≤ c.one * k := Nat.mul_le_mul_right k hf
  rw [rnd, ← Nat.lt_succ_iff, Nat.div_lt_iff_lt_mul h1, Nat.succ_mul, Nat.mul_comm k]
  omega

theorem rnd_mono (c : Config) {f g : Nat} (k : Nat) (h : f ≤ g) : rnd c f k ≤ rnd c g k :=
  Nat.div_le_div_right (Nat.add_le_add_left (Nat.mul_le_mul_right k h) _)

/-- The sine of every angle index is within the scale of the table. -/
theorem sine_range (c : Config) (h : ∀ v ∈ c.sinq, v ≤ 32768) (theta : Nat) : -32768 ≤ sine c theta ∧ sine c theta ≤ 32768 := by
  have key (k : Nat) : (c.sinq.getD k 0 : Int) ≤ 32768 := by
    rw [List.getD_eq_getElem?_getD]
    rcases hk : c.sinq[k]? with _ | v
    · simp
    · have := h v (List.mem_of_getElem? hk)
      simpa using mod_cast this
  have h1 := key (theta % 256)
  have h2 := key (256 - theta % 256)
  unfold sine
  dsimp only
  split <;> omega

theorem phaseOf_le (c : Config) (h : ∀ v ∈ c.sinq, v ≤ 32768) (theta : Nat) : phaseOf c theta ≤ 65536 := by
  have := sine_range c h theta
  unfold phaseOf
  omega

theorem brightnessOf_le {ph a : Nat} (h : ph ≤ 65536) : brightnessOf ph a ≤ a := by
  have : ph * a ≤ 65536 * a := Nat.mul_le_mul_right a h
  unfold brightnessOf
  omega

theorem angleIndex_lt {now p : Nat} (h : 0 < p) : angleIndex now p < 1024 := by
  have : now % p < p := Nat.mod_lt _ h
  rw [angleIndex, Nat.div_lt_iff_lt_mul h]
  omega

theorem normalizeOf_le (c : Config) (x : Int) : normalizeOf c x ≤ c.one := by
  unfold normalizeOf
  split
  · exact Nat.zero_le _
  · split
    · exact le_rfl
    · have : x.toNat ≤ c.fullScale := by omega
      exact Nat.div_le_of_le_mul (Nat.mul_le_mul_right _ this)

/-! ### Lanes of the adder -/

@[simp] theorem satLane_toNat (a b : Byte) : (satLane a b).toNat = min (a.toNat + b.toNat) 255 := by
  rw [satLane, BitVec.toNat_ofNat]; omega

theorem satadd_black (p : Pixel) : satadd p Pixel.black = p := by
  obtain ⟨r, g, b⟩ := p
  simp only [satadd, Pixel.black, Pixel.mk.injEq, ← BitVec.toNat_inj, satLane_toNat, BitVec.ofNat_eq_ofNat, BitVec.toNat_ofNat]
  omega

/-! ### Pulse values, for any configuration -/

@[simp] theorem pulseValues_hue (c : Config) (f now : Nat) : (pulseValues c f now).hue = hueOf c f := rfl
@[simp] theorem pulseValues_per (c : Config) (f now : Nat) : (pulseValues c f now).per = periodOf c f := rfl
@[simp] theorem pulseValues_amp (c : Config) (f now : Nat) : (pulseValues c f now).amp = amplitudeOf c f := rfl
@[simp] theorem pulseValues_ang (c : Config) (f now : Nat) : (pulseValues c f now).ang = angleIndex now (periodOf c f) := rfl
@[simp] theorem pulseValues_phs (c : Config) (f now : Nat) :
    (pulseValues c f now).phs = phaseOf c (angleIndex now (periodOf c f)) := rfl
@[simp] theorem pulseValues_pb (c : Config) (f now : Nat) :
    (pulseValues c f now).pb = brightnessOf (phaseOf c (angleIndex now (periodOf c f))) (amplitudeOf c f) := rfl

/-- The pulse colour (R139); not a simp lemma, so that colours stay short. -/
theorem pulseValues_pcol (c : Config) (f now : Nat) :
    (pulseValues c f now).pcol =
      c.hsv2rgb (BitVec.ofNat 8 (hueOf c f)) c.pulseSat (BitVec.ofNat 8 (pulseValues c f now).pb) := rfl

/-! ### Channels -/

@[simp] theorem initChannel_cur (c : Config) (x : c.Sample) (k : Channel c) : (initChannel c x k).cur = 0 := rfl
@[simp] theorem initChannel_inited (c : Config) (x : c.Sample) (k : Channel c) : (initChannel c x k).inited = true := rfl
@[simp] theorem initChannel_sm (c : Config) (x : c.Sample) (k : Channel c) : (initChannel c x k).sm = x.setWidth 16 := rfl
@[simp] theorem initChannel_fr (c : Config) (x : c.Sample) (k : Channel c) : (initChannel c x k).fr = k.fr := rfl

theorem initChannel_hist (c : Config) (x : c.Sample) (k : Channel c) (i : Nat) :
    readCell (initChannel c x k).hist i = if i < c.w then some x else readCell k.hist i :=
  readCell_fillHist c.w x k.hist i

/-- Everything an observation can do to its channel (R92). -/
theorem observeChannel_eq_some {c : Config} {x : c.Sample} {k k' : Channel c} (h : observeChannel c x k = some k') :
    ∃ t, slotSum (putCell k.hist k.cur.toNat x) c.w = some t ∧
      k' = { k with hist := putCell k.hist k.cur.toNat x, cur := BitVec.ofNat _ ((k.cur.toNat + 1) % c.w),
                    sm := BitVec.ofNat 16 (t / c.w) } := by
  unfold observeChannel mean at h
  rcases ht : slotSum (putCell k.hist k.cur.toNat x) c.w with _ | t
  · simp [ht] at h
  · simp only [ht, Option.map_some, Option.some.injEq] at h
    exact ⟨t, rfl, h.symm⟩

/-- An observation goes through when every slot holds a value. -/
theorem observeChannel_isSome {c : Config} (x : c.Sample) {k : Channel c} (h : ∀ i < c.w, (readCell k.hist i).isSome) :
    ∃ k', observeChannel c x k = some k' := by
  have : (slotSum (putCell k.hist k.cur.toNat x) c.w).isSome := by
    rw [slotSum_eq_some_iff]
    intro i hi
    rw [readCell_putCell]
    split
    · rfl
    · exact h i hi
  obtain ⟨t, ht⟩ := Option.isSome_iff_exists.mp this
  unfold observeChannel mean
  simp only [ht, Option.map_some, Option.some.injEq, exists_eq']

@[simp] theorem normChannel_hist (c : Config) (k : Channel c) : (normChannel c k).hist = k.hist := rfl
@[simp] theorem normChannel_cur (c : Config) (k : Channel c) : (normChannel c k).cur = k.cur := rfl
@[simp] theorem normChannel_inited (c : Config) (k : Channel c) : (normChannel c k).inited = k.inited := rfl
@[simp] theorem normChannel_sm (c : Config) (k : Channel c) : (normChannel c k).sm = k.sm := rfl
@[simp] theorem normChannel_fr (c : Config) (k : Channel c) : (normChannel c k).fr = BitVec.ofNat _ (normalizeOf c k.sm.toInt) := rfl

/-! ### Strips: pixels -/

theorem clearStrip_pix (c : Config) (t : Strip) (i : Nat) :
    readPix (clearStrip c t).pix i = if i < c.n then Pixel.black else readPix t.pix i :=
  readPix_mapPix_range c.n (fun _ => Pixel.black) t.pix i

theorem cascadeStrip_pix (c : Config) (f : Nat) (t : Strip) (i : Nat) :
    readPix (cascadeStrip c f t).pix i =
      if c.n - litCount c f ≤ i ∧ i < c.n then baseRgb c else readPix t.pix i := by
  have := litCount_le c f
  have h := readPix_mapPix_range' (c.n - litCount c f) (litCount c f) (fun _ => baseRgb c) t.pix i
  rw [show c.n - litCount c f + litCount c f = c.n by omega] at h
  exact h

theorem blendStrip_pix (c : Config) (p : Pixel) (t : Strip) (i : Nat) :
    readPix (blendStrip c p t).pix i = if i < c.n then satadd (readPix t.pix i) p else readPix t.pix i :=
  readPix_mapPix_range c.n (fun old => satadd old p) t.pix i

theorem pulseStrip_pix (c : Config) (f now : Nat) (t : Strip) (i : Nat) :
    readPix (pulseStrip c f now t).pix i =
      if i < c.n then satadd (readPix t.pix i) (pulseValues c f now).pcol else readPix t.pix i :=
  blendStrip_pix c _ _ i

/-! ### Strips: the canonical form of the buffer -/

theorem clearStrip_wf (c : Config) {t : Strip} (h : Memory.wf c.n (some Pixel.black) t.pix) :
    Memory.wf c.n (some Pixel.black) (clearStrip c t).pix :=
  wf_mapPix (fun _ => Pixel.black) h fun _ hi => List.mem_range.mp hi

theorem cascadeStrip_wf (c : Config) (f : Nat) {t : Strip} (h : Memory.wf c.n (some Pixel.black) t.pix) :
    Memory.wf c.n (some Pixel.black) (cascadeStrip c f t).pix := by
  refine wf_mapPix (fun _ => baseRgb c) h fun i hi => ?_
  have := litCount_le c f
  have := List.mem_range'_1.mp hi
  omega

theorem blendStrip_wf (c : Config) (p : Pixel) {t : Strip} (h : Memory.wf c.n (some Pixel.black) t.pix) :
    Memory.wf c.n (some Pixel.black) (blendStrip c p t).pix :=
  wf_mapPix (fun old => satadd old p) h fun _ hi => List.mem_range.mp hi

/-! ### Strips: read-out registers -/

@[simp] theorem clearStrip_lit (c : Config) (t : Strip) : (clearStrip c t).lit = t.lit := rfl
@[simp] theorem clearStrip_hue (c : Config) (t : Strip) : (clearStrip c t).hue = t.hue := rfl
@[simp] theorem clearStrip_per (c : Config) (t : Strip) : (clearStrip c t).per = t.per := rfl
@[simp] theorem clearStrip_amp (c : Config) (t : Strip) : (clearStrip c t).amp = t.amp := rfl
@[simp] theorem clearStrip_ang (c : Config) (t : Strip) : (clearStrip c t).ang = t.ang := rfl
@[simp] theorem clearStrip_phs (c : Config) (t : Strip) : (clearStrip c t).phs = t.phs := rfl
@[simp] theorem clearStrip_pb (c : Config) (t : Strip) : (clearStrip c t).pb = t.pb := rfl
@[simp] theorem clearStrip_pcol (c : Config) (t : Strip) : (clearStrip c t).pcol = t.pcol := rfl

@[simp] theorem cascadeStrip_lit (c : Config) (f : Nat) (t : Strip) :
    (cascadeStrip c f t).lit = BitVec.ofNat 16 (litCount c f) := rfl
@[simp] theorem cascadeStrip_hue (c : Config) (f : Nat) (t : Strip) : (cascadeStrip c f t).hue = t.hue := rfl
@[simp] theorem cascadeStrip_per (c : Config) (f : Nat) (t : Strip) : (cascadeStrip c f t).per = t.per := rfl
@[simp] theorem cascadeStrip_amp (c : Config) (f : Nat) (t : Strip) : (cascadeStrip c f t).amp = t.amp := rfl
@[simp] theorem cascadeStrip_ang (c : Config) (f : Nat) (t : Strip) : (cascadeStrip c f t).ang = t.ang := rfl
@[simp] theorem cascadeStrip_phs (c : Config) (f : Nat) (t : Strip) : (cascadeStrip c f t).phs = t.phs := rfl
@[simp] theorem cascadeStrip_pb (c : Config) (f : Nat) (t : Strip) : (cascadeStrip c f t).pb = t.pb := rfl
@[simp] theorem cascadeStrip_pcol (c : Config) (f : Nat) (t : Strip) : (cascadeStrip c f t).pcol = t.pcol := rfl

@[simp] theorem blendStrip_lit (c : Config) (p : Pixel) (t : Strip) : (blendStrip c p t).lit = t.lit := rfl
@[simp] theorem blendStrip_hue (c : Config) (p : Pixel) (t : Strip) : (blendStrip c p t).hue = t.hue := rfl
@[simp] theorem blendStrip_per (c : Config) (p : Pixel) (t : Strip) : (blendStrip c p t).per = t.per := rfl
@[simp] theorem blendStrip_amp (c : Config) (p : Pixel) (t : Strip) : (blendStrip c p t).amp = t.amp := rfl
@[simp] theorem blendStrip_ang (c : Config) (p : Pixel) (t : Strip) : (blendStrip c p t).ang = t.ang := rfl
@[simp] theorem blendStrip_phs (c : Config) (p : Pixel) (t : Strip) : (blendStrip c p t).phs = t.phs := rfl
@[simp] theorem blendStrip_pb (c : Config) (p : Pixel) (t : Strip) : (blendStrip c p t).pb = t.pb := rfl
@[simp] theorem blendStrip_pcol (c : Config) (p : Pixel) (t : Strip) : (blendStrip c p t).pcol = t.pcol := rfl

@[simp] theorem pulseStrip_lit (c : Config) (f now : Nat) (t : Strip) : (pulseStrip c f now t).lit = t.lit := rfl
@[simp] theorem pulseStrip_hue (c : Config) (f now : Nat) (t : Strip) :
    (pulseStrip c f now t).hue = BitVec.ofNat 8 (pulseValues c f now).hue := rfl
@[simp] theorem pulseStrip_per (c : Config) (f now : Nat) (t : Strip) :
    (pulseStrip c f now t).per = BitVec.ofNat 16 (pulseValues c f now).per := rfl
@[simp] theorem pulseStrip_amp (c : Config) (f now : Nat) (t : Strip) :
    (pulseStrip c f now t).amp = BitVec.ofNat 8 (pulseValues c f now).amp := rfl
@[simp] theorem pulseStrip_ang (c : Config) (f now : Nat) (t : Strip) :
    (pulseStrip c f now t).ang = BitVec.ofNat 10 (pulseValues c f now).ang := rfl
@[simp] theorem pulseStrip_phs (c : Config) (f now : Nat) (t : Strip) :
    (pulseStrip c f now t).phs = BitVec.ofNat 17 (pulseValues c f now).phs := rfl
@[simp] theorem pulseStrip_pb (c : Config) (f now : Nat) (t : Strip) :
    (pulseStrip c f now t).pb = BitVec.ofNat 8 (pulseValues c f now).pb := rfl
@[simp] theorem pulseStrip_pcol (c : Config) (f now : Nat) (t : Strip) :
    (pulseStrip c f now t).pcol = (pulseValues c f now).pcol := rfl

end Sys2Proof.Machine
end

