-- ==== Sys2Proof/Tests/Slice0.lean ====
section
/-! SUPPORT. Tests whose expected results are the spec's own (each names the vector or rule it is taken from), and, for every
statement with hypotheses, a theorem `witness_<statement>` that shows concrete values meeting them, clause by clause. -/

namespace Sys2Proof.Tests

open Sys2Proof.Machine Sys2Proof.Statements

-- each `decide +kernel` waits for the theorems before it: elaborated at once they hold one thread each
set_option Elab.async false

/-! ### Helpers -/

/-- The response after an outcome, none where it is a stop. -/
def responseOf {c : Config} : Result c → Option Response
  | .next t => t.rsp
  | _ => none

/-- Something of the next state, none where the outcome is a stop. -/
def after {c : Config} {α : Type} (g : State c → α) : Result c → Option α
  | .next t => some (g t)
  | _ => none

/-- One step on a word. -/
def stepWord (s : State) (w : Word64) : Result block := step (s.withFetchWord 64 w.toNat)

/-- What `RDSTAT` answers after one step on a word, with that step's response. -/
def faultAndStat (w : Word64) : Option (Option Response × Option Response) :=
  after (fun t => (t.rsp, responseOf (stepWord t 0x6200000000000000))) (stepWord State.reset w)

/-- A plain answer. -/
def ok (d : BitVec 32) : Option Response := some { err := false, data := d }

/-- The answer of a fault. -/
def bad : Option Response := some { err := true, data := 0 }

/-- Channel 0 after the seventh observation of vector V1. -/
def v1Channel : Channel block :=
  { hist := [(0, 1008), (1, 1016), (2, 1000), (3, 2000), (4, 4095), (5, 0), (6, 7), (7, 1000)]
    cur := 7, inited := true, sm := 1265, fr := 0x3E83E8 }

/-- Strip 1 with the near-maximum pixel of program P6, and a lit last pixel. -/
def p6Strip : Strip := { Strip.reset with pix := [(5, ⟨250, 250, 16⟩), (74, ⟨0, 69, 255⟩)] }

/-- A state that meets the invariants: channel 0 initialised and about to wrap its cursor, fraction 1 on channel 2, strip 1
partly lit. -/
def work : State :=
  ((State.reset.setChannel 0 v1Channel).setChannel 2 { Channel.reset block with fr := 0x1000000 }).setStripe 1 p6Strip

/-- `work` after a fault. -/
def faulted : State := { work with status := { err := true, cause := 6 } }

/-- A state no run reaches: channel 0 is marked initialised and its slot 7 holds no value. -/
def torn : State := State.reset.setChannel 0 { v1Channel with hist := [(0, 1008), (1, 1016)], cur := 0 }

/-! ### Configurations (R4 to R6) -/

/-- The parameters of the test configuration T0. -/
def t0 : Parameters := defaultParameters 160 255 255

/-- "N=0, smoothing window=0" and the other kinds of illegal parameters R6 and U1 name are refused. -/
theorem test_configure_refuses :
    [{ t0 with n := 0 }, { t0 with w := 0 }, { t0 with fullScale := 0 }, { t0 with periodFast := 1401 },
      { t0 with adcMax := 32768 }, { t0 with channels := 5 }, { t0 with hueMax := 360 }, { t0 with fracBits := 32 }].map
      (fun p => (instantiate p).isSome) = List.replicate 8 false := by decide +kernel

/-- Legal parameters away from the defaults: a window of 9 samples of 15 bits, 16 fraction bits, one pixel. -/
def wide : Config where
  toParameters := { t0 with w := 9, adcMax := 32767, fullScale := 32767, fracBits := 16, n := 1 }
  legal := { testColours.legal with
    w_range := by decide
    adcMax_range := by decide
    fullScale_range := by decide
    fracBits_range := by decide
    n_range := by decide }

theorem test_wide_widths : wide.sampleBits = 15 ∧ bitsFor (wide.w - 1) = 4 ∧ wide.one = 65536 := by decide

/-- The mean of nine slots by hand: after `SMINIT 0, #9` the ninth observation is stored in slot 8 and wraps the cursor, and
`(8 * 9 + 32767) div 9 = 3648`. -/
theorem test_wide_smobs :
    after (fun t => (t.rsp, t.hist 0 8, t.cur 0))
      (execute (.smobs 0 32767) ((State.resetOf wide).setChannel 0
        { initChannel wide 9 (Channel.reset wide) with cur := 8 })) = some (ok 3648, some 32767, 0) := by decide +kernel

/-! ### Well-formedness: each check refuses an ill-formed term and accepts its boundary (R72, R76) -/

theorem test_wellFormed_channel : (Instr.rdcur 3).wellFormed block = true ∧ (Instr.rdcur 4).wellFormed block = false := by
  decide
theorem test_wellFormed_strip : (Instr.clr 1).wellFormed block = true ∧ (Instr.clr 2).wellFormed block = false := by
  decide
theorem test_wellFormed_sub : (Instr.rddiag 0 7).wellFormed block = true ∧ (Instr.rddiag 0 8).wellFormed block = false := by
  decide
theorem test_wellFormed_pixel :
    (Instr.rdpix 0 74).wellFormed block = true ∧ (Instr.rdpix 0 75).wellFormed block = false := by decide
theorem test_wellFormed_slot :
    (Instr.rdhist 0 7).wellFormed block = true ∧ (Instr.rdhist 0 8).wellFormed block = false := by decide
theorem test_wellFormed_sample :
    (Instr.smobs 0 4095).wellFormed block = true ∧ (Instr.smobs 0 4096).wellFormed block = false := by decide
theorem test_wellFormed_signed :
    (Instr.setsm 0 0xFFFF8000).wellFormed block = true ∧ (Instr.setsm 0 0x7FFF).wellFormed block = true ∧
      (Instr.setsm 0 0x8000).wellFormed block = false ∧ (Instr.setsm 0 0xFFFF7FFF).wellFormed block = false := by decide
theorem test_wellFormed_fraction :
    (Instr.setfr 0 0x1000000).wellFormed block = true ∧ (Instr.setfr 0 0x1000001).wellFormed block = false := by decide
theorem test_wellFormed_angle :
    (Instr.qsin 1023).wellFormed block = true ∧ (Instr.qsin 1024).wellFormed block = false := by decide
theorem test_wellFormed_triple :
    (Instr.qhsv 0xFFFFFF).wellFormed block = true ∧ (Instr.qhsv 0x1000000).wellFormed block = false := by decide

/-! ### Decoding: a word written out from the spec for every command (R71, R74, R75; the words of 95_test_vectors.md) -/

theorem test_decode_nop : decode 0x0000000000000000 = .ok .nop := by decide
theorem test_decode_sminit : decode 0x1020000000000BFF = .ok (.sminit 2 3071) := by decide
theorem test_decode_smobs : decode 0x11100000000003E8 = .ok (.smobs 1 1000) := by decide
theorem test_decode_rdhist : decode 0x1200000100000000 = .ok (.rdhist 0 1) := by decide
theorem test_decode_rdcur : decode 0x1300000000000000 = .ok (.rdcur 0) := by decide
theorem test_decode_setsm : decode 0x14300000FFFFFFFB = .ok (.setsm 3 0xFFFFFFFB) := by decide
theorem test_decode_rdsm : decode 0x1530000000000000 = .ok (.rdsm 3) := by decide
theorem test_decode_norm : decode 0x2030000000000000 = .ok (.norm 3) := by decide
theorem test_decode_setfr : decode 0x211000000001B4E9 = .ok (.setfr 1 0x1B4E9) := by decide
theorem test_decode_rdfr : decode 0x2200000000000000 = .ok (.rdfr 0) := by decide
theorem test_decode_clr : decode 0x3010000000000000 = .ok (.clr 1) := by decide
theorem test_decode_casc : decode 0x3110000000000000 = .ok (.casc 1) := by decide
theorem test_decode_pulse : decode 0x4010000000000025 = .ok (.pulse 1 37) := by decide
theorem test_decode_qsin : decode 0x4100000000000280 = .ok (.qsin 640) := by decide
theorem test_decode_qhsv : decode 0x5000000000FFFF64 = .ok (.qhsv 0xFFFF64) := by decide
theorem test_decode_blend : decode 0x51100000000A050F = .ok (.blend 1 0x0A050F) := by decide
theorem test_decode_setpix : decode 0x5210000500FAFA10 = .ok (.setpix 1 5 0xFAFA10) := by decide
theorem test_decode_rdpix : decode 0x5310004A00000000 = .ok (.rdpix 1 74) := by decide
theorem test_decode_render : decode 0x601000000001E240 = .ok (.render 1 123456) := by decide
theorem test_decode_rddiag : decode 0x6107000000000000 = .ok (.rddiag 0 7) := by decide
theorem test_decode_rdstat : decode 0x6200000000000000 = .ok .rdstat := by decide

/-- The written forms of R80 for some of these words. -/
theorem test_written :
    (Instr.setpix 1 5 0xFAFA10).written = "SETPIX 1, 5, #16448016" ∧ (Instr.setsm 3 0xFFFFFFFB).written = "SETSM 3, #-5" ∧
      (Instr.rddiag 0 6).written = "RDDIAG 0, 6" := by decide

/-- The host's reading of a table row, with the operand's bits given and without. -/
theorem test_decodeTableWord :
    decodeTableWord 64 0x5310004A00000000 = some (.rdpix 1 74) ∧ decodeTableWord 64 0x7F00000000000000 = none := by decide

/-- The word is run as the first command after reset. -/
theorem test_withFetchWord : responseOf (step (State.reset.withFetchWord 64 0x4100000000000280)) = ok 0xFFFFA57E := by
  decide +kernel

/-! ### Faults: the words of V8, each just after reset, with its `RDSTAT` (R78, R191, R194) -/

theorem test_v8_illegalOpcode :
    faultAndStat 0x7F00000000000000 = some (bad, ok 0x11) ∧ faultAndStat 0x0100000000000000 = some (bad, ok 0x11) ∧
      faultAndStat 0xFFFFFFFFFFFFFFFF = some (bad, ok 0x11) := by
  refine ⟨?_, ?_, ?_⟩ <;> decide +kernel
theorem test_v8_reservedNonzero :
    faultAndStat 0x2000000000000001 = some (bad, ok 0x21) ∧ faultAndStat 0x0010000000000000 = some (bad, ok 0x21) ∧
      faultAndStat 0x6200000000000001 = some (bad, ok 0x21) ∧ faultAndStat 0x5201000000000000 = some (bad, ok 0x21) ∧
      faultAndStat 0x4110000000000000 = some (bad, ok 0x21) ∧ faultAndStat 0x6010000100000000 = some (bad, ok 0x21) := by
  refine ⟨?_, ?_, ?_, ?_, ?_, ?_⟩ <;> decide +kernel
theorem test_v8_badSelector :
    faultAndStat 0x1140000000000005 = some (bad, ok 0x31) ∧ faultAndStat 0x3020000000000000 = some (bad, ok 0x31) ∧
      faultAndStat 0x6108000000000000 = some (bad, ok 0x31) ∧ faultAndStat 0x6120000000000000 = some (bad, ok 0x31) ∧
      faultAndStat 0x5320004B00000000 = some (bad, ok 0x31) ∧ faultAndStat 0x1040000000001000 = some (bad, ok 0x31) := by
  refine ⟨?_, ?_, ?_, ?_, ?_, ?_⟩ <;> decide +kernel
theorem test_v8_badIndex :
    faultAndStat 0x5300004B00000000 = some (bad, ok 0x41) ∧ faultAndStat 0x1200000800000000 = some (bad, ok 0x41) := by
  refine ⟨?_, ?_⟩ <;> decide +kernel
theorem test_v8_badOperand :
    faultAndStat 0x1100000000001000 = some (bad, ok 0x51) ∧ faultAndStat 0x1400000000008000 = some (bad, ok 0x51) ∧
      faultAndStat 0x2100000001000001 = some (bad, ok 0x51) ∧ faultAndStat 0x4100000000000400 = some (bad, ok 0x51) ∧
      faultAndStat 0x5000000001000000 = some (bad, ok 0x51) ∧ faultAndStat 0x5100000001000000 = some (bad, ok 0x51) := by
  refine ⟨?_, ?_, ?_, ?_, ?_, ?_⟩ <;> decide +kernel
theorem test_v8_uninit :
    faultAndStat 0x1100000000000005 = some (bad, ok 0x61) ∧ faultAndStat 0x1200000000000000 = some (bad, ok 0x61) := by
  refine ⟨?_, ?_⟩ <;> decide +kernel
theorem test_v8_legal :
    faultAndStat 0x14000000FFFF8000 = some (ok 0, ok 0) ∧ faultAndStat 0x1400000000007FFF = some (ok 0, ok 0) ∧
      faultAndStat 0x0000000000000000 = some (ok 0, ok 0) := by
  refine ⟨?_, ?_, ?_⟩ <;> decide +kernel

/-- Program P5: the second fault does not change `CAUSE`, and commands after a fault execute. -/
theorem test_p5_sticky :
    after (·.status) (stepWord faulted 0x7F00000000000000) = some { err := true, cause := 6 } ∧
      responseOf (exec (.sminit 1 100) faulted) = ok 100 := by decide +kernel

/-! ### The units, against the tables of 95_test_vectors.md -/

/-- V2. -/
theorem test_v2_normalize :
    [-32768, -5, -1, 0, 1, 2, 1000, 1003, 1379, 2047, 2048, 3071, 4094, 4095, 4096, 5000, 32767].map (normalizeOf block) =
      [0, 0, 0, 0, 4097, 8194, 4097000, 4109291, 5649763, 8386559, 8390656, 12581887, 16773118, 16777216, 16777216, 16777216,
        16777216] := by decide +kernel

/-- The fractions of V3. -/
def v3 : List Nat :=
  [0, 1, 111848, 111849, 4097000, 4194304, 8386559, 8388607, 8388608, 8390656, 12581887, 16665367, 16665368, 16777215, 16777216]

theorem test_v3_litCount : v3.map (litCount block) = [0, 0, 0, 1, 18, 19, 37, 37, 38, 38, 56, 74, 75, 75, 75] := by
  decide +kernel
theorem test_v3_hue : v3.map (hueOf block) = [0, 0, 2, 2, 62, 64, 127, 127, 128, 128, 191, 253, 253, 255, 255] := by
  decide +kernel
theorem test_v3_period :
    v3.map (periodOf block) = [1400, 1400, 1392, 1392, 1095, 1087, 775, 775, 775, 775, 463, 158, 158, 150, 150] := by
  decide +kernel
theorem test_v3_amplitude :
    v3.map (amplitudeOf block) = [0, 0, 1, 1, 49, 50, 100, 100, 100, 100, 150, 199, 199, 200, 200] := by decide +kernel

/-- Rows of V4 (T0): `(f, now)` to `PER, AMP, HUE, ANG, PHS, PB, PCOL`. -/
theorem test_v4_pulse :
    [(0x1000000, 37), (0x1000000, 112), (0x1000000, 4294967295), (0, 350), (0x800000, 193), (0x800000, 581),
        (0x800000, 1000000), (0xBFFBFF, 123456), (0x3E83E8, 5000)].map
      (fun (f, now) => pulseValues testColours f now) =
      [ ⟨255, 150, 200, 252, 65526, 200, ⟨200, 0, 12⟩⟩, ⟨255, 150, 200, 764, 10, 0, ⟨0, 0, 0⟩⟩,
        ⟨255, 150, 200, 307, 63945, 195, ⟨195, 0, 12⟩⟩, ⟨0, 1400, 0, 256, 65536, 0, ⟨0, 0, 0⟩⟩,
        ⟨128, 775, 100, 255, 65535, 100, ⟨0, 100, 98⟩⟩, ⟨128, 775, 100, 767, 1, 0, ⟨0, 0, 0⟩⟩,
        ⟨128, 775, 100, 330, 62216, 95, ⟨0, 95, 93⟩⟩, ⟨191, 463, 150, 659, 7060, 16, ⟨7, 0, 16⟩⟩,
        ⟨62, 1095, 49, 579, 19673, 15, ⟨8, 15, 0⟩⟩ ] := by decide +kernel

/-- The brightness roundings under V4: `(PHS, AMP) -> PB`. -/
theorem test_v4_brightness :
    [(0, 200), (65536, 200), (32768, 200), (65535, 200), (1, 200), (163, 200), (164, 200), (32768, 1), (32767, 1),
        (32768, 199), (65536, 255), (32768, 255)].map (fun (ph, a) => brightnessOf ph a) =
      [0, 200, 100, 200, 0, 0, 1, 1, 0, 100, 255, 128] := by decide +kernel

/-- V5. -/
theorem test_v5_sine :
    [0, 1, 2, 128, 255, 256, 257, 384, 511, 512, 513, 640, 767, 768, 769, 896, 1023].map (sine block) =
      [0, 201, 402, 23170, 32767, 32768, 32767, 23170, 201, 0, -201, -23170, -32767, -32768, -32767, -23170, -201] := by
  decide +kernel

/-- V6, the sector edges and the partial saturations. -/
theorem test_v6_hsv2rgb :
    [(0, 0, 200), (42, 255, 255), (43, 255, 255), (85, 255, 255), (86, 255, 255), (128, 255, 255), (129, 255, 255),
        (171, 255, 255), (172, 255, 255), (214, 255, 255), (215, 255, 255), (255, 255, 255), (123, 45, 0), (64, 128, 200),
        (200, 100, 50), (10, 255, 1), (238, 255, 164)].map (fun (h, s, v) => hsv2rgbDefault h s v) =
      [⟨200, 200, 200⟩, ⟨255, 252, 0⟩, ⟨254, 255, 0⟩, ⟨3, 255, 0⟩, ⟨0, 255, 0⟩, ⟨0, 255, 252⟩, ⟨0, 254, 255⟩, ⟨0, 3, 255⟩,
        ⟨0, 0, 255⟩, ⟨252, 0, 255⟩, ⟨255, 0, 254⟩, ⟨255, 0, 15⟩, ⟨0, 0, 0⟩, ⟨150, 200, 99⟩, ⟨43, 30, 50⟩, ⟨1, 0, 0⟩,
        ⟨164, 0, 75⟩] := by decide +kernel

/-- V7. -/
theorem test_v7_satadd :
    satadd ⟨0, 69, 255⟩ ⟨100, 0, 6⟩ = ⟨100, 69, 255⟩ ∧ satadd ⟨250, 250, 16⟩ ⟨10, 5, 15⟩ = ⟨255, 255, 31⟩ ∧
      satadd ⟨255, 255, 255⟩ ⟨255, 255, 255⟩ = ⟨255, 255, 255⟩ ∧ satadd ⟨128, 127, 1⟩ ⟨127, 128, 254⟩ = ⟨255, 255, 255⟩ ∧
      satadd ⟨128, 128, 2⟩ ⟨128, 128, 254⟩ = ⟨255, 255, 255⟩ := by decide +kernel

/-- Program P2 (T0): half a cascade, no pulse. -/
theorem test_p2_render :
    let t := renderStrip testColours 0x800000 0 5000 Strip.reset
    (t.lit, t.per, t.amp, t.ang, t.phs, t.pb) = (38, 1400, 0, 585, 18576, 0) ∧
      [0, 36, 37, 74, 75].map (readPix t.pix) = [⟨0, 0, 0⟩, ⟨0, 0, 0⟩, ⟨0, 69, 255⟩, ⟨0, 69, 255⟩, ⟨0, 0, 0⟩] := by
  decide +kernel

/-- Program P3 (T0): half a cascade, the full pulse. -/
theorem test_p3_render :
    let t := renderStrip testColours 0x800000 0x1000000 0 Strip.reset
    (t.lit, t.hue, t.per, t.amp, t.pb, t.pcol) = (38, 255, 150, 200, 100, ⟨100, 0, 6⟩) ∧
      [0, 36, 37, 74].map (readPix t.pix) = [⟨100, 0, 6⟩, ⟨100, 0, 6⟩, ⟨100, 69, 255⟩, ⟨100, 69, 255⟩] := by
  decide +kernel

/-- Program P6 (T0): two pulses accumulate. -/
theorem test_p6_pulse_accumulates :
    readPix (pulseStrip testColours 0x1000000 37 (pulseStrip testColours 0x1000000 37 Strip.reset)).pix 0 = ⟨255, 0, 24⟩ := by
  decide +kernel

/-- Program P6 (T0): the cascade overwrites. -/
theorem test_p6_cascade_overwrites :
    let t := cascadeStrip testColours 0x1B4E9 { Strip.reset with pix := [(73, ⟨255, 0, 24⟩), (74, ⟨255, 0, 24⟩)] }
    t.lit = 1 ∧ [73, 74].map (readPix t.pix) = [⟨255, 0, 24⟩, ⟨0, 69, 255⟩] := by decide +kernel

/-! ### One step of each command on `work` -/

theorem test_nop : responseOf (exec .nop work) = ok 0 := by decide +kernel
/-- P1, first row. -/
theorem test_sminit :
    after (fun t => (t.rsp, t.hist 0 7, t.cur 0, t.inited 0, t.sm 0)) (exec (.sminit 0 1000) State.reset) =
      some (ok 1000, some 1000, 0, true, 1000) := by decide +kernel
/-- V1, eighth row: the cursor wraps. -/
theorem test_smobs_wraps :
    after (fun t => (t.rsp, t.hist 0 7, t.hist 0 0, t.cur 0, t.sm 0)) (exec (.smobs 0 1001) work) =
      some (ok 1265, some 1001, some 1008, 0, 1265) := by decide +kernel
theorem test_smobs_uninit : responseOf (exec (.smobs 1 100) work) = bad := by decide +kernel
theorem test_rdhist : responseOf (exec (.rdhist 0 4) work) = ok 4095 := by decide +kernel
theorem test_rdcur : responseOf (exec (.rdcur 0) work) = ok 7 := by decide +kernel
/-- V2: `SETSM 3, #-5`. -/
theorem test_setsm : after (fun t => (t.rsp, t.sm 3)) (exec (.setsm 3 0xFFFFFFFB) work) = some (ok 0, 0xFFFB) := by
  decide +kernel
/-- V2: `RDSM 3` after it is sign-extended. -/
theorem test_rdsm :
    responseOf (exec (.rdsm 3) (work.setChannel 3 { Channel.reset block with sm := 0xFFFB })) = ok 0xFFFFFFFB := by
  decide +kernel
/-- V2 with `SM = 1003`: P1, fourth row. -/
theorem test_norm :
    after (fun t => (t.rsp, t.fr 1)) (exec (.norm 1) (work.setChannel 1 { Channel.reset block with sm := 1003 })) =
      some (ok 0x3EB3EB, 0x3EB3EB) := by decide +kernel
theorem test_setfr : after (fun t => (t.rsp, t.fr 3)) (exec (.setfr 3 0x1000000) work) = some (ok 0, 0x1000000) := by
  decide +kernel
theorem test_rdfr : responseOf (exec (.rdfr 0) work) = ok 0x3E83E8 := by decide +kernel
theorem test_clr : after (fun t => (t.rsp, t.pix 1 5, (t.stripe 1).pix)) (exec (.clr 1) work) = some (ok 0, ⟨0, 0, 0⟩, []) := by
  decide +kernel
/-- V3: `LIT` for the fraction 0x3E83E8 of channel 0. -/
theorem test_casc : responseOf (exec (.casc 0) work) = ok 18 := by decide +kernel
/-- L1.8: fraction 1 at time 0, on strip 0 whose pulse channel is 2. -/
theorem test_pulse : responseOf (exec (.pulse 0 0) work) = ok 100 := by decide +kernel
theorem test_qsin : responseOf (exec (.qsin 640) work) = ok 0xFFFFA57E := by decide +kernel
theorem test_qhsv : responseOf (exec (.qhsv 0xFFFF64) work) = ok 0x640006 := by decide +kernel
/-- P6, second to fourth rows. -/
theorem test_blend :
    after (fun t => (t.rsp, t.pix 1 5, t.pix 1 6)) (exec (.blend 1 0x0A050F) work) =
      some (ok 0, ⟨255, 255, 31⟩, ⟨10, 5, 15⟩) := by decide +kernel
theorem test_setpix :
    after (fun t => (t.rsp, t.pix 0 5)) (exec (.setpix 0 5 0xFAFA10) work) = some (ok 0, ⟨250, 250, 16⟩) := by
  decide +kernel
/-- Writing black takes the entry out again: equal buffers are equal lists. -/
theorem test_setpix_black :
    after (fun t => (t.stripe 1).pix) (exec (.setpix 1 5 0) work) = some [(74, ⟨0, 69, 255⟩)] := by decide +kernel
theorem test_rdpix : responseOf (exec (.rdpix 1 74) work) = ok 0x45FF := by decide +kernel
/-- V4, first row, and the cascade length of the fraction 0x3E83E8. -/
theorem test_render :
    after (fun t => (t.rsp, (t.stripe 0).lit, (t.stripe 0).per)) (exec (.render 0 0) work) = some (ok 100, 18, 150) := by
  decide +kernel
theorem test_rddiag :
    responseOf (exec (.rddiag 1 7) (work.setStripe 1 { p6Strip with pcol := ⟨200, 0, 12⟩ })) = ok 0xC8000C := by
  decide +kernel
/-- The word of R32 with `INITED[0]`, `CAUSE = 6` and `ERR`. -/
theorem test_rdstat : responseOf (exec .rdstat faulted) = ok 0x161 := by decide +kernel

/-! ### Witnesses: the machine -/

theorem work_inv : work.Inv := by
  refine ⟨fun ch => ?_, fun k => ?_, ⟨by decide, by decide⟩⟩
  · fin_cases ch
    · refine ⟨by decide, by decide, by decide, fun _ i hi => ?_⟩
      change i < 8 at hi
      interval_cases i <;> exact ⟨_, rfl, by decide⟩
    all_goals exact ⟨by decide, by decide, by decide, fun h => absurd h (by decide)⟩
  · fin_cases k <;> exact ⟨by decide, by decide, .inl rfl, by decide, by decide, by decide⟩

/-- The invariants do not speak of the port. -/
theorem work_port_inv (p : List HostEvent) : ({ work with port := p } : State).Inv :=
  ⟨work_inv.channel, work_inv.stripe, work_inv.status⟩

theorem witness_EncodeOfDecodeIsTheWord : decode 0x5310004A00000000 = .ok (.rdpix 1 74) := by decide

theorem witness_StepExecutesTheDecodedCommand :
    (State.reset.withFetchWord 64 0x5310004A00000000).port = .command 0x5310004A00000000 :: [] ∧
      decode 0x5310004A00000000 = .ok (.rdpix 1 74) := by decide

theorem witness_StepOnBadWordsResetAndIdle :
    (decode 0x7F00000000000000 = .error .illegalOpcode ∧
      ({ work with port := [.command 0x7F00000000000000] } : State).port = .command 0x7F00000000000000 :: []) ∧
    (decode 0x6200000000000001 = .error .reservedNonzero ∧
      ({ work with port := [.command 0x6200000000000001, .reset] } : State).port =
        .command 0x6200000000000001 :: [.reset]) ∧
    ({ work with port := [.reset] } : State).port = .reset :: [] ∧ work.port = [] := by decide

theorem witness_StepKeepsTheInvariants :
    ({ work with port := [.command 0x2000000000000000] } : State).Inv ∧
      ∃ t, step { work with port := [.command 0x2000000000000000] } = .next t :=
  ⟨work_port_inv _, _, rfl⟩

theorem witness_StepNeverStops : work.Inv := work_inv

/-- For each code a word at the boundary of its check that fails it and no lower one, and a word that fails none. -/
theorem witness_EveryWordExecutesOrTakesItsFirstFault :
    work.Inv ∧ FailsCheck 0x6300000000000000 work 1 ∧
    (FailsCheck 0x0000000000000001 work 2 ∧ ¬FailsCheck 0x0000000000000001 work 1) ∧
    (FailsCheck 0x1140000000001000 work 3 ∧ ∀ lower ∈ [1, 2], ¬FailsCheck 0x1140000000001000 work lower) ∧
    (FailsCheck 0x1200000800000000 work 4 ∧ ∀ lower ∈ [1, 2, 3], ¬FailsCheck 0x1200000800000000 work lower) ∧
    (FailsCheck 0x1110000000001000 work 5 ∧ ∀ lower ∈ [1, 2, 3, 4], ¬FailsCheck 0x1110000000001000 work lower) ∧
    (FailsCheck 0x1110000000000FFF work 6 ∧ ∀ lower ∈ [1, 2, 3, 4, 5], ¬FailsCheck 0x1110000000000FFF work lower) ∧
    ∀ code ∈ [1, 2, 3, 4, 5, 6], ¬FailsCheck 0x1100000000000FFF work code := by
  simp only [List.forall_mem_cons, List.not_mem_nil, false_implies, implies_true, and_true]
  refine ⟨work_inv, ?_, ⟨?_, ?_⟩, ⟨?_, ?_, ?_⟩, ⟨?_, ?_, ?_, ?_⟩, ⟨?_, ?_, ?_, ?_, ?_⟩, ⟨?_, ?_, ?_, ?_, ?_, ?_⟩, ?_, ?_, ?_,
    ?_, ?_, ?_⟩ <;> simp only [FailsCheck] <;> decide

theorem witness_EachCommandChangesOnlyWhatItsRuleNames :
    (∃ t, exec (.norm 0) work = .next t) ∧ ¬WritesSlot (.norm 0) work 0 0 ∧ ¬WritesCur (.norm 0) 0 ∧
      ¬WritesInited (.norm 0) 0 ∧ ¬WritesSm (.norm 0) 0 ∧ ¬WritesFr (.norm 0) 1 ∧ ¬WritesPixel (.norm 0) work 0 0 ∧
      ¬WritesLit (.norm 0) 0 ∧ ¬WritesPulse (.norm 0) 0 ∧
    (∃ t, exec (.casc 0) work = .next t) ∧ ¬WritesPixel (.casc 0) work 0 56 ∧ WritesPixel (.casc 0) work 0 57 := by
  refine ⟨⟨_, rfl⟩, ?_, ?_, ?_, ?_, ?_, ?_, ?_, ?_, ⟨_, rfl⟩, ?_, ?_⟩ <;>
    simp only [WritesSlot, WritesCur, WritesInited, WritesSm, WritesFr, WritesPixel, WritesLit, WritesPulse] <;>
    decide +kernel

theorem witness_FaultIsStickyAndOtherwiseWithoutEffect :
    (faulted.status.err = true ∧ ∃ t, execute (.rdpix 2 0) faulted = .next t) ∧
      ({ faulted with port := [.reset] } : State).port = .reset :: [] ∧ Instr.rdcur 0 ≠ .rdstat ∧
      ∃ t, execute (.rdcur 0) work = .next t :=
  ⟨⟨rfl, _, rfl⟩, rfl, by decide, _, rfl⟩

/-- The words of `SMOBS 0, #4095; SMINIT 3, #0; SMOBS 3, #4095; RDHIST 3, 7; NORM 3; RENDER 1, #0xFFFFFFFF`. -/
theorem witness_ValidUseRaisesNoFault :
    work.Inv ∧ work.Good ∧
      ValidUse block work.inited [0x1100000000000FFF, 0x1030000000000000, 0x1130000000000FFF, 0x1230000700000000,
        0x2030000000000000, 0x60100000FFFFFFFF] := by
  refine ⟨work_inv, rfl, _, rfl, rfl, ?_, _, rfl, rfl, trivial, _, rfl, rfl, ?_, _, rfl, rfl, ?_, _, rfl, rfl, trivial, _, rfl, rfl,
    trivial, trivial⟩ <;> decide

/-- A run that ends good, and program P5's first fault in a run: a word that is no command. -/
theorem witness_RunIsGoodExactlyWhenNoWordAnsweredErr :
    work.Good ∧ (∃ t, RunsTo work [0x1300000000000000, 0x1500000000000000] t ∧ t.Good) ∧
      ∃ t, RunsTo work [0x1300000000000000, 0x7F00000000000000] t ∧ ¬t.Good :=
  ⟨rfl, ⟨_, .cons rfl (.cons rfl (.done _)), rfl⟩, _, .cons rfl (.cons rfl (.done _)), by simp only [State.Good]; decide⟩

/-- The same two words as a run and as two steps of the machine. -/
theorem witness_RunIsTheStepsThatAcceptItsWords :
    (∃ t, RunsTo work [0x1300000000000000, 0x7F00000000000000] t) ∧
      ∃ t : State, Sys2Proof.core.run 2 ({ work with port := [.command 0x1300000000000000, .command 0x7F00000000000000] } : State) =
        .next t :=
  ⟨⟨_, .cons rfl (.cons rfl (.done _))⟩, _, rfl⟩

/-! ### Witnesses: the commands. For each a word of its opcode with its unused fields zero and one with an unused field not
zero, then each clause at a boundary value of its range. -/

/-- Two words of the opcode: one that leaves the unused fields zero, one that does not. -/
def Words (op : Nat) (sel sub idx imm : Bool) (good badWord : Word64) : Prop :=
  let unusedZero (w : Word64) := (sel = false → bits w 55 52 = 0) ∧ (sub = false → bits w 51 48 = 0) ∧
    (idx = false → bits w 47 32 = 0) ∧ (imm = false → bits w 31 0 = 0)
  bits good 63 56 = op ∧ unusedZero good ∧ bits badWord 63 56 = op ∧ ¬unusedZero badWord

theorem witness_SminitFillsTheHistoryOfItsChannel :
    Words 0x10 true false false true 0x10300000FFFFFFFF 0x1001000000000000 ∧
      4 ≤ (4 : BitVec 4).toNat ∧ ((3 : BitVec 4).toNat < 4 ∧ 4095 < (4096 : BitVec 32).toNat) ∧
      (3 : BitVec 4).toNat = (3 : ChannelId).val ∧ (4095 : BitVec 32).toNat ≤ 4095 := by
  simp only [Words]; decide

theorem witness_SmobsStoresAdvancesAndAverages :
    Words 0x11 true false false true 0x1130000000000000 0x1100000100000000 ∧
      4 ≤ (4 : BitVec 4).toNat ∧ ((3 : BitVec 4).toNat < 4 ∧ 4095 < (4096 : BitVec 32).toNat) ∧
      ((3 : BitVec 4).toNat = (3 : ChannelId).val ∧ (4095 : BitVec 32).toNat ≤ 4095 ∧ work.inited 3 = false) ∧
      (0 : BitVec 4).toNat = (0 : ChannelId).val ∧ work.inited 0 = true ∧
        ∀ i < 8, i ≠ (work.cur 0).toNat → (work.hist 0 i).isSome := by
  simp only [Words]; decide

theorem witness_RdhistReadsOneSlot :
    Words 0x12 true false true false 0x1230FFFF00000000 0x1200000000000001 ∧
      4 ≤ (4 : BitVec 4).toNat ∧ ((3 : BitVec 4).toNat < 4 ∧ 8 ≤ (8 : BitVec 16).toNat) ∧
      ((3 : BitVec 4).toNat = (3 : ChannelId).val ∧ (7 : BitVec 16).toNat < 8 ∧ work.inited 3 = false) ∧
      (0 : BitVec 4).toNat = (0 : ChannelId).val ∧ work.inited 0 = true ∧
        work.hist 0 (7 : BitVec 16).toNat = some 1000 := by
  simp only [Words]; decide

theorem witness_ReadingASlotWithoutAValueStops :
    (0 : BitVec 4).toNat = (0 : ChannelId).val ∧ torn.inited 0 = true ∧ (4095 : BitVec 32).toNat ≤ 4095 ∧
      (∃ i < 8, i ≠ (torn.cur 0).toNat ∧ torn.hist 0 i = none) ∧
      (7 : BitVec 16).toNat < 8 ∧ torn.hist 0 (7 : BitVec 16).toNat = none := by decide

theorem witness_RdcurReadsTheCursor :
    Words 0x13 true false false false 0x1330000000000000 0x1300000000000001 ∧
      4 ≤ (4 : BitVec 4).toNat ∧ (3 : BitVec 4).toNat = (3 : ChannelId).val := by
  simp only [Words]; decide

theorem witness_SetsmWritesTheSmoothedValue :
    Words 0x14 true false false true 0x14000000FFFF8000 0x1408000000000000 ∧
      4 ≤ (4 : BitVec 4).toNat ∧
      ((3 : BitVec 4).toNat < 4 ∧ ((0xFFFF7FFF : BitVec 32).toInt < -32768 ∨ 32767 < (0xFFFF7FFF : BitVec 32).toInt)) ∧
      ((0x8000 : BitVec 32).toInt < -32768 ∨ 32767 < (0x8000 : BitVec 32).toInt) ∧
      (3 : BitVec 4).toNat = (3 : ChannelId).val ∧
        (-32768 ≤ (0xFFFF8000 : BitVec 32).toInt ∧ (0xFFFF8000 : BitVec 32).toInt ≤ 32767) ∧
        (-32768 ≤ (0x7FFF : BitVec 32).toInt ∧ (0x7FFF : BitVec 32).toInt ≤ 32767) := by
  simp only [Words]; decide

theorem witness_RdsmReadsTheSmoothedValue :
    Words 0x15 true false false false 0x1530000000000000 0x1500000100000000 ∧
      4 ≤ (4 : BitVec 4).toNat ∧ (3 : BitVec 4).toNat = (3 : ChannelId).val := by
  simp only [Words]; decide

/-- With words between that store a sample, that fault, and that are no command. -/
theorem witness_FilterIsTheMeanOfTheLastSamples :
    (2 : BitVec 4).toNat = (2 : ChannelId).val ∧ (1000 : BitVec 32).toNat ≤ block.adcMax ∧
      (4095 : BitVec 32).toNat ≤ block.adcMax ∧
      (∀ w ∈ [encode (.smobs 2 7), encode (.sminit 2 4096), 0x7F00000000000000], ∀ y, decode w = .ok (.sminit 2 y) →
        block.adcMax < y.toNat) ∧
      ∃ t, RunsTo State.reset (encode (.sminit 2 1000) :: [encode (.smobs 2 7), encode (.sminit 2 4096), 0x7F00000000000000] ++
        [encode (.smobs 2 4095)]) t := by
  refine ⟨rfl, by decide, by decide, ?_, _, .cons rfl (.cons rfl (.cons rfl (.cons rfl (.cons rfl (.done _)))))⟩
  intro w hw y h
  simp only [List.mem_cons, List.not_mem_nil, or_false] at hw
  rcases hw with rfl | rfl | rfl
  · cases h
  · cases h; decide
  · cases h

theorem witness_SmoothedValueLiesBetweenTheSlots :
    work.Inv ∧ (0 : BitVec 4).toNat = (0 : ChannelId).val ∧
      (∃ t, execute (.sminit 0 4095) work = .next t ∧ t.rsp = some { err := false, data := 4095 } ∧
        (∀ j < 8, 4095 ≤ slotValue t 0 j) ∧ (∀ j < 8, slotValue t 0 j ≤ 4095) ∧ ∀ j < 8, slotValue t 0 j = 4095) ∧
      ∃ t t', execute (.smobs 0 0) work = .next t ∧ execute (.smobs 0 4095) work = .next t' ∧
        t.rsp = some { err := false, data := 1140 } ∧ t'.rsp = some { err := false, data := 1652 } ∧
        ∀ j < 8, slotValue t 0 j ≤ slotValue t' 0 j :=
  ⟨work_inv, rfl, ⟨_, rfl, rfl, by decide, by decide, by decide⟩, _, _, rfl, rfl, rfl, rfl, by decide⟩

theorem witness_FilterReadsOnlyItsOwnChannel :
    (1 : BitVec 4).toNat = (1 : ChannelId).val ∧ State.reset.channel 1 = work.channel 1 ∧
      ∃ t, execute (.smobs 1 7) work = .next t := ⟨rfl, rfl, _, rfl⟩

/-- The three clauses of the scaler at their ends. -/
theorem witness_NormClampsAndScales :
    Words 0x20 true false false false 0x2030000000000000 0x2000000000000001 ∧
      4 ≤ (4 : BitVec 4).toNat ∧ (3 : BitVec 4).toNat = (3 : ChannelId).val ∧
      (0 : BitVec 16).toInt ≤ 0 ∧ 4095 ≤ (4095 : BitVec 16).toInt ∧
      (0 < (1 : BitVec 16).toInt ∧ (1 : BitVec 16).toInt < 4095) ∧
      (0 < (4094 : BitVec 16).toInt ∧ (4094 : BitVec 16).toInt < 4095) := by
  simp only [Words]; decide

theorem witness_SetfrWritesTheFraction :
    Words 0x21 true false false true 0x2130000001000000 0x2101000000000000 ∧
      4 ≤ (4 : BitVec 4).toNat ∧ ((3 : BitVec 4).toNat < 4 ∧ 16777216 < (0x1000001 : BitVec 32).toNat) ∧
      (3 : BitVec 4).toNat = (3 : ChannelId).val ∧ (0x1000000 : BitVec 32).toNat ≤ 16777216 := by
  simp only [Words]; decide

theorem witness_RdfrReadsTheFraction :
    Words 0x22 true false false false 0x2230000000000000 0x2200000000000001 ∧
      4 ≤ (4 : BitVec 4).toNat ∧ (3 : BitVec 4).toNat = (3 : ChannelId).val := by
  simp only [Words]; decide

/-- The defaults at the ends of the range and at two neighbours. -/
theorem witness_NormalizerIsMonotoneAndClamped :
    block.fullScale ≤ block.one ∧ (0 : Int) ≤ 4094 ∧ (4094 : Int) < 4095 ∧ (4095 : Int) ≤ block.fullScale := by decide

theorem witness_NormalizerIsWithinOneUnitOfTheRatio :
    ((0 : Int) < 1 ∧ (1 : Int) < block.fullScale) ∧ (4094 : Int) < block.fullScale := by decide

theorem witness_ClrBlackensItsStrip :
    Words 0x30 true false false false 0x3010000000000000 0x3000000000000001 ∧
      2 ≤ (2 : BitVec 4).toNat ∧ (1 : BitVec 4).toNat = (1 : StripId).val := by
  simp only [Words]; decide

theorem witness_CascLightsTheLastPixels :
    Words 0x31 true false false false 0x3110000000000000 0x3100000000000001 ∧
      2 ≤ (2 : BitVec 4).toNat ∧ (1 : BitVec 4).toNat = (1 : StripId).val := by
  simp only [Words]; decide

theorem witness_CascadeIsTheTopmostBlock :
    111848 ≤ 111849 ∧ (1 : BitVec 4).toNat = (1 : StripId).val ∧
      ∃ t, RunsTo work [encode (.clr 1), encode (.casc 1)] t :=
  ⟨by decide, rfl, _, .cons rfl (.cons rfl (.done _))⟩

theorem witness_PulseComputesAndAddsItsColour :
    Words 0x40 true false false true 0x40100000FFFFFFFF 0x4001000000000000 ∧
      2 ≤ (2 : BitVec 4).toNat ∧ (0 : BitVec 4).toNat = (0 : StripId).val ∧
      (work.fr (pulseChannel 0)).toNat ≤ 16777216 := by
  simp only [Words]; decide

theorem witness_QsinAnswersTheSine :
    Words 0x41 false false false true 0x41000000000003FF 0x4110000000000000 ∧
      1023 < (1024 : BitVec 32).toNat ∧ (1023 : BitVec 32).toNat ≤ 1023 := by
  simp only [Words]; decide

theorem witness_PulseFollowsFractionAndTime :
    16777216 ≤ block.one ∧ (1 : BitVec 4).toNat = (1 : StripId).val ∧ work.fr (block.pulseCh 1) = 0 ∧
      (∃ t, execute (.pulse 1 37) work = .next t) ∧
      State.reset.fr (block.pulseCh 0) = State.reset.fr (block.pulseCh 1) ∧
      (∃ t, execute (.pulse 0 37) State.reset = .next t) ∧ ∃ u, execute (.pulse 1 37) State.reset = .next u :=
  ⟨by decide, rfl, rfl, ⟨_, rfl⟩, rfl, ⟨_, rfl⟩, _, rfl⟩

theorem witness_SineTableAndSymmetries : 1023 < 1024 ∧ 512 ≤ 512 := by decide

/-! ### Witnesses: the compositor, render and the system commands -/

theorem witness_QhsvAnswersTheLookup :
    Words 0x50 false false false true 0x5000000000FFFFFF 0x5010000000000000 ∧
      16777216 ≤ (0x1000000 : BitVec 32).toNat ∧ (0xFFFFFF : BitVec 32).toNat < 16777216 := by
  simp only [Words]; decide

theorem witness_BlendAddsOneColourSaturating :
    Words 0x51 true false false true 0x5110000000FFFFFF 0x5100000100000000 ∧
      2 ≤ (2 : BitVec 4).toNat ∧ ((1 : BitVec 4).toNat < 2 ∧ 16777216 ≤ (0x1000000 : BitVec 32).toNat) ∧
      (1 : BitVec 4).toNat = (1 : StripId).val ∧ (0xFFFFFF : BitVec 32).toNat < 16777216 := by
  simp only [Words]; decide

theorem witness_SetpixWritesOnePixel :
    Words 0x52 true false true true 0x5210004A00FFFFFF 0x5201000000000000 ∧
      2 ≤ (2 : BitVec 4).toNat ∧ ((1 : BitVec 4).toNat < 2 ∧ 75 ≤ (75 : BitVec 16).toNat) ∧
      ((74 : BitVec 16).toNat < 75 ∧ 16777216 ≤ (0x1000000 : BitVec 32).toNat) ∧
      (1 : BitVec 4).toNat = (1 : StripId).val ∧ (0xFFFFFF : BitVec 32).toNat < 16777216 := by
  simp only [Words]; decide

theorem witness_RdpixReadsOnePixel :
    Words 0x53 true false true false 0x5310004A00000000 0x5300000000000001 ∧
      2 ≤ (2 : BitVec 4).toNat ∧ ((1 : BitVec 4).toNat < 2 ∧ 75 ≤ (75 : BitVec 16).toNat) ∧
      (1 : BitVec 4).toNat = (1 : StripId).val ∧ (74 : BitVec 16).toNat < 75 := by
  simp only [Words]; decide

theorem witness_SaturatingAddIsThreeIndependentLanes :
    (⟨254, 0, 255⟩ : Pixel).r ≤ (⟨255, 0, 255⟩ : Pixel).r ∧ (⟨254, 0, 255⟩ : Pixel).g ≤ (⟨255, 0, 255⟩ : Pixel).g ∧
      (⟨254, 0, 255⟩ : Pixel).b ≤ (⟨255, 0, 255⟩ : Pixel).b ∧ (⟨255, 255, 255⟩ : Pixel).r = 255 := by decide

theorem witness_BlendAndPulseNeverDarken :
    (1 : BitVec 4).toNat = (1 : StripId).val ∧ (∃ t, execute (.blend 1 0x0A050F) work = .next t ∧ t.rsp = ok 0) ∧
      ∃ t, execute (.pulse 0 0) work = .next t ∧ t.rsp = ok 100 :=
  ⟨rfl, ⟨_, rfl, rfl⟩, _, rfl, by decide +kernel⟩

theorem witness_OnlyLegalParametersMakeABlock : block.adcMax < 2 ^ 12 ∧ ¬block.adcMax < 2 ^ 11 := by decide

theorem witness_RenderComputesTheWholeBuffer :
    Words 0x60 true false false true 0x60100000FFFFFFFF 0x6000000100000000 ∧
      2 ≤ (2 : BitVec 4).toNat ∧ (0 : BitVec 4).toNat = (0 : StripId).val ∧
      (work.fr (pulseChannel 0)).toNat ≤ 16777216 ∧ (1 : BitVec 4).toNat = (1 : StripId).val ∧
      (work.fr (pulseChannel 1)).toNat ≤ 16777216 := by
  simp only [Words]; decide

theorem witness_RenderIsClearCascadePulse :
    (∃ t, execute (.render 1 5000) work = .next t) ∧ ∃ t, RunsTo work [encode (.clr 1), encode (.casc 1), encode (.pulse 1 5000)] t :=
  ⟨⟨_, rfl⟩, _, .cons rfl (.cons rfl (.cons rfl (.done _)))⟩

theorem witness_RenderDependsOnlyOnFractionsAndTime :
    (1 : BitVec 4).toNat = (1 : StripId).val ∧ State.reset.fr (block.cascCh 1) = work.fr (block.cascCh 1) ∧
      State.reset.fr (block.pulseCh 1) = work.fr (block.pulseCh 1) ∧ work.fr (block.pulseCh 1) = 0 ∧
      (∃ t, execute (.render 1 5000) work = .next t) ∧ (∃ t, execute (.render 1 5000) State.reset = .next t) ∧
      ∃ u, RunsTo work [encode (.clr 1), encode (.casc 1)] u :=
  ⟨rfl, rfl, rfl, rfl, ⟨_, rfl⟩, ⟨_, rfl⟩, _, .cons rfl (.cons rfl (.done _))⟩

/-- `work` with all four channels initialised. -/
def ready : State :=
  { work with chan := Vector.replicate 4 v1Channel }

theorem witness_FrameRendersTheScaledMeans :
    ready.Inv ∧ ready.Good ∧ (∀ ch, ready.inited ch = true) ∧
      ∀ ch : ChannelId, ((fun _ => 4095 : ChannelId → BitVec 32) ch).toNat ≤ 4095 := by
  refine ⟨⟨fun ch => ?_, work_inv.stripe, work_inv.status⟩, rfl, by decide, by decide⟩
  have h : ready.channel ch = work.channel 0 := by fin_cases ch <;> rfl
  rw [h]
  exact work_inv.channel 0

theorem witness_NopDoesNothing : Words 0x00 false false false false 0x0000000000000000 0x0000000000000001 := by
  simp only [Words]; decide

theorem witness_RddiagReadsAReadout :
    Words 0x61 true true false false 0x6117000000000000 0x6100000000000001 ∧
      (2 ≤ (2 : BitVec 4).toNat ∨ 8 ≤ (0 : BitVec 4).toNat) ∧ (2 ≤ (1 : BitVec 4).toNat ∨ 8 ≤ (8 : BitVec 4).toNat) ∧
      (1 : BitVec 4).toNat = (1 : StripId).val ∧ (7 : BitVec 4).toNat < 8 := by
  simp only [Words]; decide

theorem witness_RdstatReadsTheLatchAndInited :
    Words 0x62 false false false false 0x6200000000000000 0x6200000000000001 := by
  simp only [Words]; decide

theorem witness_RepeatingAnIdempotentCommandChangesNothing :
    work.Inv ∧ (∀ sel imm, Instr.casc 1 ≠ .smobs sel imm ∧ Instr.casc 1 ≠ .pulse sel imm ∧ Instr.casc 1 ≠ .blend sel imm) ∧
      ∃ t, execute (.casc 1) work = .next t :=
  ⟨work_inv, by simp, _, rfl⟩

theorem witness_ReadsChangeNothing :
    ∃ t, execute (.rdhist 0 4) work = .next t ∧ t.rsp = some { err := false, data := 4095 } := ⟨_, rfl, rfl⟩

theorem witness_NoEffectDependsOnTheReadouts :
    (∀ sel sub, Instr.casc 1 ≠ .rddiag sel sub) ∧
      SameButReadouts work (work.setStripe 1 { p6Strip with pcol := ⟨1, 2, 3⟩ }) ∧ ∃ t, execute (.casc 1) work = .next t := by
  refine ⟨by simp, ⟨fun _ => ⟨fun _ => rfl, rfl, rfl, rfl, rfl⟩, fun k _ => ?_, rfl, rfl, rfl⟩, _, rfl⟩
  fin_cases k <;> rfl

theorem witness_ReadAfterWriteReturnsTheWrittenValue :
    ((1 : BitVec 4).toNat < 2 ∧ (74 : BitVec 16).toNat < 75 ∧ (0xFFFFFF : BitVec 32).toNat < 16777216 ∧
      ∃ t, RunsTo work [encode (.setpix 1 74 0xFFFFFF), encode (.rdpix 1 74)] t) ∧
    ((3 : BitVec 4).toNat < 4 ∧ (0x1000000 : BitVec 32).toNat ≤ 16777216 ∧
      ∃ t, RunsTo work [encode (.setfr 3 0x1000000), encode (.rdfr 3)] t) ∧
    (-32768 ≤ (0xFFFF8000 : BitVec 32).toInt ∧ (0xFFFF8000 : BitVec 32).toInt ≤ 32767 ∧
      ∃ t, RunsTo work [encode (.setsm 3 0xFFFF8000), encode (.rdsm 3)] t) ∧
    ((4095 : BitVec 32).toNat ≤ 4095 ∧ (7 : BitVec 16).toNat < 8 ∧ ∃ t, RunsTo work [encode (.sminit 3 4095), encode (.rdhist 3 7)] t) :=
  ⟨⟨by decide, by decide, by decide, _, .cons rfl (.cons rfl (.done _))⟩,
    ⟨by decide, by decide, _, .cons rfl (.cons rfl (.done _))⟩,
    ⟨by decide, by decide, _, .cons rfl (.cons rfl (.done _))⟩,
    by decide, by decide, _, .cons rfl (.cons rfl (.done _))⟩

end Sys2Proof.Tests
end

section
/-! The scope of the block (00_scope.md): which parameters make a machine, the width of a sample, and the machine of the
defaults. -/

namespace Sys2Proof.Machine

/-! ### The machine that a set of parameters makes (R6, U1) -/

/-- Parameters that meet the constraints are configured, and are not changed by it. -/
theorem configure_of_legal {p : Parameters} (h : p.Legal) :
    p.configure = some { toParameters := p, legal := h } := dif_pos (p.check_iff.mpr h)

/-- Parameters that break a constraint are refused. -/
theorem configure_of_not_legal {p : Parameters} (h : ¬ p.Legal) : p.configure = none :=
  dif_neg (mt p.check_iff.mp h)

theorem instantiate_of_legal {p : Parameters} (h : p.Legal) :
    instantiate p = some (coreOf { toParameters := p, legal := h }) := by
  rw [instantiate, configure_of_legal h, Option.map_some]

theorem instantiate_of_not_legal {p : Parameters} (h : ¬ p.Legal) : instantiate p = none := by
  rw [instantiate, configure_of_not_legal h, Option.map_none]

theorem instantiate_isSome_iff (p : Parameters) : (instantiate p).isSome = true ↔ p.Legal := by
  by_cases h : p.Legal
  · simp [instantiate_of_legal h, h]
  · simp [instantiate_of_not_legal h, h]

/-! ### The machine of the defaults -/

/-- The two machines differ only in the name of their step; that the steps agree is the one thing to prove. -/
theorem coreOf_block : coreOf block = Sys2Proof.core := by
  have hstep : stepOf (c := block) = step := (funext step_eq_stepOf).symm
  rw [coreOf, hstep]
  rfl

theorem instantiate_defaults :
    instantiate (defaultParameters openBaseHue openBaseSat openPulseSat) = some Sys2Proof.core := by
  rw [instantiate_of_legal (defaultParameters_legal ..)]
  exact congrArg some coreOf_block

/-! ### The least width (R5) -/

/-- A width holds the numbers `0..m` exactly when it is at least `bitsFor m`. -/
theorem bitsFor_le_iff {m k : Nat} : bitsFor m ≤ k ↔ m < 2 ^ k := by
  unfold bitsFor
  split
  · next h => simp [h]
  · next h => exact Nat.log2_lt h

/-! ### The obligation -/

/-- Settles O44: the constraints are those of `Parameters.Legal`, `bitsFor` is the least width, and the machine of the defaults
is `core` since their steps agree. -/
theorem onlyLegalParametersMakeABlock : Obligations.OnlyLegalParametersMakeABlock := by
  refine ⟨fun p => (instantiate_isSome_iff p).trans ⟨?_, ?_⟩,
    fun c => ⟨lt_two_pow_bitsFor c.adcMax, fun k => bitsFor_le_iff.mpr⟩,
    instantiate_defaults, block_one, block_half, block_sampleBits⟩
  · rintro ⟨ch, st, n, w, adc, fs, per, amp, hue, fb, len, first, last, range, mono, black⟩
    exact ⟨ch, st, n, w, adc, fs, per, amp, hue, fb, ⟨len, first, last, range, mono⟩, black⟩
  · rintro ⟨ch, st, n, w, adc, fs, per, amp, hue, fb, ⟨len, first, last, range, mono⟩, black⟩
    exact ⟨ch, st, n, w, adc, fs, per, amp, hue, fb, len, first, last, range, mono, black⟩

end Sys2Proof.Machine
end

section
/-! One step of the machine by what stands at the port, the state after reset, and the invariants of 10_state.md R35: that they
hold after reset, and that every operation, command, word and step keeps them. -/

namespace Sys2Proof.Machine

variable {c : Config}

/-! ### One step, by what the host has issued first -/

theorem advance_idle {ex : Instr → State c → Result c} {s : State c} (h : s.port = []) : advance ex s = .next s := by
  simp only [advance, accept, h]

theorem advance_reset {ex : Instr → State c → Result c} {s : State c} {rest : List HostEvent} (h : s.port = .reset :: rest) :
    advance ex s = .next (pulseReset { s with port := rest }) := by
  simp only [advance, accept, h]

theorem advance_command {ex : Instr → State c → Result c} {s : State c} {w : Word64} {rest : List HostEvent}
    (h : s.port = .command w :: rest) : advance ex s = obey ex w { s with port := rest } := by
  simp only [advance, accept, h]

/-- Settles O4: the word at the port is accepted, and a word that decodes is obeyed by executing its command. -/
theorem stepExecutesTheDecodedCommand : Obligations.StepExecutesTheDecodedCommand := by
  intro s w rest i hport hdecode
  rw [step, advance_command hport, obey_ok hdecode]

/-! ### After reset (R38) -/

/-- Settles O6: every channel and every strip is the one of the table. -/
theorem resetLeavesTheValuesOfTheTable : Obligations.ResetLeavesTheValuesOfTheTable := by
  refine ⟨fun ch i => ?hist, fun ch => ?registers, fun k i => ?pixel, fun k => ?readouts, rfl, rfl⟩
  case hist => rw [State.hist, channel_reset]; rfl
  case registers => simp only [State.cur, State.inited, State.sm, State.fr, channel_reset, Channel.reset, and_self]
  case pixel => rw [State.pix, stripe_reset]; rfl
  case readouts => simp [Strip.reset, Pixel.black]

theorem zero_cursor_lt (c : Config) : (0 : c.Cursor).toNat < c.w := by
  have hw : 0 < c.w := c.legal.w_range.1
  simpa using hw

theorem reset_channel_inv (c : Config) : (Channel.reset c).Inv where
  cur_lt := zero_cursor_lt c
  fr_le := by simp [Channel.reset]
  hist_wf := wf_nil
  hist_full := fun h => nomatch h

theorem reset_strip_inv (c : Config) : Strip.reset.Inv c where
  pix_wf := wf_nil
  lit_le := Nat.zero_le _
  per_range := .inl rfl
  amp_le := Nat.zero_le _
  phs_le := Nat.zero_le _
  pb_le := Nat.zero_le _

theorem reset_status_inv : Status.Inv { err := false, cause := 0 } := ⟨by decide, by decide⟩

theorem pulseReset_inv (s : State c) : (pulseReset s).Inv where
  channel ch := by rw [channel_pulseReset]; exact reset_channel_inv c
  stripe k := by rw [stripe_pulseReset]; exact reset_strip_inv c
  status := reset_status_inv

theorem resetOf_inv (c : Config) : (State.resetOf c).Inv := pulseReset_inv (State.resetOf c)

/-- Settles O7: the machine of the defaults starts where the block of the default configuration does. -/
theorem resetMeetsTheInvariants : Obligations.ResetMeetsTheInvariants := ⟨resetOf_inv block, resetOf_inv⟩

/-! ### What an operand that passes its check guarantees -/

theorem sampleOf_eq_ok {imm : BitVec 32} {x : c.Sample} (h : sampleOf c imm = .ok x) : x.toNat ≤ c.adcMax := by
  by_cases himm : imm.toNat ≤ c.adcMax
  · rw [sampleOf_ok himm, Except.ok.injEq] at h
    rwa [← h, sample_toNat himm]
  · rw [sampleOf_error himm] at h; cases h

theorem fractionOf_eq_ok {imm : BitVec 32} {f : c.Fraction} (h : fractionOf c imm = .ok f) : f.toNat ≤ c.one := by
  by_cases himm : imm.toNat ≤ c.one
  · rw [fractionOf_ok himm, Except.ok.injEq] at h
    rw [← h, BitVec.toNat_setWidth]
    exact (Nat.mod_le ..).trans himm
  · rw [fractionOf_error himm] at h; cases h

theorem pixelOf_eq_ok {idx : BitVec 16} {i : Nat} (h : pixelOf c idx = .ok i) : i < c.n := by
  by_cases hidx : idx.toNat < c.n
  · rw [pixelOf_ok hidx, Except.ok.injEq] at h
    rwa [← h]
  · rw [pixelOf_error hidx] at h; cases h

/-! ### The operations on a channel keep its invariants -/

theorem initChannel_inv {x : c.Sample} {k : Channel c} (hx : x.toNat ≤ c.adcMax) (h : k.Inv) : (initChannel c x k).Inv where
  cur_lt := zero_cursor_lt c
  fr_le := h.fr_le
  hist_wf := wf_fillHist x h.hist_wf
  hist_full _ i hi := ⟨x, by rw [initChannel_hist, if_pos hi], hx⟩

theorem observeChannel_inv {x : c.Sample} {k k' : Channel c} (hx : x.toNat ≤ c.adcMax) (h : k.Inv)
    (hobs : observeChannel c x k = some k') : k'.Inv := by
  obtain ⟨t, -, rfl⟩ := observeChannel_eq_some hobs
  have hcur : (k.cur.toNat + 1) % c.w < c.w := Nat.mod_lt _ c.legal.w_range.1
  refine { cur_lt := ?cursor, fr_le := h.fr_le, hist_wf := wf_putCell h.hist_wf h.cur_lt nofun, hist_full := ?full }
  case cursor => rwa [cursor_toNat hcur]
  case full =>
    intro hinited i hi
    rw [readCell_putCell]
    split
    · exact ⟨x, rfl, hx⟩
    · exact h.hist_full hinited i hi

theorem normChannel_inv {k : Channel c} (h : k.Inv) : (normChannel c k).Inv where
  cur_lt := h.cur_lt
  fr_le := by
    have hle := normalizeOf_le c k.sm.toInt
    rwa [normChannel_fr, fraction_toNat hle]
  hist_wf := h.hist_wf
  hist_full := h.hist_full

theorem setSm_inv {k : Channel c} (v : BitVec 16) (h : k.Inv) : { k with sm := v }.Inv :=
  ⟨h.cur_lt, h.fr_le, h.hist_wf, h.hist_full⟩

theorem setFr_inv {k : Channel c} {f : c.Fraction} (hf : f.toNat ≤ c.one) (h : k.Inv) : { k with fr := f }.Inv :=
  ⟨h.cur_lt, hf, h.hist_wf, h.hist_full⟩

/-! ### The operations on a strip keep its invariants -/

/-- A new buffer in canonical form, the read-out registers as they were. -/
theorem setPix_inv {t : Strip} {m : Memory Pixel} (h : t.Inv c) (hm : Memory.wf c.n (some Pixel.black) m) :
    { t with pix := m }.Inv c :=
  ⟨hm, h.lit_le, h.per_range, h.amp_le, h.phs_le, h.pb_le⟩

theorem clearStrip_inv {t : Strip} (h : t.Inv c) : (clearStrip c t).Inv c := setPix_inv h (clearStrip_wf c h.pix_wf)

theorem blendStrip_inv {t : Strip} (p : Pixel) (h : t.Inv c) : (blendStrip c p t).Inv c :=
  setPix_inv h (blendStrip_wf c p h.pix_wf)

theorem cascadeStrip_inv {t : Strip} (f : Nat) (h : t.Inv c) : (cascadeStrip c f t).Inv c where
  pix_wf := cascadeStrip_wf c f h.pix_wf
  lit_le := by
    rw [cascadeStrip_lit, BitVec.toNat_ofNat]
    exact (Nat.mod_le ..).trans (litCount_le c f)
  per_range := h.per_range
  amp_le := h.amp_le
  phs_le := h.phs_le
  pb_le := h.pb_le

/-- The period lies between its bounds (R131). -/
theorem periodOf_range {f : Nat} (hf : f ≤ c.one) : c.periodFast ≤ periodOf c f ∧ periodOf c f ≤ c.periodSlow := by
  have hrnd := rnd_le c (c.periodSlow - c.periodFast) hf
  obtain ⟨-, hfast, -⟩ := c.legal.period_range
  unfold periodOf
  omega

/-- The one place where the fraction must be at most 1.0: only then is the period in range, and do the period, the amplitude and
the brightness fit their registers. -/
theorem pulseStrip_inv {t : Strip} {f : Nat} (now : Nat) (hf : f ≤ c.one) (h : t.Inv c) : (pulseStrip c f now t).Inv c := by
  have hper := periodOf_range hf
  have hamp : amplitudeOf c f ≤ c.ampMax := rnd_le c c.ampMax hf
  have hphs := phaseOf_le c c.legal.sinq_range (angleIndex now (periodOf c f))
  have hpb := brightnessOf_le (a := amplitudeOf c f) hphs
  have hslow := c.legal.period_range.2.2
  have hmax := c.legal.ampMax_range
  refine { pix_wf := blendStrip_wf c _ h.pix_wf, lit_le := h.lit_le, per_range := .inr ?period, amp_le := ?amplitude,
           phs_le := ?phase, pb_le := ?brightness }
  case period =>
    rw [pulseStrip_per, pulseValues_per, BitVec.toNat_ofNat, Nat.mod_eq_of_lt (by omega)]
    exact hper
  case amplitude =>
    rw [pulseStrip_amp, pulseValues_amp, BitVec.toNat_ofNat]
    exact (Nat.mod_le ..).trans hamp
  case phase =>
    rw [pulseStrip_phs, pulseValues_phs, BitVec.toNat_ofNat]
    exact (Nat.mod_le ..).trans hphs
  case brightness =>
    rw [pulseStrip_pb, pulseStrip_amp, pulseValues_pb, pulseValues_amp, BitVec.toNat_ofNat, BitVec.toNat_ofNat,
      Nat.mod_eq_of_lt (by omega), Nat.mod_eq_of_lt (by omega)]
    exact hpb

theorem renderStrip_inv {t : Strip} {fp : Nat} (fc now : Nat) (hfp : fp ≤ c.one) (h : t.Inv c) :
    (renderStrip c fc fp now t).Inv c :=
  pulseStrip_inv now hfp (cascadeStrip_inv fc (clearStrip_inv h))

/-! ### The latch -/

/-- A first fault records its own code, 1 to 6; a later one records nothing (R191, R193). -/
theorem latchFault_inv (cause : Cause) {st : Status} (h : st.Inv) : (latchFault cause st).Inv := by
  cases herr : st.err with
  | true =>
    have hsame : latchFault cause st = st := by rw [latchFault, herr]; cases st; cases herr; rfl
    rwa [hsame]
  | false =>
    have hfirst : latchFault cause st = { err := true, cause := cause.code } := by rw [latchFault, herr]; rfl
    rw [hfirst]
    cases cause <;> exact ⟨by decide, by decide⟩

/-! ### The ways a command ends keep the invariants of the block -/

theorem takeFault_inv (cause : Cause) {s : State c} (h : s.Inv) : (takeFault cause s).Inv :=
  ⟨h.channel, h.stripe, latchFault_inv cause h.status⟩

theorem respond_inv (d : BitVec 32) {s : State c} (h : s.Inv) : (respond d s).Inv := ⟨h.channel, h.stripe, h.status⟩

theorem setPort_inv (p : List HostEvent) {s : State c} (h : s.Inv) : { s with port := p }.Inv :=
  ⟨h.channel, h.stripe, h.status⟩

theorem setChannel_inv {s : State c} {ch : ChannelId} {k : Channel c} (h : s.Inv) (hk : k.Inv) : (s.setChannel ch k).Inv where
  channel ch' := by
    rw [channel_setChannel]
    split
    · exact hk
    · exact h.channel ch'
  stripe := h.stripe
  status := h.status

theorem setStripe_inv {s : State c} {k : StripId} {t : Strip} (h : s.Inv) (ht : t.Inv c) : (s.setStripe k t).Inv where
  channel := h.channel
  stripe k' := by
    rw [stripe_setStripe]
    split
    · exact ht
    · exact h.stripe k'
  status := h.status

/-! ### Commands, words and steps -/

/-- The outcome leads only to states that meet the invariants. -/
def LeadsToInv (r : Result c) : Prop := ∀ t, r = .next t → t.Inv

theorem leadsToInv_next {t : State c} (h : t.Inv) : LeadsToInv (.next t) := by
  intro t' ht
  cases ht
  exact h

theorem leadsToInv_fault (r : Fault) : LeadsToInv (c := c) (.fault r) := nofun

theorem leadsToInv_answer (d : BitVec 32) {s : State c} (h : s.Inv) : LeadsToInv (.next (respond d s)) :=
  leadsToInv_next (respond_inv d h)

theorem leadsToInv_channel {s : State c} {ch : ChannelId} {k : Channel c} (d : BitVec 32) (h : s.Inv) (hk : k.Inv) :
    LeadsToInv (.next (respond d (s.setChannel ch k))) :=
  leadsToInv_answer d (setChannel_inv h hk)

theorem leadsToInv_strip {s : State c} {k : StripId} {t : Strip} (d : BitVec 32) (h : s.Inv) (ht : t.Inv c) :
    LeadsToInv (.next (respond d (s.setStripe k t))) :=
  leadsToInv_answer d (setStripe_inv h ht)

theorem leadsToInv_check {α : Type} {o : Except Cause α} {s : State c} {go : α → Result c} (h : s.Inv)
    (hgo : ∀ a, o = .ok a → LeadsToInv (go a)) : LeadsToInv (check o s go) :=
  check_all LeadsToInv (fun cause => leadsToInv_next (takeFault_inv cause h)) hgo

/-- Every command keeps the invariants: each writes a channel or a strip by an operation that keeps them, or neither. -/
theorem execute_keeps_inv (i : Instr) {s : State c} (h : s.Inv) : LeadsToInv (execute i s) := by
  cases i with
  | nop => exact leadsToInv_answer _ h
  | sminit =>
    exact leadsToInv_check h fun ch _ => leadsToInv_check h fun x hx =>
      leadsToInv_channel _ h (initChannel_inv (sampleOf_eq_ok hx) (h.channel ch))
  | smobs =>
    refine leadsToInv_check h fun ch _ => leadsToInv_check h fun x hx => leadsToInv_check h fun _ _ => ?_
    split
    · exact leadsToInv_fault _
    · next hobs => exact leadsToInv_channel _ h (observeChannel_inv (sampleOf_eq_ok hx) (h.channel ch) hobs)
  | rdhist =>
    refine leadsToInv_check h fun _ _ => leadsToInv_check h fun _ _ => leadsToInv_check h fun _ _ => ?_
    split
    · exact leadsToInv_fault _
    · exact leadsToInv_answer _ h
  | rdcur => exact leadsToInv_check h fun _ _ => leadsToInv_answer _ h
  | setsm =>
    exact leadsToInv_check h fun ch _ => leadsToInv_check h fun v _ => leadsToInv_channel _ h (setSm_inv v (h.channel ch))
  | rdsm => exact leadsToInv_check h fun _ _ => leadsToInv_answer _ h
  | norm => exact leadsToInv_check h fun ch _ => leadsToInv_channel _ h (normChannel_inv (h.channel ch))
  | setfr =>
    exact leadsToInv_check h fun ch _ => leadsToInv_check h fun f hf =>
      leadsToInv_channel _ h (setFr_inv (fractionOf_eq_ok hf) (h.channel ch))
  | rdfr => exact leadsToInv_check h fun _ _ => leadsToInv_answer _ h
  | clr => exact leadsToInv_check h fun k _ => leadsToInv_strip _ h (clearStrip_inv (h.stripe k))
  | casc => exact leadsToInv_check h fun k _ => leadsToInv_strip _ h (cascadeStrip_inv _ (h.stripe k))
  | pulse =>
    exact leadsToInv_check h fun k _ =>
      leadsToInv_strip _ h (pulseStrip_inv _ (h.channel (c.pulseCh k)).fr_le (h.stripe k))
  | qsin => exact leadsToInv_check h fun _ _ => leadsToInv_answer _ h
  | qhsv => exact leadsToInv_check h fun _ _ => leadsToInv_answer _ h
  | blend =>
    exact leadsToInv_check h fun k _ => leadsToInv_check h fun p _ => leadsToInv_strip _ h (blendStrip_inv p (h.stripe k))
  | setpix =>
    exact leadsToInv_check h fun k _ => leadsToInv_check h fun i hi => leadsToInv_check h fun p _ =>
      leadsToInv_strip _ h (setPix_inv (h.stripe k) (wf_writePix p (h.stripe k).pix_wf (pixelOf_eq_ok hi)))
  | rdpix => exact leadsToInv_check h fun _ _ => leadsToInv_check h fun _ _ => leadsToInv_answer _ h
  | render =>
    exact leadsToInv_check h fun k _ =>
      leadsToInv_strip _ h (renderStrip_inv _ _ (h.channel (c.pulseCh k)).fr_le (h.stripe k))
  | rddiag => exact leadsToInv_check h fun _ _ => leadsToInv_check h fun _ _ => leadsToInv_answer _ h
  | rdstat => exact leadsToInv_answer _ h

theorem obey_keeps_inv (w : Word64) {s : State c} (h : s.Inv) : LeadsToInv (obey execute w s) := by
  cases hw : decode w with
  | error cause => rw [obey_error hw]; exact leadsToInv_next (takeFault_inv cause h)
  | ok i => rw [obey_ok hw]; exact execute_keeps_inv i h

theorem stepOf_keeps_inv {s : State c} (h : s.Inv) : LeadsToInv (stepOf s) := by
  unfold stepOf
  rcases hport : s.port with _ | ⟨_ | _, rest⟩
  case nil => rw [advance_idle hport]; exact leadsToInv_next h
  case cons.command w => rw [advance_command hport]; exact obey_keeps_inv w (setPort_inv rest h)
  case cons.reset => rw [advance_reset hport]; exact leadsToInv_next (pulseReset_inv _)

/-- Settles O8: by cases on what the step accepts, and for a command on the command; the machine of the defaults takes the steps
of the block of the default configuration. -/
theorem stepKeepsTheInvariants : Obligations.StepKeepsTheInvariants :=
  ⟨fun s t h hstep => stepOf_keeps_inv h t (step_eq_stepOf s ▸ hstep), fun _ _ t h hstep => stepOf_keeps_inv h t hstep⟩

end Sys2Proof.Machine
end

section
/-! The model's own stop (log entry 4): where a slot to be read holds no value, the mean does not exist and the read stops. -/

namespace Sys2Proof.Machine

variable {c : Config}

/-- A selector that is the number of a channel passes check 3 as that channel. -/
theorem channelOf_eq_ok {sel : BitVec 4} {ch : ChannelId} (h : sel.toNat = ch.val) : channelOf sel = .ok ch := by
  have hlt : sel.toNat < 4 := h ▸ ch.isLt
  rw [channelOf_ok hlt, Except.ok.injEq, Fin.ext_iff]
  exact h

/-- An observation stops when a slot other than the one it writes holds no value. -/
theorem observeChannel_eq_none (x : c.Sample) {k : Channel c} {i : Nat} (hi : i < c.w) (hne : i ≠ k.cur.toNat)
    (hmissing : readCell k.hist i = none) : observeChannel c x k = none := by
  cases hobs : observeChannel c x k with
  | none => rfl
  | some k' =>
    obtain ⟨t, hsum, -⟩ := observeChannel_eq_some hobs
    have hfull := (slotSum_eq_some_iff _ _).mp (Option.isSome_of_eq_some hsum) i hi
    rw [readCell_putCell, if_neg hne.symm, hmissing] at hfull
    cases hfull

theorem execSmobs_stops {s : State c} {sel : BitVec 4} {imm : BitVec 32} {ch : ChannelId} {i : Nat} (hsel : sel.toNat = ch.val)
    (himm : imm.toNat ≤ c.adcMax) (hinited : s.inited ch = true) (hi : i < c.w) (hne : i ≠ (s.cur ch).toNat)
    (hmissing : s.hist ch i = none) : execSmobs sel imm s = .fault .historySlotEmpty := by
  simp only [execSmobs, channelOf_eq_ok hsel, sampleOf_ok himm, initedOf_ok hinited, check_ok,
    observeChannel_eq_none _ hi hne hmissing]

theorem execRdhist_stops {s : State c} {sel : BitVec 4} {idx : BitVec 16} {ch : ChannelId} (hsel : sel.toNat = ch.val)
    (hidx : idx.toNat < c.w) (hinited : s.inited ch = true) (hmissing : s.hist ch idx.toNat = none) :
    execRdhist sel idx s = .fault .historySlotEmpty := by
  simp only [execRdhist, channelOf_eq_ok hsel, slotOf_ok hidx, initedOf_ok hinited, check_ok, hmissing]

/-- Settles O19: all checks pass, and the slot is missing from the sum of `SMOBS` and from the read of `RDHIST`. -/
theorem readingASlotWithoutAValueStops : Obligations.ReadingASlotWithoutAValueStops := by
  intro s ch sel hsel hinited
  refine ⟨fun imm himm ⟨i, hi, hne, hmissing⟩ => ?_, fun idx hidx hmissing => ?_⟩
  · exact execSmobs_stops hsel himm hinited hi hne hmissing
  · exact execRdhist_stops hsel hidx hinited hmissing

end Sys2Proof.Machine
end

section
/-! No command reads or changes what the host goes on to issue; so a run is what the steps of the machine make of its words. -/

namespace Sys2Proof.Machine

variable {c : Config}

/-! ### Commands and words leave the port alone -/

@[simp] theorem channel_setPort (s : State c) (p : List HostEvent) (ch : ChannelId) :
    State.channel { s with port := p } ch = s.channel ch := rfl

@[simp] theorem hist_setPort (s : State c) (p : List HostEvent) (ch : ChannelId) (i : Nat) :
    State.hist { s with port := p } ch i = s.hist ch i := rfl

/-- The same outcome with `p` at the port. -/
def outcomeWithPort (p : List HostEvent) : Result c → Result c
  | .next t => .next { t with port := p }
  | .fault r => .fault r
  | .refused r => .refused r

theorem check_setPort {α : Type} {o : Except Cause α} {s : State c} {p : List HostEvent} {go go' : α → Result c}
    (hgo : ∀ a, go' a = outcomeWithPort p (go a)) : check o { s with port := p } go' = outcomeWithPort p (check o s go) := by
  cases o with
  | error cause => rfl
  | ok a => exact hgo a

/-- A command does the same whatever stands at the port behind it. -/
theorem execute_setPort (i : Instr) (s : State c) (p : List HostEvent) :
    execute i { s with port := p } = outcomeWithPort p (execute i s) := by
  cases i with
  | nop => rfl
  | sminit => exact check_setPort fun _ => check_setPort fun _ => rfl
  | smobs sel imm =>
    refine check_setPort fun ch => check_setPort fun x => check_setPort fun _ => ?_
    simp only [channel_setPort]
    cases observeChannel c x (s.channel ch) <;> rfl
  | rdhist sel idx =>
    refine check_setPort fun ch => check_setPort fun i => check_setPort fun _ => ?_
    simp only [hist_setPort]
    cases s.hist ch i <;> rfl
  | rdcur => exact check_setPort fun _ => rfl
  | setsm => exact check_setPort fun _ => check_setPort fun _ => rfl
  | rdsm => exact check_setPort fun _ => rfl
  | norm => exact check_setPort fun _ => rfl
  | setfr => exact check_setPort fun _ => check_setPort fun _ => rfl
  | rdfr => exact check_setPort fun _ => rfl
  | clr => exact check_setPort fun _ => rfl
  | casc => exact check_setPort fun _ => rfl
  | pulse => exact check_setPort fun _ => rfl
  | qsin => exact check_setPort fun _ => rfl
  | qhsv => exact check_setPort fun _ => rfl
  | blend => exact check_setPort fun _ => check_setPort fun _ => rfl
  | setpix => exact check_setPort fun _ => check_setPort fun _ => check_setPort fun _ => rfl
  | rdpix => exact check_setPort fun _ => check_setPort fun _ => rfl
  | render => exact check_setPort fun _ => rfl
  | rddiag => exact check_setPort fun _ => check_setPort fun _ => rfl
  | rdstat => rfl

theorem obey_setPort (w : Word64) (s : State c) (p : List HostEvent) :
    obey execute w { s with port := p } = outcomeWithPort p (obey execute w s) := by
  cases h : decode w with
  | error cause => rw [obey_error h, obey_error h]; rfl
  | ok i => rw [obey_ok h, obey_ok h, execute_setPort]

/-- A command word does not change what stands at the port. -/
theorem obey_port {w : Word64} {s t : State c} (h : obey execute w s = .next t) : t.port = s.port := by
  have hend := h ▸ obey_ends w s
  cases hend <;> rfl

/-! ### Runs and steps -/

theorem runsTo_nil_iff {s t : State c} : RunsTo s [] t ↔ s = t := by
  constructor
  · rintro ⟨⟩; rfl
  · rintro rfl; exact .done s

theorem runsTo_cons_iff {s t : State c} {w : Word64} {ws : List Word64} :
    RunsTo s (w :: ws) t ↔ ∃ u, obey execute w s = .next u ∧ RunsTo u ws t := by
  constructor
  · rintro (_ | ⟨hw, hws⟩); exact ⟨_, hw, hws⟩
  · rintro ⟨u, hw, hws⟩; exact .cons hw hws

/-- A run of the machine ends in a next state exactly when each of its steps answers one. -/
theorem coreRun_succ_iff (M : Host.Core) (k : Nat) (s t : M.State) :
    M.run (k + 1) s = .next t ↔ ∃ u, M.step s = .next u ∧ M.run k u = .next t := by
  rw [Host.Core.run]
  cases M.step s <;> simp

/-- The first step, where a word stands first at the port: its effect, with the rest at the port. -/
theorem stepOf_command_next_iff {s t : State c} {w : Word64} {rest : List HostEvent} :
    stepOf { s with port := .command w :: rest } = .next t ↔
      ∃ u, obey execute w s = .next u ∧ t = { u with port := rest } := by
  have hstep : stepOf { s with port := .command w :: rest } = outcomeWithPort rest (obey execute w s) :=
    (advance_command rfl).trans (obey_setPort w s rest)
  rw [hstep]
  cases obey execute w s <;> simp [outcomeWithPort, eq_comm]

/-- The steps that accept the words of a run, by induction on the words. -/
theorem coreOf_run_iff (ws : List Word64) (s t : State c) :
    (coreOf c).run ws.length { s with port := ws.map .command ++ s.port } = .next t ↔ RunsTo s ws t := by
  induction ws generalizing s with
  | nil => exact (Iff.of_eq (Host.Outcome.next.injEq s t)).trans runsTo_nil_iff.symm
  | cons w ws ih =>
    refine (coreRun_succ_iff (coreOf c) ws.length _ t).trans (Iff.trans ?_ runsTo_cons_iff.symm)
    constructor
    · rintro ⟨_, hstep, hrun⟩
      obtain ⟨u, hw, rfl⟩ := stepOf_command_next_iff.mp hstep
      rw [← obey_port hw] at hrun
      exact ⟨u, hw, (ih u).mp hrun⟩
    · rintro ⟨u, hw, hrun⟩
      refine ⟨{ u with port := ws.map .command ++ u.port }, ?_, (ih u).mpr hrun⟩
      exact stepOf_command_next_iff.mpr ⟨u, hw, by rw [obey_port hw]; rfl⟩

/-- The machine of the defaults runs as that of the default configuration, since their steps agree. -/
theorem core_run_eq (k : Nat) (s : State) : Sys2Proof.core.run k s = (coreOf block).run k s :=
  congrArg (β := Result block) (fun st => Host.Core.run ⟨State, Fault, Refusal, st, State.reset⟩ k s) (funext step_eq_stepOf)

/-- Settles O15: `coreOf_run_iff` for every configuration, the default one among them. -/
theorem runIsTheStepsThatAcceptItsWords : Obligations.RunIsTheStepsThatAcceptItsWords :=
  ⟨fun s t ws => (Iff.of_eq (congrArg (· = _) (core_run_eq ..))).trans (coreOf_run_iff ws s t),
    fun _ s t ws => coreOf_run_iff ws s t⟩

end Sys2Proof.Machine
end

section
/-! No command but `RDDIAG` depends on a read-out register (10_state.md R28 to R31): in states that differ in read-outs only, all
that a command reads is the same, and what it writes is computed from that. Memories are compared by what they read, since the
states need not be in the canonical form. -/

namespace Sys2Proof.Machine

open Sys2Proof.Statements

variable {c : Config}

/-! ### Memories that read the same -/

theorem slotSum_congr {n : Nat} {m m' : Memory (BitVec n)} (h : ∀ i, readCell m' i = readCell m i) (k : Nat) :
    slotSum m' k = slotSum m k := by
  induction k with
  | zero => rfl
  | succ k ih => simp only [slotSum, ih, h]

/-! ### Channels that read the same -/

/-- The two channels read the same, slot by slot and register by register. -/
structure SameReads (k k' : Channel c) : Prop where
  hist : ∀ i, readCell k'.hist i = readCell k.hist i
  cur : k'.cur = k.cur
  inited : k'.inited = k.inited
  sm : k'.sm = k.sm
  fr : k'.fr = k.fr

theorem sameChannel_iff (s t : State c) (ch : ChannelId) : SameChannel s t ch ↔ SameReads (s.channel ch) (t.channel ch) := by
  constructor
  · rintro ⟨hhist, hcur, hinited, hsm, hfr⟩; exact ⟨hhist, hcur, hinited, hsm, hfr⟩
  · rintro ⟨hhist, hcur, hinited, hsm, hfr⟩; exact ⟨hhist, hcur, hinited, hsm, hfr⟩

section
variable {k k' : Channel c} (h : SameReads k k')
include h

theorem initChannel_sameReads (x : c.Sample) : SameReads (initChannel c x k) (initChannel c x k') :=
  ⟨fun i => by rw [initChannel_hist, initChannel_hist, h.hist], rfl, rfl, rfl, h.fr⟩

theorem normChannel_sameReads : SameReads (normChannel c k) (normChannel c k') :=
  ⟨h.hist, h.cur, h.inited, h.sm, by rw [normChannel_fr, normChannel_fr, h.sm]⟩

theorem setSm_sameReads (v : BitVec 16) : SameReads { k with sm := v } { k' with sm := v } :=
  ⟨h.hist, h.cur, h.inited, rfl, h.fr⟩

theorem setFr_sameReads (f : c.Fraction) : SameReads { k with fr := f } { k' with fr := f } :=
  ⟨h.hist, h.cur, h.inited, h.sm, rfl⟩

/-- The mean is that of the same slots, so both observations go through or none does. -/
theorem observeChannel_sameReads {x : c.Sample} {l : Channel c} (hobs : observeChannel c x k = some l) :
    ∃ l', observeChannel c x k' = some l' ∧ SameReads l l' := by
  have hput (i : Nat) : readCell (putCell k'.hist k'.cur.toNat x) i = readCell (putCell k.hist k.cur.toNat x) i := by
    rw [readCell_putCell, readCell_putCell, h.hist, h.cur]
  obtain ⟨t, hsum, rfl⟩ := observeChannel_eq_some hobs
  have hmean : mean c (putCell k'.hist k'.cur.toNat x) = some (t / c.w) := by rw [mean, slotSum_congr hput, hsum]; rfl
  simp only [observeChannel, hmean, Option.some.injEq, exists_eq_left']
  exact ⟨hput, by rw [h.cur], h.inited, rfl, h.fr⟩

end

/-! ### Buffers that read the same -/

/-- The two strips read the same, pixel by pixel. -/
def SamePix (t t' : Strip) : Prop := ∀ i, readPix t'.pix i = readPix t.pix i

section
variable {t t' : Strip} (h : SamePix t t')
include h

theorem clearStrip_samePix : SamePix (clearStrip c t) (clearStrip c t') := fun i => by
  rw [clearStrip_pix, clearStrip_pix, h]

theorem cascadeStrip_samePix (f : Nat) : SamePix (cascadeStrip c f t) (cascadeStrip c f t') := fun i => by
  rw [cascadeStrip_pix, cascadeStrip_pix, h]

theorem blendStrip_samePix (p : Pixel) : SamePix (blendStrip c p t) (blendStrip c p t') := fun i => by
  rw [blendStrip_pix, blendStrip_pix, h]

theorem pulseStrip_samePix (f now : Nat) : SamePix (pulseStrip c f now t) (pulseStrip c f now t') := fun i => by
  rw [pulseStrip_pix, pulseStrip_pix, h]

theorem renderStrip_samePix (fc fp now : Nat) : SamePix (renderStrip c fc fp now t) (renderStrip c fc fp now t') :=
  pulseStrip_samePix (cascadeStrip_samePix (clearStrip_samePix h) fc) fp now

theorem writePix_samePix (i : Nat) (p : Pixel) :
    SamePix { t with pix := writePix t.pix i p } { t' with pix := writePix t'.pix i p } := fun j => by
  rw [readPix_writePix, readPix_writePix, h]

end

/-! ### Outcomes that differ in read-outs only -/

/-- Where the first outcome is a next state, so is the second, and the two differ in read-out registers only. -/
def SameOutcome (r r' : Result c) : Prop := ∀ t, r = .next t → ∃ t', r' = .next t' ∧ SameButReadouts t t'

theorem sameOutcome_next {t t' : State c} (h : SameButReadouts t t') : SameOutcome (.next t) (.next t') := by
  intro u hu
  cases hu
  exact ⟨t', rfl, h⟩

section
variable {s s' : State c} (h : SameButReadouts s s')
include h

theorem sameOutcome_answer {d d' : BitVec 32} (hd : d' = d) : SameOutcome (.next (respond d s)) (.next (respond d' s')) := by
  obtain ⟨hchan, hpix, hstatus, hport, -⟩ := h
  subst hd
  exact sameOutcome_next ⟨hchan, hpix, hstatus, hport, rfl⟩

theorem sameOutcome_channel {d d' : BitVec 32} (ch : ChannelId) {k k' : Channel c} (hd : d' = d) (hk : SameReads k k') :
    SameOutcome (.next (respond d (s.setChannel ch k))) (.next (respond d' (s'.setChannel ch k'))) := by
  obtain ⟨hchan, hpix, hstatus, hport, hrsp⟩ := h
  suffices hset : SameButReadouts (s.setChannel ch k) (s'.setChannel ch k') from sameOutcome_answer hset hd
  refine ⟨fun ch' => ?_, hpix, hstatus, hport, hrsp⟩
  rw [sameChannel_iff, channel_setChannel, channel_setChannel]
  split
  · exact hk
  · exact (sameChannel_iff s s' ch').mp (hchan ch')

theorem sameOutcome_strip {d d' : BitVec 32} (k : StripId) {t t' : Strip} (hd : d' = d) (ht : SamePix t t') :
    SameOutcome (.next (respond d (s.setStripe k t))) (.next (respond d' (s'.setStripe k t'))) := by
  obtain ⟨hchan, hpix, hstatus, hport, hrsp⟩ := h
  suffices hset : SameButReadouts (s.setStripe k t) (s'.setStripe k t') from sameOutcome_answer hset hd
  refine ⟨hchan, fun k' i => ?_, hstatus, hport, hrsp⟩
  rw [State.pix, State.pix, stripe_setStripe, stripe_setStripe]
  split
  · exact ht i
  · exact hpix k' i

theorem sameOutcome_check {α : Type} {o o' : Except Cause α} {go go' : α → Result c} (ho : o' = o)
    (hgo : ∀ a, SameOutcome (go a) (go' a)) : SameOutcome (check o s go) (check o' s' go') := by
  subst ho
  cases o' with
  | error cause =>
    obtain ⟨hchan, hpix, hstatus, hport, -⟩ := h
    exact sameOutcome_next ⟨hchan, hpix, congrArg (latchFault cause) hstatus, hport, rfl⟩
  | ok a => exact hgo a

/-! ### What a command reads is the same -/

theorem same_channel (ch : ChannelId) : SameReads (s.channel ch) (s'.channel ch) := by
  obtain ⟨hchan, -⟩ := h
  exact (sameChannel_iff s s' ch).mp (hchan ch)

theorem same_pix (k : StripId) : SamePix (s.stripe k) (s'.stripe k) := by
  obtain ⟨-, hpix, -⟩ := h
  exact hpix k

theorem same_status : s'.status = s.status := by
  obtain ⟨-, -, hstatus, -⟩ := h
  exact hstatus

theorem same_hist (ch : ChannelId) (i : Nat) : s'.hist ch i = s.hist ch i := (same_channel h ch).hist i

theorem same_fr (ch : ChannelId) : s'.fr ch = s.fr ch := (same_channel h ch).fr

theorem same_inited : s'.inited = s.inited := funext fun ch => (same_channel h ch).inited

theorem same_initedOf (ch : ChannelId) : initedOf s' ch = initedOf s ch := by
  rw [initedOf, initedOf, same_inited h]

theorem same_statusWord : statusWord s'.status s'.inited = statusWord s.status s.inited := by
  rw [same_inited h, same_status h]

end

/-- Every command but `RDDIAG` does the same in two states that differ in read-out registers only: what it reads is the same, and
so is what it writes. -/
theorem execute_sameOutcome {i : Instr} (hi : ∀ sel sub, i ≠ .rddiag sel sub) {s s' : State c} (h : SameButReadouts s s') :
    SameOutcome (execute i s) (execute i s') := by
  cases i with
  | nop => exact sameOutcome_answer h rfl
  | sminit =>
    exact sameOutcome_check h rfl fun ch => sameOutcome_check h rfl fun x =>
      sameOutcome_channel h ch rfl (initChannel_sameReads (same_channel h ch) x)
  | smobs sel imm =>
    refine sameOutcome_check h rfl fun ch => sameOutcome_check h rfl fun x =>
      sameOutcome_check h (same_initedOf h ch) fun _ => ?_
    cases hobs : observeChannel c x (s.channel ch) with
    | none => exact nofun
    | some l =>
      obtain ⟨l', hobs', hl⟩ := observeChannel_sameReads (same_channel h ch) hobs
      simp only [hobs']
      exact sameOutcome_channel h ch (congrArg _ hl.sm) hl
  | rdhist sel idx =>
    refine sameOutcome_check h rfl fun ch => sameOutcome_check h rfl fun j =>
      sameOutcome_check h (same_initedOf h ch) fun _ => ?_
    rw [same_hist h]
    cases s.hist ch j with
    | none => exact nofun
    | some v => exact sameOutcome_answer h rfl
  | rdcur => exact sameOutcome_check h rfl fun ch => sameOutcome_answer h (congrArg _ (same_channel h ch).cur)
  | setsm =>
    exact sameOutcome_check h rfl fun ch => sameOutcome_check h rfl fun v =>
      sameOutcome_channel h ch rfl (setSm_sameReads (same_channel h ch) v)
  | rdsm => exact sameOutcome_check h rfl fun ch => sameOutcome_answer h (congrArg _ (same_channel h ch).sm)
  | norm =>
    refine sameOutcome_check h rfl fun ch => ?_
    have hk := normChannel_sameReads (same_channel h ch)
    exact sameOutcome_channel h ch (congrArg _ hk.fr) hk
  | setfr =>
    exact sameOutcome_check h rfl fun ch => sameOutcome_check h rfl fun f =>
      sameOutcome_channel h ch rfl (setFr_sameReads (same_channel h ch) f)
  | rdfr => exact sameOutcome_check h rfl fun ch => sameOutcome_answer h (congrArg _ (same_fr h ch))
  | clr => exact sameOutcome_check h rfl fun k => sameOutcome_strip h k rfl (clearStrip_samePix (same_pix h k))
  | casc =>
    refine sameOutcome_check h rfl fun k => ?_
    rw [same_fr h]
    exact sameOutcome_strip h k rfl (cascadeStrip_samePix (same_pix h k) _)
  | pulse =>
    refine sameOutcome_check h rfl fun k => ?_
    rw [same_fr h]
    exact sameOutcome_strip h k rfl (pulseStrip_samePix (same_pix h k) _ _)
  | qsin => exact sameOutcome_check h rfl fun _ => sameOutcome_answer h rfl
  | qhsv => exact sameOutcome_check h rfl fun _ => sameOutcome_answer h rfl
  | blend =>
    exact sameOutcome_check h rfl fun k => sameOutcome_check h rfl fun p =>
      sameOutcome_strip h k rfl (blendStrip_samePix (same_pix h k) p)
  | setpix =>
    exact sameOutcome_check h rfl fun k => sameOutcome_check h rfl fun j => sameOutcome_check h rfl fun p =>
      sameOutcome_strip h k rfl (writePix_samePix (same_pix h k) j p)
  | rdpix =>
    exact sameOutcome_check h rfl fun k => sameOutcome_check h rfl fun j =>
      sameOutcome_answer h (congrArg packColour (same_pix h k j))
  | render =>
    refine sameOutcome_check h rfl fun k => ?_
    rw [same_fr h, same_fr h]
    exact sameOutcome_strip h k rfl (renderStrip_samePix (same_pix h k) _ _ _)
  | rddiag sel sub => exact absurd rfl (hi sel sub)
  | rdstat => exact sameOutcome_answer h (same_statusWord h)

/-- Settles O55: `execute_sameOutcome` at the given next state. -/
theorem noEffectDependsOnTheReadouts : Obligations.NoEffectDependsOnTheReadouts :=
  fun _ _ _ _ t hi h ht => execute_sameOutcome hi h t ht

end Sys2Proof.Machine
end

section
/-! Commands that read leave the state as it was, and commands that write fixed values can be repeated (20_memory.md R54). What a
command does is taken as a function `f` of the state, so that it can be run again in the state it led to. -/

namespace Sys2Proof.Machine

open Sys2Proof.Statements

variable {c : Config}

/-! ### The same again -/

theorem setChannel_setChannel (s : State c) (ch : ChannelId) (k k' : Channel c) :
    (s.setChannel ch k).setChannel ch k' = s.setChannel ch k' := by
  simp only [State.setChannel, Vector.set_set]

theorem setStripe_setStripe (s : State c) (k : StripId) (t t' : Strip) :
    (s.setStripe k t).setStripe k t' = s.setStripe k t' := by
  simp only [State.setStripe, Vector.set_set]

theorem setChannel_respond (s : State c) (d : BitVec 32) (ch : ChannelId) (k : Channel c) :
    (respond d s).setChannel ch k = respond d (s.setChannel ch k) := rfl

theorem setStripe_respond (s : State c) (d : BitVec 32) (k : StripId) (t : Strip) :
    (respond d s).setStripe k t = respond d (s.setStripe k t) := rfl

theorem respond_respond (s : State c) (d d' : BitVec 32) : respond d (respond d' s) = respond d s := rfl

/-- A fault repeated at once finds the latch set and keeps the code recorded there (R193). -/
theorem takeFault_takeFault (cause : Cause) (s : State c) : takeFault cause (takeFault cause s) = takeFault cause s := rfl

/-! ### Commands that write nothing -/

/-- The nine reads, and `NOP`. -/
def WritesNothing : Instr → Prop
  | .rdhist _ _ | .rdcur _ | .rdsm _ | .rdfr _ | .rdpix _ _ | .rddiag _ _ | .rdstat | .qhsv _ | .qsin _ | .nop => True
  | _ => False

/-- Nothing is changed but the response, and by a fault the latch. -/
inductive Untouched (s : State c) : State c → Prop where
  | fault (cause : Cause) : Untouched s (takeFault cause s)
  | answer (d : BitVec 32) : Untouched s (respond d s)

/-- Where `f` leads from `s`, nothing is touched, and `f` leads there again. -/
def ReadsOnly (f : State c → Result c) (s : State c) : Prop := ∀ t, f s = .next t → Untouched s t ∧ f t = .next t

section
variable {s : State c}

theorem readsOnly_answer {d : State c → BitVec 32} (hd : ∀ x, d (respond x s) = d s) :
    ReadsOnly (fun s => .next (respond (d s) s)) s := by
  rintro _ ⟨⟩
  exact ⟨.answer _, congrArg (fun x => Host.Outcome.next (respond x s)) (hd _)⟩

/-- A check that neither the response nor the latch can change. -/
theorem readsOnly_check {α : Type} {o : State c → Except Cause α} {go : State c → α → Result c}
    (ho : ∀ t, Untouched s t → o t = o s) (hgo : ∀ a, ReadsOnly (go · a) s) :
    ReadsOnly (fun s => check (o s) s (go s)) s := by
  intro t ht
  rcases check_next ht with ⟨cause, hcause, rfl⟩ | ⟨a, ha, hnext⟩
  · have hagain : o (takeFault cause s) = .error cause := (ho _ (.fault cause)).trans hcause
    exact ⟨.fault cause, by simp only [hagain, check_error, takeFault_takeFault]⟩
  · obtain ⟨huntouched, hrepeat⟩ := hgo a t hnext
    have hagain : o t = .ok a := (ho t huntouched).trans ha
    exact ⟨huntouched, by simp only [hagain, check_ok, hrepeat]⟩

/-- A check of an operand, which is no part of the state. -/
theorem readsOnly_operand {α : Type} {o : Except Cause α} {go : State c → α → Result c}
    (hgo : ∀ a, ReadsOnly (go · a) s) : ReadsOnly (fun s => check o s (go s)) s :=
  readsOnly_check (o := fun _ => o) (fun _ _ => rfl) hgo

end

/-- A command that writes nothing can only answer or fault, and then answers or faults the same again. -/
theorem execute_readsOnly {i : Instr} (hi : WritesNothing i) (s : State c) : ReadsOnly (execute i) s := by
  cases i with
  | nop => exact readsOnly_answer fun _ => rfl
  | rdhist sel idx =>
    refine readsOnly_operand fun ch => readsOnly_operand fun j =>
      readsOnly_check (fun _ ht => by cases ht <;> rfl) fun _ => ?_
    intro t ht
    cases hv : s.hist ch j with
    | none => simp only [hv, reduceCtorEq] at ht
    | some v =>
      simp only [hv, Host.Outcome.next.injEq] at ht
      subst ht
      refine ⟨.answer _, ?_⟩
      have hagain : (respond (v.setWidth 32) s).hist ch j = some v := hv
      simp only [hagain]
      rfl
  | rdcur => exact readsOnly_operand fun _ => readsOnly_answer fun _ => rfl
  | rdsm => exact readsOnly_operand fun _ => readsOnly_answer fun _ => rfl
  | rdfr => exact readsOnly_operand fun _ => readsOnly_answer fun _ => rfl
  | qsin => exact readsOnly_operand fun _ => readsOnly_answer fun _ => rfl
  | qhsv => exact readsOnly_operand fun _ => readsOnly_answer fun _ => rfl
  | rdpix => exact readsOnly_operand fun _ => readsOnly_operand fun _ => readsOnly_answer fun _ => rfl
  | rddiag => exact readsOnly_operand fun _ => readsOnly_operand fun _ => readsOnly_answer fun _ => rfl
  | rdstat => exact readsOnly_answer fun _ => rfl
  | _ => exact hi.elim

/-! ### O54 -/

theorem sameAll_respond (d : BitVec 32) (s : State c) : SameAll s (respond d s) :=
  ⟨fun _ => ⟨fun _ => rfl, rfl, rfl, rfl, rfl⟩, fun _ => ⟨fun _ => rfl, rfl, rfl, rfl, rfl, rfl, rfl, rfl, rfl⟩, rfl, rfl⟩

/-- Settles O54: a read touches nothing, and its response excludes that it has faulted. -/
theorem readsChangeNothing : Obligations.ReadsChangeNothing := by
  intro c i s t d hi ht hrsp
  have hread : WritesNothing i := by
    rcases hi with ⟨_, _, rfl⟩ | ⟨_, rfl⟩ | ⟨_, rfl⟩ | ⟨_, rfl⟩ | ⟨_, _, rfl⟩ | ⟨_, _, rfl⟩ | rfl | ⟨_, rfl⟩ | ⟨_, rfl⟩ <;>
      trivial
  obtain ⟨huntouched, hrepeat⟩ := execute_readsOnly hread s t ht
  refine ⟨?_, hrepeat⟩
  cases huntouched with
  | fault cause => rw [rsp_takeFault] at hrsp; cases hrsp
  | answer d' => exact sameAll_respond d' s

/-! ### Commands that can be repeated -/

/-- Where `f` leads from `s`, it leads again. -/
def Repeats (f : State c → Result c) (s : State c) : Prop := ∀ t, f s = .next t → f t = .next t

theorem repeats_of_writesNothing {i : Instr} (hi : WritesNothing i) (s : State c) : Repeats (execute i) s :=
  fun t ht => (execute_readsOnly hi s t ht).2

section
variable {s : State c}

/-- A check of an operand, which is no part of the state: it fails again or passes again. -/
theorem repeats_operand {α : Type} {o : Except Cause α} {go : State c → α → Result c}
    (hgo : ∀ a, o = .ok a → Repeats (go · a) s) : Repeats (fun s => check o s (go s)) s := by
  intro t ht
  rcases check_next ht with ⟨cause, rfl, rfl⟩ | ⟨a, rfl, hnext⟩
  · rfl
  · exact hgo a rfl t hnext

/-- Replacing a channel by what an operation makes of it, and that again by the same. -/
theorem repeats_channel {ch : ChannelId} {g : Channel c → Channel c} (d : Channel c → BitVec 32)
    (hg : g (g (s.channel ch)) = g (s.channel ch)) :
    Repeats (fun s => .next (respond (d (g (s.channel ch))) (s.setChannel ch (g (s.channel ch))))) s := by
  rintro _ ⟨⟩
  dsimp only
  rw [channel_respond, channel_setChannel_self, hg, setChannel_respond, respond_respond, setChannel_setChannel]

/-- Replacing a strip by what an operation makes of it, and that again by the same; what the operation takes from the state is
not in the strip. -/
theorem repeats_strip {k : StripId} {g : State c → Strip → Strip} (d : Strip → BitVec 32)
    (hkeep : ∀ x t, g (respond x (s.setStripe k t)) = g s) (hg : g s (g s (s.stripe k)) = g s (s.stripe k)) :
    Repeats (fun s => .next (respond (d (g s (s.stripe k))) (s.setStripe k (g s (s.stripe k))))) s := by
  rintro _ ⟨⟩
  dsimp only
  rw [hkeep, stripe_respond, stripe_setStripe_self, hg, setStripe_respond, respond_respond, setStripe_setStripe]

end

/-! ### Operations that can be repeated -/

theorem initChannel_initChannel (x : c.Sample) {k : Channel c} (h : k.Inv) :
    initChannel c x (initChannel c x k) = initChannel c x k := by
  have hwf := wf_fillHist x h.hist_wf
  have hhist : fillHist c.w x (fillHist c.w x k.hist) = fillHist c.w x k.hist :=
    wf_ext (wf_fillHist x hwf) hwf fun i => by
      rw [readCell_fillHist, readCell_fillHist]
      split <;> rfl
  exact congrArg (fun m => { initChannel c x k with hist := m }) hhist

theorem normChannel_normChannel (k : Channel c) : normChannel c (normChannel c k) = normChannel c k := rfl

/-- Strips with the same read-outs whose canonical buffers read the same are the same. -/
theorem strip_ext {t t' : Strip} (h : Memory.wf c.n (some Pixel.black) t.pix)
    (h' : Memory.wf c.n (some Pixel.black) t'.pix) (hpix : ∀ i, readPix t.pix i = readPix t'.pix i)
    (hread : { t with pix := t'.pix } = t') : t = t' := by
  rw [← hread, ← pix_ext h h' hpix]

theorem clearStrip_clearStrip {t : Strip} (h : t.Inv c) : clearStrip c (clearStrip c t) = clearStrip c t := by
  have hwf := clearStrip_wf c h.pix_wf
  refine strip_ext (clearStrip_wf c hwf) hwf (fun i => ?_) rfl
  rw [clearStrip_pix, clearStrip_pix]
  split <;> rfl

theorem cascadeStrip_cascadeStrip (f : Nat) {t : Strip} (h : t.Inv c) :
    cascadeStrip c f (cascadeStrip c f t) = cascadeStrip c f t := by
  have hwf := cascadeStrip_wf c f h.pix_wf
  refine strip_ext (cascadeStrip_wf c f hwf) hwf (fun i => ?_) rfl
  rw [cascadeStrip_pix, cascadeStrip_pix]
  split <;> rfl

theorem setPix_setPix {i : Nat} (hi : i < c.n) (p : Pixel) {t : Strip} (h : t.Inv c) :
    { t with pix := writePix (writePix t.pix i p) i p } = { t with pix := writePix t.pix i p } := by
  have hwf := wf_writePix p h.pix_wf hi
  refine strip_ext (wf_writePix p hwf hi) hwf (fun j => ?_) rfl
  rw [readPix_writePix, readPix_writePix]
  split <;> rfl

/-- What `RENDER` leaves in a pixel: it starts from black, so nothing of the old strip stays below `N`. -/
theorem renderStrip_pix (c : Config) (fc fp now : Nat) (t : Strip) (i : Nat) :
    readPix (renderStrip c fc fp now t).pix i =
      if i < c.n then
        satadd (if c.n - litCount c fc ≤ i then baseRgb c else Pixel.black) (pulseValues c fp now).pcol
      else readPix t.pix i := by
  rw [renderStrip, pulseStrip_pix, cascadeStrip_pix, clearStrip_pix]
  by_cases hi : i < c.n <;> simp [hi]

theorem renderStrip_wf (c : Config) (fc fp now : Nat) {t : Strip} (h : Memory.wf c.n (some Pixel.black) t.pix) :
    Memory.wf c.n (some Pixel.black) (renderStrip c fc fp now t).pix :=
  blendStrip_wf c _ (cascadeStrip_wf c fc (clearStrip_wf c h))

theorem renderStrip_renderStrip (fc fp now : Nat) {t : Strip} (h : t.Inv c) :
    renderStrip c fc fp now (renderStrip c fc fp now t) = renderStrip c fc fp now t := by
  have hwf := renderStrip_wf c fc fp now h.pix_wf
  refine strip_ext (renderStrip_wf c fc fp now hwf) hwf (fun i => ?_) rfl
  rw [renderStrip_pix, renderStrip_pix]
  split <;> rfl

/-! ### O53 -/

/-- Every command but `SMOBS`, `PULSE` and `BLEND` can be repeated: it writes nothing, or what it writes does not depend on what
was there. -/
theorem execute_repeats {i : Instr} (hi : ∀ sel imm, i ≠ .smobs sel imm ∧ i ≠ .pulse sel imm ∧ i ≠ .blend sel imm)
    {s : State c} (h : s.Inv) : Repeats (execute i) s := by
  cases i with
  | nop | rdhist | rdcur | rdsm | rdfr | qsin | qhsv | rdpix | rddiag | rdstat =>
    exact repeats_of_writesNothing (by trivial) s
  | sminit =>
    exact repeats_operand fun ch _ => repeats_operand fun x _ =>
      repeats_channel (fun _ => x.setWidth 32) (initChannel_initChannel x (h.channel ch))
  | smobs sel imm => exact absurd rfl (hi sel imm).1
  | setsm =>
    exact repeats_operand fun ch _ => repeats_operand fun v _ =>
      repeats_channel (g := fun k => { k with sm := v }) (fun _ => 0) rfl
  | norm => exact repeats_operand fun ch _ => repeats_channel (fun k => k.fr.setWidth 32) (normChannel_normChannel _)
  | setfr =>
    exact repeats_operand fun ch _ => repeats_operand fun f _ =>
      repeats_channel (g := fun k => { k with fr := f }) (fun _ => 0) rfl
  | clr =>
    exact repeats_operand fun k _ =>
      repeats_strip (g := fun _ => clearStrip c) (fun _ => 0) (fun _ _ => rfl) (clearStrip_clearStrip (h.stripe k))
  | casc =>
    exact repeats_operand fun k _ =>
      repeats_strip (g := fun s => cascadeStrip c (s.fr (c.cascCh k)).toNat) (fun t => t.lit.setWidth 32) (fun _ _ => rfl)
        (cascadeStrip_cascadeStrip _ (h.stripe k))
  | pulse sel imm => exact absurd rfl (hi sel imm).2.1
  | blend sel imm => exact absurd rfl (hi sel imm).2.2
  | setpix =>
    exact repeats_operand fun k _ => repeats_operand fun i hi => repeats_operand fun p _ =>
      repeats_strip (g := fun _ t => { t with pix := writePix t.pix i p }) (fun _ => 0) (fun _ _ => rfl)
        (setPix_setPix (pixelOf_eq_ok hi) p (h.stripe k))
  | render sel imm =>
    exact repeats_operand fun k _ =>
      repeats_strip (g := fun s => renderStrip c (s.fr (c.cascCh k)).toNat (s.fr (c.pulseCh k)).toNat imm.toNat)
        (fun t => t.pb.setWidth 32) (fun _ _ => rfl) (renderStrip_renderStrip _ _ _ (h.stripe k))

/-- Settles O53: `execute_repeats` at the given next state. -/
theorem repeatingAnIdempotentCommandChangesNothing : Obligations.RepeatingAnIdempotentCommandChangesNothing :=
  fun _ _ _ t h hi ht => execute_repeats hi h t ht

end Sys2Proof.Machine
end

section
/-! What a command may write, by the definitions of the statements (20_memory.md R60, R62, 40_smoother.md R99): each command
writes one channel or one strip, or neither, and of it only what its rule names. -/

namespace Sys2Proof.Machine

open Sys2Proof.Statements

/-! ### What an operand that passes its check is -/

theorem toNat_of_channelOf {sel : BitVec 4} {ch : ChannelId} (h : channelOf sel = .ok ch) : sel.toNat = ch.val := by
  by_cases hsel : sel.toNat < 4
  · rw [channelOf_ok hsel, Except.ok.injEq] at h
    rw [← h]
  · rw [channelOf_error hsel] at h; cases h

theorem toNat_of_stripOf {sel : BitVec 4} {k : StripId} (h : stripOf sel = .ok k) : sel.toNat = k.val := by
  by_cases hsel : sel.toNat < 2
  · rw [stripOf_ok hsel, Except.ok.injEq] at h
    rw [← h]
  · rw [stripOf_error hsel] at h; cases h

theorem toNat_of_pixelOf {c : Config} {idx : BitVec 16} {i : Nat} (h : pixelOf c idx = .ok i) : idx.toNat = i := by
  by_cases hidx : idx.toNat < c.n
  · rwa [pixelOf_ok hidx, Except.ok.injEq] at h
  · rw [pixelOf_error hidx] at h; cases h

/-- `litCount` at the defaults (R120). -/
theorem litCount_block (f : Nat) : litCount block f = litOf f := by
  rw [litCount, clamp_zero, rnd, block_half, block_one]
  rfl

/-! ### Frames -/

/-- Of the channel `ch`, changed from `k` to `k'`, only what the command `i` may write in the state `s` differs. -/
structure ChannelFrame (i : Instr) (s : State) (ch : ChannelId) (k k' : Channel block) : Prop where
  hist : ∀ j, ¬WritesSlot i s ch j → readCell k'.hist j = readCell k.hist j
  cur : ¬WritesCur i ch → k'.cur = k.cur
  inited : ¬WritesInited i ch → k'.inited = k.inited
  sm : ¬WritesSm i ch → k'.sm = k.sm
  fr : ¬WritesFr i ch → k'.fr = k.fr

/-- The pulse read-outs of the two strips are the same. -/
structure SamePulseReadouts (t t' : Strip) : Prop where
  hue : t'.hue = t.hue
  per : t'.per = t.per
  amp : t'.amp = t.amp
  ang : t'.ang = t.ang
  phs : t'.phs = t.phs
  pb : t'.pb = t.pb
  pcol : t'.pcol = t.pcol

/-- Of the strip `k`, changed from `t` to `t'`, only what the command `i` may write in the state `s` differs. -/
structure StripFrame (i : Instr) (s : State) (k : StripId) (t t' : Strip) : Prop where
  pix : ∀ j, ¬WritesPixel i s k j → readPix t'.pix j = readPix t.pix j
  lit : ¬WritesLit i k → t'.lit = t.lit
  pulse : ¬WritesPulse i k → SamePulseReadouts t t'

/-- Between `s` and `t` only what the command `i` may write in the state `s` differs, and the latch only by a fault. -/
structure StateFrame (i : Instr) (s t : State) : Prop where
  channel : ∀ ch, ChannelFrame i s ch (s.channel ch) (t.channel ch)
  stripe : ∀ k, StripFrame i s k (s.stripe k) (t.stripe k)
  status : t.status = s.status ∨ t.rsp = some { err := true, data := 0 }
  port : t.port = s.port

/-- Where the outcome `r` is a next state, it keeps the frame of the command `i`. -/
def Framed (i : Instr) (s : State) (r : Result block) : Prop := ∀ t, r = .next t → StateFrame i s t

section
variable (i : Instr) (s : State)

theorem channelFrame_refl (ch : ChannelId) (k : Channel block) : ChannelFrame i s ch k k :=
  ⟨fun _ _ => rfl, fun _ => rfl, fun _ => rfl, fun _ => rfl, fun _ => rfl⟩

theorem stripFrame_refl (k : StripId) (t : Strip) : StripFrame i s k t t :=
  ⟨fun _ _ => rfl, fun _ => rfl, fun _ => ⟨rfl, rfl, rfl, rfl, rfl, rfl, rfl⟩⟩

theorem framed_fault (cause : Cause) : Framed i s (.next (takeFault cause s)) := by
  rintro _ ⟨⟩
  exact ⟨fun _ => channelFrame_refl .., fun _ => stripFrame_refl .., .inr rfl, rfl⟩

theorem framed_answer (d : BitVec 32) : Framed i s (.next (respond d s)) := by
  rintro _ ⟨⟩
  exact ⟨fun _ => channelFrame_refl .., fun _ => stripFrame_refl .., .inl rfl, rfl⟩

end

section
variable {i : Instr} {s : State}

theorem framed_stop : Framed i s (.fault .historySlotEmpty) := nofun

theorem framed_channel {ch : ChannelId} {k : Channel block} (d : BitVec 32) (hk : ChannelFrame i s ch (s.channel ch) k) :
    Framed i s (.next (respond d (s.setChannel ch k))) := by
  rintro _ ⟨⟩
  refine ⟨fun ch' => ?_, fun _ => stripFrame_refl .., .inl rfl, rfl⟩
  rw [channel_respond, channel_setChannel]
  split
  · next h => rw [h]; exact hk
  · exact channelFrame_refl ..

theorem framed_strip {k : StripId} {t : Strip} (d : BitVec 32) (ht : StripFrame i s k (s.stripe k) t) :
    Framed i s (.next (respond d (s.setStripe k t))) := by
  rintro _ ⟨⟩
  refine ⟨fun _ => channelFrame_refl .., fun k' => ?_, .inl rfl, rfl⟩
  rw [stripe_respond, stripe_setStripe]
  split
  · next h => rw [h]; exact ht
  · exact stripFrame_refl ..

theorem framed_check {α : Type} {o : Except Cause α} {go : α → Result block} (hgo : ∀ a, o = .ok a → Framed i s (go a)) :
    Framed i s (check o s go) :=
  check_all (Framed i s) (framed_fault i s) hgo

end

/-! ### The channel of each command that writes one -/

section
variable {s : State} {sel : BitVec 4} {ch : ChannelId} (hsel : sel.toNat = ch.val) (imm : BitVec 32) (k : Channel block)
include hsel

theorem sminit_frame (x : block.Sample) : ChannelFrame (.sminit sel imm) s ch k (initChannel block x k) where
  hist j hj := by
    have hout : ¬j < block.w := fun hlt => hj ⟨hsel, hlt⟩
    rw [initChannel_hist, if_neg hout]
  cur h := absurd hsel h
  inited h := absurd hsel h
  sm h := absurd hsel h
  fr _ := rfl

theorem smobs_frame {x : block.Sample} {k : Channel block} (hobs : observeChannel block x (s.channel ch) = some k) :
    ChannelFrame (.smobs sel imm) s ch (s.channel ch) k := by
  obtain ⟨t, -, rfl⟩ := observeChannel_eq_some hobs
  refine ⟨fun j hj => ?_, fun h => absurd hsel h, fun _ => rfl, fun h => absurd hsel h, fun _ => rfl⟩
  exact (readCell_putCell ..).trans (if_neg fun hcur => hj ⟨hsel, hcur.symm⟩)

theorem setsm_frame (v : BitVec 16) : ChannelFrame (.setsm sel imm) s ch k { k with sm := v } :=
  { channelFrame_refl _ s ch k with sm := fun h => absurd hsel h }

theorem norm_frame : ChannelFrame (.norm sel) s ch k (normChannel block k) :=
  { channelFrame_refl _ s ch k with fr := fun h => absurd hsel h }

theorem setfr_frame (f : block.Fraction) : ChannelFrame (.setfr sel imm) s ch k { k with fr := f } :=
  { channelFrame_refl _ s ch k with fr := fun h => absurd hsel h }

end

/-! ### The strip of each command that writes one -/

theorem clearStrip_samePulse (c : Config) (t : Strip) : SamePulseReadouts t (clearStrip c t) :=
  ⟨rfl, rfl, rfl, rfl, rfl, rfl, rfl⟩

theorem cascadeStrip_samePulse (c : Config) (f : Nat) (t : Strip) : SamePulseReadouts t (cascadeStrip c f t) :=
  ⟨rfl, rfl, rfl, rfl, rfl, rfl, rfl⟩

theorem blendStrip_samePulse (c : Config) (p : Pixel) (t : Strip) : SamePulseReadouts t (blendStrip c p t) :=
  ⟨rfl, rfl, rfl, rfl, rfl, rfl, rfl⟩

section
variable {s : State} {sel : BitVec 4} {k : StripId} (hsel : sel.toNat = k.val) (imm : BitVec 32) (t : Strip)
include hsel

theorem clr_frame : StripFrame (.clr sel) s k t (clearStrip block t) where
  pix j hj := by
    have hout : ¬j < block.n := fun hlt => hj ⟨hsel, hlt⟩
    rw [clearStrip_pix, if_neg hout]
  lit _ := clearStrip_lit block t
  pulse _ := clearStrip_samePulse block t

theorem casc_frame : StripFrame (.casc sel) s k t (cascadeStrip block (s.fr (block.cascCh k)).toNat t) where
  pix j hj := by
    have hout : ¬(block.n - litCount block (s.fr (block.cascCh k)).toNat ≤ j ∧ j < block.n) := by
      rw [litCount_block]
      exact fun ⟨hlo, hlt⟩ => hj ⟨hsel, hlo, hlt⟩
    rw [cascadeStrip_pix, if_neg hout]
  lit h := absurd hsel h
  pulse _ := cascadeStrip_samePulse block _ t

theorem pulse_frame (f now : Nat) : StripFrame (.pulse sel imm) s k t (pulseStrip block f now t) where
  pix j hj := by
    have hout : ¬j < block.n := fun hlt => hj ⟨hsel, hlt⟩
    rw [pulseStrip_pix, if_neg hout]
  lit _ := pulseStrip_lit block f now t
  pulse h := absurd hsel h

theorem blend_frame (p : Pixel) : StripFrame (.blend sel imm) s k t (blendStrip block p t) where
  pix j hj := by
    have hout : ¬j < block.n := fun hlt => hj ⟨hsel, hlt⟩
    rw [blendStrip_pix, if_neg hout]
  lit _ := blendStrip_lit block p t
  pulse _ := blendStrip_samePulse block p t

theorem setpix_frame (idx : BitVec 16) (p : Pixel) :
    StripFrame (.setpix sel idx imm) s k t { t with pix := writePix t.pix idx.toNat p } where
  pix j hj := by rw [readPix_writePix, if_neg fun h => hj ⟨hsel, h.symm⟩]
  lit _ := rfl
  pulse _ := ⟨rfl, rfl, rfl, rfl, rfl, rfl, rfl⟩

theorem render_frame (fc fp now : Nat) : StripFrame (.render sel imm) s k t (renderStrip block fc fp now t) where
  pix j hj := by
    have hout : ¬j < block.n := fun hlt => hj ⟨hsel, hlt⟩
    rw [renderStrip_pix, if_neg hout]
  lit h := absurd hsel h
  pulse h := absurd hsel h

end

/-! ### O11 -/

/-- Every command keeps its frame: its selector names the channel or the strip that it writes. -/
theorem execute_framed (i : Instr) (s : State) : Framed i s (execute i s) := by
  cases i with
  | nop => exact framed_answer _ _ _
  | sminit sel imm =>
    exact framed_check fun ch hch => framed_check fun x _ =>
      framed_channel _ (sminit_frame (toNat_of_channelOf hch) imm _ x)
  | smobs sel imm =>
    refine framed_check fun ch hch => framed_check fun x _ => framed_check fun _ _ => ?_
    split
    · exact framed_stop
    · next hobs => exact framed_channel _ (smobs_frame (toNat_of_channelOf hch) imm hobs)
  | rdhist =>
    refine framed_check fun _ _ => framed_check fun _ _ => framed_check fun _ _ => ?_
    split
    · exact framed_stop
    · exact framed_answer _ _ _
  | rdcur => exact framed_check fun _ _ => framed_answer _ _ _
  | setsm sel imm =>
    exact framed_check fun ch hch => framed_check fun v _ =>
      framed_channel _ (setsm_frame (toNat_of_channelOf hch) imm _ v)
  | rdsm => exact framed_check fun _ _ => framed_answer _ _ _
  | norm => exact framed_check fun ch hch => framed_channel _ (norm_frame (toNat_of_channelOf hch) _)
  | setfr sel imm =>
    exact framed_check fun ch hch => framed_check fun f _ =>
      framed_channel _ (setfr_frame (toNat_of_channelOf hch) imm _ f)
  | rdfr => exact framed_check fun _ _ => framed_answer _ _ _
  | clr => exact framed_check fun k hk => framed_strip _ (clr_frame (toNat_of_stripOf hk) _)
  | casc => exact framed_check fun k hk => framed_strip _ (casc_frame (toNat_of_stripOf hk) _)
  | pulse sel imm => exact framed_check fun k hk => framed_strip _ (pulse_frame (toNat_of_stripOf hk) imm _ _ _)
  | qsin => exact framed_check fun _ _ => framed_answer _ _ _
  | qhsv => exact framed_check fun _ _ => framed_answer _ _ _
  | blend sel imm =>
    exact framed_check fun k hk => framed_check fun p _ => framed_strip _ (blend_frame (toNat_of_stripOf hk) imm _ p)
  | setpix sel idx imm =>
    refine framed_check fun k hk => framed_check fun j hj => framed_check fun p _ => ?_
    obtain rfl := toNat_of_pixelOf hj
    exact framed_strip _ (setpix_frame (toNat_of_stripOf hk) imm _ idx p)
  | rdpix => exact framed_check fun _ _ => framed_check fun _ _ => framed_answer _ _ _
  | render sel imm => exact framed_check fun k hk => framed_strip _ (render_frame (toNat_of_stripOf hk) imm _ _ _ _)
  | rddiag => exact framed_check fun _ _ => framed_check fun _ _ => framed_answer _ _ _
  | rdstat => exact framed_answer _ _ _

/-- Settles O11: `execute_framed` at the given next state, field by field. -/
theorem eachCommandChangesOnlyWhatItsRuleNames : Obligations.EachCommandChangesOnlyWhatItsRuleNames := by
  intro i s t ht
  obtain ⟨hchan, hstrip, hstatus, hport⟩ := execute_framed i s t (exec_eq_execute i s ▸ ht)
  refine ⟨fun ch => (hchan ch).hist, fun ch => (hchan ch).cur, fun ch => (hchan ch).inited, fun ch => (hchan ch).sm,
    fun ch => (hchan ch).fr, fun k => (hstrip k).pix, fun k => (hstrip k).lit, fun k hk => ?_, hstatus, hport⟩
  obtain ⟨hhue, hper, hamp, hang, hphs, hpb, hpcol⟩ := (hstrip k).pulse hk
  exact ⟨hhue, hper, hamp, hang, hphs, hpb, hpcol⟩

end Sys2Proof.Machine
end

section
/-! What a write leaves a later read to answer (20_memory.md R57): the word of a command decodes to the command, an operand that
its check accepts is kept whole, and so a read of the same register or element answers it. -/

namespace Sys2Proof.Machine

open Sys2Proof.Statements

variable {c : Config}

/-! ### The word of a command is obeyed by executing the command -/

/-- The word of a command that the row at place `k` of the map builds. -/
theorem decode_encode_at {i : Instr} (k : Nat) (hk : k < rows.length) (hop : rows[k].op = (encodeFields i).op)
    (hz : rows[k].reservedZero (encodeFields i) = true) (hbuild : rows[k].build (encodeFields i) = i) :
    decode (encode i) = .ok i := by
  have hrow : rows[k].op = (fieldsOf (encode i)).op := by rw [fieldsOf_encode, hop]
  rw [decode_of_row (List.getElem_mem hk) hrow, fieldsOf_encode, if_pos hz, hbuild]

theorem decode_encode (i : Instr) : decode (encode i) = .ok i := by
  cases i with
  | nop => exact decode_encode_at 0 (by decide) rfl rfl rfl
  | sminit => exact decode_encode_at 1 (by decide) rfl rfl rfl
  | smobs => exact decode_encode_at 2 (by decide) rfl rfl rfl
  | rdhist => exact decode_encode_at 3 (by decide) rfl rfl rfl
  | rdcur => exact decode_encode_at 4 (by decide) rfl rfl rfl
  | setsm => exact decode_encode_at 5 (by decide) rfl rfl rfl
  | rdsm => exact decode_encode_at 6 (by decide) rfl rfl rfl
  | norm => exact decode_encode_at 7 (by decide) rfl rfl rfl
  | setfr => exact decode_encode_at 8 (by decide) rfl rfl rfl
  | rdfr => exact decode_encode_at 9 (by decide) rfl rfl rfl
  | clr => exact decode_encode_at 10 (by decide) rfl rfl rfl
  | casc => exact decode_encode_at 11 (by decide) rfl rfl rfl
  | pulse => exact decode_encode_at 12 (by decide) rfl rfl rfl
  | qsin => exact decode_encode_at 13 (by decide) rfl rfl rfl
  | qhsv => exact decode_encode_at 14 (by decide) rfl rfl rfl
  | blend => exact decode_encode_at 15 (by decide) rfl rfl rfl
  | setpix => exact decode_encode_at 16 (by decide) rfl rfl rfl
  | rdpix => exact decode_encode_at 17 (by decide) rfl rfl rfl
  | render => exact decode_encode_at 18 (by decide) rfl rfl rfl
  | rddiag => exact decode_encode_at 19 (by decide) rfl rfl rfl
  | rdstat => exact decode_encode_at 20 (by decide) rfl rfl rfl

/-- A run of the words of two commands. -/
theorem runsTo_pair_iff {s t : State c} {i j : Instr} :
    RunsTo s [encode i, encode j] t ↔ ∃ u, execute i s = .next u ∧ execute j u = .next t := by
  simp only [runsTo_cons_iff, runsTo_nil_iff, obey_ok (decode_encode _), exists_eq_right]

/-! ### Accepted operands are kept whole -/

/-- A concatenation as a sum, for linear arithmetic. -/
theorem toNat_append_eq_add {m n : Nat} (x : BitVec m) (y : BitVec n) : (x ++ y).toNat = x.toNat * 2 ^ n + y.toNat := by
  rw [BitVec.toNat_append, ← Nat.shiftLeft_add_eq_or_of_lt y.isLt, Nat.shiftLeft_eq]

theorem packColour_toNat (p : Pixel) : (packColour p).toNat = packed p := by
  simp only [packColour, packed, toNat_append_eq_add, BitVec.toNat_ofNat]
  omega

/-- Packing the three bytes of a legal colour word gives the word back (R52, R72). -/
theorem packColour_of_legal {imm : BitVec 32} (h : imm.toNat < 16777216) :
    packColour ⟨imm.extractLsb' 16 8, imm.extractLsb' 8 8, imm.extractLsb' 0 8⟩ = imm := by
  rw [← BitVec.toNat_inj, packColour_toNat, packed]
  simp only [BitVec.extractLsb'_toNat, Nat.shiftRight_eq_div_pow]
  omega

/-- A 16-bit number given in 32 bits is the sign extension of its low half (R72, R95). -/
theorem signExtend_setWidth_of_range {imm : BitVec 32} (hlo : -32768 ≤ imm.toInt) (hhi : imm.toInt ≤ 32767) :
    (imm.setWidth 16).signExtend 32 = imm := by
  rw [← BitVec.toInt_inj, BitVec.toInt_signExtend_of_le (by decide), BitVec.toInt_setWidth]
  calc (imm.toNat : Int).bmod (2 ^ 16)
    _ = ((imm.toNat : Int).bmod (2 ^ 32)).bmod (2 ^ 16) := (Int.bmod_bmod_of_dvd (by decide)).symm
    _ = imm.toInt.bmod (2 ^ 16) := by rw [BitVec.toInt_eq_toNat_bmod]
    _ = imm.toInt := Int.bmod_eq_of_le hlo (by omega)

/-- A legal fraction goes whole through `FR` and the response. -/
theorem fraction_read {imm : BitVec 32} (h : imm.toNat ≤ c.one) :
    ((imm.setWidth (c.fracBits + 1)).setWidth 32).toNat = imm.toNat := by
  have hlt : imm.toNat < 2 ^ (c.fracBits + 1) := Nat.lt_of_le_of_lt h (Nat.pow_lt_pow_succ Nat.one_lt_two)
  rw [BitVec.toNat_setWidth, BitVec.toNat_setWidth, Nat.mod_eq_of_lt hlt, Nat.mod_eq_of_lt imm.isLt]

/-- A legal sample goes whole through a slot and the response. -/
theorem sample_read {imm : BitVec 32} (h : imm.toNat ≤ c.adcMax) :
    ((imm.setWidth c.sampleBits).setWidth 32).toNat = imm.toNat := by
  rw [BitVec.toNat_setWidth, sample_toNat h, Nat.mod_eq_of_lt imm.isLt]

/-! ### A read after a write -/

theorem rdpix_after_setpix {s t : State c} {sel : BitVec 4} {idx : BitVec 16} {imm : BitVec 32} (hsel : sel.toNat < 2)
    (hidx : idx.toNat < c.n) (himm : imm.toNat < 16777216)
    (hrun : RunsTo s [encode (.setpix sel idx imm), encode (.rdpix sel idx)] t) : Answers t imm.toNat := by
  obtain ⟨u, hwrite, hread⟩ := runsTo_pair_iff.mp hrun
  simp only [execute, execSetpix, execRdpix, stripOf_ok hsel, pixelOf_ok hidx,
    colourOf_ok ((triple_legal_iff imm).mpr himm), check_ok, Host.Outcome.next.injEq] at hwrite hread
  subst hwrite hread
  refine ⟨_, rsp_respond .., ?_⟩
  rw [State.pix, stripe_respond, stripe_setStripe_self, readPix_writePix, if_pos rfl, packColour_of_legal himm]

theorem rdfr_after_setfr {s t : State c} {sel : BitVec 4} {imm : BitVec 32} (hsel : sel.toNat < 4) (himm : imm.toNat ≤ c.one)
    (hrun : RunsTo s [encode (.setfr sel imm), encode (.rdfr sel)] t) : Answers t imm.toNat := by
  obtain ⟨u, hwrite, hread⟩ := runsTo_pair_iff.mp hrun
  simp only [execute, execSetfr, execRdfr, channelOf_ok hsel, fractionOf_ok himm, check_ok, Host.Outcome.next.injEq]
    at hwrite hread
  subst hwrite hread
  refine ⟨_, rsp_respond .., ?_⟩
  rw [State.fr, channel_respond, channel_setChannel_self, fraction_read himm]

theorem rdsm_after_setsm {s t : State c} {sel : BitVec 4} {imm : BitVec 32} (hsel : sel.toNat < 4) (hlo : -32768 ≤ imm.toInt)
    (hhi : imm.toInt ≤ 32767) (hrun : RunsTo s [encode (.setsm sel imm), encode (.rdsm sel)] t) : AnswersInt t imm.toInt := by
  have hextend := signExtend_setWidth_of_range hlo hhi
  obtain ⟨u, hwrite, hread⟩ := runsTo_pair_iff.mp hrun
  simp only [execute, execSetsm, execRdsm, channelOf_ok hsel, signedOf_ok hextend.symm, check_ok, Host.Outcome.next.injEq]
    at hwrite hread
  subst hwrite hread
  refine ⟨_, rsp_respond .., ?_⟩
  rw [State.sm, channel_respond, channel_setChannel_self, hextend]

theorem rdhist_after_sminit {s t : State c} {sel : BitVec 4} {idx : BitVec 16} {imm : BitVec 32} (hsel : sel.toNat < 4)
    (himm : imm.toNat ≤ c.adcMax) (hidx : idx.toNat < c.w)
    (hrun : RunsTo s [encode (.sminit sel imm), encode (.rdhist sel idx)] t) : Answers t imm.toNat := by
  obtain ⟨u, hwrite, hread⟩ := runsTo_pair_iff.mp hrun
  simp only [execute, execSminit, channelOf_ok hsel, sampleOf_ok himm, check_ok, Host.Outcome.next.injEq] at hwrite
  have hchan : u.channel ⟨sel.toNat, hsel⟩ = initChannel c (imm.setWidth c.sampleBits) (s.channel ⟨sel.toNat, hsel⟩) := by
    rw [← hwrite, channel_respond, channel_setChannel_self]
  have hinited : u.inited ⟨sel.toNat, hsel⟩ = true := by rw [State.inited, hchan, initChannel_inited]
  have hslot : u.hist ⟨sel.toNat, hsel⟩ idx.toNat = some (imm.setWidth c.sampleBits) := by
    rw [State.hist, hchan, initChannel_hist, if_pos hidx]
  simp only [execute, execRdhist, channelOf_ok hsel, slotOf_ok hidx, initedOf_ok hinited, check_ok, hslot,
    Host.Outcome.next.injEq] at hread
  subst hread
  exact ⟨_, rsp_respond .., sample_read himm⟩

/-- Settles O56: one lemma for each pair of a write and its read. -/
theorem readAfterWriteReturnsTheWrittenValue : Obligations.ReadAfterWriteReturnsTheWrittenValue :=
  ⟨fun _ _ _ _ _ _ => rdpix_after_setpix, fun _ _ _ _ _ => rdfr_after_setfr, fun _ _ _ _ _ => rdsm_after_setsm,
    fun _ _ _ _ _ _ => rdhist_after_sminit⟩

end Sys2Proof.Machine
end

section
/-! The encoding (30_encoding.md R71, R74, R75): the decoder and the encoder are inverse to each other, so a word decodes to a
command exactly when it is the command's own word. -/

namespace Sys2Proof.Machine

/-! ### The encoder inverts the decoder -/

/-- The fields of a word of the row: its opcode byte, the used fields as given, zero in the others. -/
def usedFields (r : Row) (f : Fields) : Fields where
  op := r.op
  sel := if r.usesSel then f.sel else 0
  sub := if r.usesSub then f.sub else 0
  idx := if r.usesIdx then f.idx else 0
  imm := if r.usesImm then f.imm else 0

/-- A command keeps every used field of the word it is built from. -/
theorem encodeFields_build : ∀ r ∈ rows, ∀ f, encodeFields (r.build f) = usedFields r f := by
  simp only [rows, rowsLow, rowsHigh, List.forall_mem_append, List.forall_mem_cons]
  simp [encodeFields, usedFields]

theorem reservedZero_iff (r : Row) (f : Fields) :
    r.reservedZero f = true ↔ (r.usesSel = false → f.sel = 0) ∧ (r.usesSub = false → f.sub = 0) ∧
      (r.usesIdx = false → f.idx = 0) ∧ (r.usesImm = false → f.imm = 0) := by
  simp only [Row.reservedZero, Bool.and_eq_true, Bool.or_eq_true, beq_iff_eq, and_assoc, ← Bool.not_eq_true,
    or_iff_not_imp_left]

/-- Where the unused fields are zero, the used fields are all there is (R75). -/
theorem usedFields_eq_self {r : Row} {f : Fields} (hop : r.op = f.op) (hz : r.reservedZero f = true) : usedFields r f = f := by
  obtain ⟨hsel, hsub, hidx, himm⟩ := (reservedZero_iff r f).mp hz
  obtain ⟨op, sel, sub, idx, imm⟩ := f
  simp only [usedFields, Fields.mk.injEq, ite_eq_left_iff, Bool.not_eq_true]
  exact ⟨hop, fun h => (hsel h).symm, fun h => (hsub h).symm, fun h => (hidx h).symm, fun h => (himm h).symm⟩

theorem encode_of_decode {w : Word64} {i : Instr} (h : decode w = .ok i) : encode i = w := by
  rcases decode_cases w with ⟨-, hw⟩ | ⟨r, hr, hop, ⟨hz, hw⟩ | ⟨-, hw⟩⟩
  · cases hw.symm.trans h
  · cases hw.symm.trans h
    rw [encode, encodeFields_build r hr, usedFields_eq_self hop hz, packFields_fieldsOf]
  · cases hw.symm.trans h

/-- A word decodes to a command exactly when it is the command's word. -/
theorem decode_eq_ok_iff {w : Word64} {i : Instr} : decode w = .ok i ↔ encode i = w :=
  ⟨encode_of_decode, fun h => h ▸ decode_encode i⟩

/-! ### The obligations -/

/-- Settles O1: each command finds its own row of the map. -/
theorem decodeOfEncodeIsTheCommand : Obligations.DecodeOfEncodeIsTheCommand := decode_encode

/-- Settles O2: the fields a row does not use are zero in an accepted word. -/
theorem encodeOfDecodeIsTheWord : Obligations.EncodeOfDecodeIsTheWord := fun _ _ => encode_of_decode

/-- Settles O3: each word is the one its command encodes to. -/
theorem writtenWordsDecodeAsTheSpecSays : Obligations.WrittenWordsDecodeAsTheSpecSays := by
  unfold Obligations.WrittenWordsDecodeAsTheSpecSays
  simp only [decode_eq_ok_iff]
  decide

end Sys2Proof.Machine
end

section
/-! The six checks of a command word (30_encoding.md R78): the decoder makes the first two and the meaning of a command the
others, in the order of their codes, so the fault that is taken is the one of the lowest code that fails. -/

namespace Sys2Proof.Machine

open Sys2Proof.Statements

/-! ### The fields of a word in numbers (R7, R71) -/

section
variable (w : Word64)

theorem bits_op : bits w 63 56 = (fieldsOf w).op.toNat := by
  simp [bits, fieldsOf, BitVec.extractLsb'_toNat, Nat.shiftRight_eq_div_pow]

theorem bits_sel : bits w 55 52 = (fieldsOf w).sel.toNat := by
  simp [bits, fieldsOf, BitVec.extractLsb'_toNat, Nat.shiftRight_eq_div_pow]

theorem bits_sub : bits w 51 48 = (fieldsOf w).sub.toNat := by
  simp [bits, fieldsOf, BitVec.extractLsb'_toNat, Nat.shiftRight_eq_div_pow]

theorem bits_idx : bits w 47 32 = (fieldsOf w).idx.toNat := by
  simp [bits, fieldsOf, BitVec.extractLsb'_toNat, Nat.shiftRight_eq_div_pow]

theorem bits_imm : bits w 31 0 = (fieldsOf w).imm.toNat := by
  simp [bits, fieldsOf, BitVec.extractLsb'_toNat]

end

/-! ### Checks 1 and 2 are the decoder's -/

theorem mem_knownOps_iff (w : Word64) : bits w 63 56 ∈ knownOps ↔ ∃ r ∈ rows, r.op = (fieldsOf w).op := by
  have hops : knownOps = rows.map (fun r => r.op.toNat) := by decide
  simp only [bits_op, hops, List.mem_map, BitVec.toNat_inj]

/-- The fields a row does not use, by its opcode as the statement of check 2 lists them (R75). -/
theorem unused_iff_op : ∀ r ∈ rows,
    (r.usesSel = false ↔ r.op.toNat ∈ [0x00, 0x41, 0x50, 0x62]) ∧ (r.usesSub = false ↔ r.op.toNat ≠ 0x61) ∧
      (r.usesIdx = false ↔ r.op.toNat ∉ [0x12, 0x52, 0x53]) ∧
      (r.usesImm = false ↔ r.op.toNat ∈ [0x00, 0x12, 0x13, 0x15, 0x20, 0x22, 0x30, 0x31, 0x53, 0x61, 0x62]) := by decide

theorem not_reservedZero_iff (r : Row) (f : Fields) :
    ¬r.reservedZero f = true ↔ f.sel ≠ 0 ∧ r.usesSel = false ∨ f.sub ≠ 0 ∧ r.usesSub = false ∨
      f.idx ≠ 0 ∧ r.usesIdx = false ∨ f.imm ≠ 0 ∧ r.usesImm = false := by
  rw [reservedZero_iff]
  tauto

/-- Check 2, for a word of the row. -/
theorem failsCheck_two_iff {r : Row} {w : Word64} (s : State) (h : r ∈ rows) (hop : r.op = (fieldsOf w).op) :
    FailsCheck w s 2 ↔ ¬r.reservedZero (fieldsOf w) = true := by
  obtain ⟨hsel, hsub, hidx, himm⟩ := unused_iff_op r h
  have hknown : bits w 63 56 ∈ knownOps := (mem_knownOps_iff w).mpr ⟨r, h, hop⟩
  have hzero {n : Nat} (v : BitVec n) : v ≠ 0 ↔ v.toNat ≠ 0 := by simp [← BitVec.toNat_inj]
  rw [not_reservedZero_iff, hsel, hsub, hidx, himm, hop, ← bits_op, hzero, hzero, hzero, hzero, ← bits_sel, ← bits_sub,
    ← bits_idx, ← bits_imm]
  exact and_iff_right hknown

/-- Check 1: no row has the opcode. -/
theorem failsCheck_one_iff (w : Word64) (s : State) : FailsCheck w s 1 ↔ ∀ r ∈ rows, r.op ≠ (fieldsOf w).op := by
  simp only [FailsCheck, mem_knownOps_iff, not_exists, not_and, ne_eq]

/-! ### Checks 3 to 6 are the command's -/

/-- A check that a command makes: the cause of its fault, and when it fails. -/
abbrev OperandCheck := Cause × Prop

/-! Check 3 (R76), check 4 (R76), check 5 (R72) and check 6 (R191), with the numbers of the default parameters. -/

@[simp] def badChannel (sel : BitVec 4) : OperandCheck := (.badSelector, 4 ≤ sel.toNat)
@[simp] def badStrip (sel : BitVec 4) : OperandCheck := (.badSelector, 2 ≤ sel.toNat)
@[simp] def badReadout (sub : BitVec 4) : OperandCheck := (.badSelector, 8 ≤ sub.toNat)
@[simp] def badSlot (idx : BitVec 16) : OperandCheck := (.badIndex, 8 ≤ idx.toNat)
@[simp] def badPixel (idx : BitVec 16) : OperandCheck := (.badIndex, 75 ≤ idx.toNat)
@[simp] def badSample (imm : BitVec 32) : OperandCheck := (.badOperand, 4095 < imm.toNat)
@[simp] def badSigned (imm : BitVec 32) : OperandCheck := (.badOperand, 32768 ≤ imm.toNat ∧ imm.toNat < 4294934528)
@[simp] def badFraction (imm : BitVec 32) : OperandCheck := (.badOperand, 16777216 < imm.toNat)
@[simp] def badAngle (imm : BitVec 32) : OperandCheck := (.badOperand, 1023 < imm.toNat)
@[simp] def badTriple (imm : BitVec 32) : OperandCheck := (.badOperand, 16777216 ≤ imm.toNat)
@[simp] def notInited (s : State) (sel : BitVec 4) : OperandCheck :=
  (.uninit, ∃ ch : ChannelId, sel.toNat = ch.val ∧ s.inited ch = false)

/-- The checks 3 to 6 of R78 that a command makes in the state `s`, in their order. -/
@[simp] def operandChecks (s : State) : Instr → List OperandCheck
  | .nop | .rdstat => []
  | .sminit sel imm => [badChannel sel, badSample imm]
  | .smobs sel imm => [badChannel sel, badSample imm, notInited s sel]
  | .rdhist sel idx => [badChannel sel, badSlot idx, notInited s sel]
  | .rdcur sel | .rdsm sel | .norm sel | .rdfr sel => [badChannel sel]
  | .setsm sel imm => [badChannel sel, badSigned imm]
  | .setfr sel imm => [badChannel sel, badFraction imm]
  | .clr sel | .casc sel | .pulse sel _ | .render sel _ => [badStrip sel]
  | .qsin imm => [badAngle imm]
  | .qhsv imm => [badTriple imm]
  | .blend sel imm => [badStrip sel, badTriple imm]
  | .setpix sel idx imm => [badStrip sel, badPixel idx, badTriple imm]
  | .rdpix sel idx => [badStrip sel, badPixel idx]
  | .rddiag sel sub => [badStrip sel, badReadout sub]

/-- Some check of the list fails with the cause. -/
def SomeFails (l : List OperandCheck) (cause : Cause) : Prop := ∃ k ∈ l, k.1 = cause ∧ k.2

@[simp] theorem someFails_nil (cause : Cause) : ¬SomeFails [] cause := by simp [SomeFails]

@[simp] theorem someFails_cons (k : OperandCheck) (l : List OperandCheck) (cause : Cause) :
    SomeFails (k :: l) cause ↔ k.1 = cause ∧ k.2 ∨ SomeFails l cause := by
  simp only [SomeFails, List.mem_cons, exists_eq_or_imp]

/-- The word of a command fails exactly the checks of the command. -/
theorem failsCheck_encode_iff (i : Instr) (s : State) (cause : Cause) :
    FailsCheck (encode i) s cause.code.toNat ↔ SomeFails (operandChecks s i) cause := by
  cases cause with
  | illegalOpcode => cases i <;> simp [FailsCheck, Cause.code, bits_op, encodeFields, knownOps]
  | reservedNonzero =>
    cases i <;> simp [FailsCheck, Cause.code, bits_op, bits_sel, bits_sub, bits_idx, bits_imm, encodeFields, knownOps]
  | badSelector => cases i <;> simp [FailsCheck, Cause.code, bits_op, bits_sel, bits_sub, encodeFields]
  | badIndex => cases i <;> simp [FailsCheck, Cause.code, bits_op, bits_idx, encodeFields]
  | badOperand => cases i <;> simp [FailsCheck, Cause.code, bits_op, bits_imm, encodeFields]
  | uninit => cases i <;> simp [FailsCheck, Cause.code, bits_op, bits_sel, encodeFields]

/-- The checks stand in the order of their codes. -/
theorem operandChecks_sorted (s : State) (i : Instr) :
    (operandChecks s i).Pairwise (fun k k' => k.1.code.toNat ≤ k'.1.code.toNat) := by
  cases i <;> simp [Cause.code]

/-! ### Each operand form makes its check -/

/-- The operand form fails with the cause of the check exactly where the check fails. -/
def Makes {α : Type} (o : Except Cause α) (k : OperandCheck) : Prop :=
  k.2 ∧ o = .error k.1 ∨ ¬k.2 ∧ ∃ a, o = .ok a

theorem makes_of {α : Type} {o : Except Cause α} {cause : Cause} {P : Prop} (herr : P → o = .error cause)
    (hok : ¬P → ∃ a, o = .ok a) : Makes o (cause, P) := by
  by_cases h : P
  · exact .inl ⟨h, herr h⟩
  · exact .inr ⟨h, hok h⟩

theorem channelOf_makes (sel : BitVec 4) : Makes (channelOf sel) (badChannel sel) :=
  makes_of (fun h => channelOf_error (by omega)) fun h => ⟨_, channelOf_ok (by omega)⟩

theorem stripOf_makes (sel : BitVec 4) : Makes (stripOf sel) (badStrip sel) :=
  makes_of (fun h => stripOf_error (by omega)) fun h => ⟨_, stripOf_ok (by omega)⟩

theorem diagOf_makes (sub : BitVec 4) : Makes (diagOf sub) (badReadout sub) :=
  makes_of (fun h => diagOf_error (by omega)) fun h => ⟨_, diagOf_ok (by omega)⟩

theorem slotOf_makes (idx : BitVec 16) : Makes (slotOf block idx) (badSlot idx) :=
  makes_of (fun h => slotOf_error (Nat.not_lt.mpr h)) fun h => ⟨_, slotOf_ok (Nat.not_le.mp h)⟩

theorem pixelOf_makes (idx : BitVec 16) : Makes (pixelOf block idx) (badPixel idx) :=
  makes_of (fun h => pixelOf_error (Nat.not_lt.mpr h)) fun h => ⟨_, pixelOf_ok (Nat.not_le.mp h)⟩

theorem sampleOf_makes (imm : BitVec 32) : Makes (sampleOf block imm) (badSample imm) :=
  makes_of (fun h => sampleOf_error (Nat.not_le.mpr h)) fun h => ⟨_, sampleOf_ok (Nat.not_lt.mp h)⟩

/-- The words that are sign extensions of their low half are those of R72. -/
theorem signed_legal_iff (imm : BitVec 32) :
    imm = (imm.setWidth 16).signExtend 32 ↔ ¬(32768 ≤ imm.toNat ∧ imm.toNat < 4294934528) := by
  have hint : (-32768 ≤ imm.toInt ∧ imm.toInt ≤ 32767) ↔ ¬(32768 ≤ imm.toNat ∧ imm.toNat < 4294934528) := by
    rw [BitVec.toInt_eq_toNat_cond]
    have := imm.isLt
    omega
  rw [← hint]
  constructor
  · intro h
    have hlo := BitVec.le_toInt (imm.setWidth 16)
    have hhi := BitVec.toInt_lt (x := imm.setWidth 16)
    rw [h, BitVec.toInt_signExtend_of_le (by decide)]
    omega
  · rintro ⟨hlo, hhi⟩
    exact (signExtend_setWidth_of_range hlo hhi).symm

theorem signedOf_makes (imm : BitVec 32) : Makes (signedOf imm) (badSigned imm) :=
  makes_of (fun h => signedOf_error fun he => (signed_legal_iff imm).mp he h)
    fun h => ⟨_, signedOf_ok ((signed_legal_iff imm).mpr h)⟩

theorem fractionOf_makes (imm : BitVec 32) : Makes (fractionOf block imm) (badFraction imm) :=
  makes_of (fun h => fractionOf_error (Nat.not_le.mpr h)) fun h => ⟨_, fractionOf_ok (Nat.not_lt.mp h)⟩

theorem angleOf_makes (imm : BitVec 32) : Makes (angleOf imm) (badAngle imm) :=
  makes_of (fun h => angleOf_error (Nat.not_le.mpr h)) fun h => ⟨_, angleOf_ok (Nat.not_lt.mp h)⟩

theorem tripleOf_makes (imm : BitVec 32) : Makes (tripleOf imm) (badTriple imm) :=
  makes_of (fun h => tripleOf_error fun he => Nat.not_lt.mpr h ((triple_legal_iff imm).mp he))
    fun h => ⟨_, tripleOf_ok ((triple_legal_iff imm).mpr (Nat.not_le.mp h))⟩

theorem colourOf_makes (imm : BitVec 32) : Makes (colourOf imm) (badTriple imm) :=
  makes_of (fun h => colourOf_error fun he => Nat.not_lt.mpr h ((triple_legal_iff imm).mp he))
    fun h => ⟨_, colourOf_ok ((triple_legal_iff imm).mpr (Nat.not_le.mp h))⟩

theorem initedOf_makes {s : State} {sel : BitVec 4} {ch : ChannelId} (h : channelOf sel = .ok ch) :
    Makes (initedOf s ch) (notInited s sel) := by
  have hsel := toNat_of_channelOf h
  refine makes_of (fun ⟨ch', hch', hinited⟩ => ?_) fun hno => ⟨(), initedOf_ok ?_⟩
  · obtain rfl : ch' = ch := Fin.ext (hch'.symm.trans hsel)
    exact initedOf_error hinited
  · exact Bool.eq_true_of_not_eq_false fun hinited => hno ⟨ch, hsel, hinited⟩

/-! ### A command makes its checks in order -/

/-- The outcome of going through the checks in order: the fault of the first that fails, the end of the command if none does. -/
inductive GoesThrough (s : State) : List OperandCheck → Result block → Prop where
  | fails {k : OperandCheck} {l : List OperandCheck} (h : k.2) : GoesThrough s (k :: l) (.next (takeFault k.1 s))
  | passes {k : OperandCheck} {l : List OperandCheck} {r : Result block} (h : ¬k.2) (hr : GoesThrough s l r) :
    GoesThrough s (k :: l) r
  | completes {t : State} (d : BitVec 32) (hrsp : t.rsp = some { err := false, data := d }) (hstatus : t.status = s.status)
    (hport : t.port = s.port) : GoesThrough s [] (.next t)

section
variable {s : State}

theorem goesThrough_check {α : Type} {o : Except Cause α} {k : OperandCheck} {l : List OperandCheck} {go : α → Result block}
    (hk : Makes o k) (hgo : ∀ a, o = .ok a → GoesThrough s l (go a)) : GoesThrough s (k :: l) (check o s go) := by
  rcases hk with ⟨hfails, rfl⟩ | ⟨hpasses, a, rfl⟩
  · exact .fails hfails
  · exact .passes hpasses (hgo a rfl)

theorem slotOf_eq_ok {c : Config} {idx : BitVec 16} {j : Nat} (h : slotOf c idx = .ok j) : j < c.w := by
  by_cases hidx : idx.toNat < c.w
  · rw [slotOf_ok hidx, Except.ok.injEq] at h
    rwa [← h]
  · rw [slotOf_error hidx] at h; cases h

theorem inited_of_initedOf {ch : ChannelId} {u : Unit} (h : initedOf s ch = .ok u) : s.inited ch = true := by
  by_contra hinited
  rw [initedOf_error (Bool.eq_false_of_not_eq_true hinited)] at h
  cases h

/-- Where `INITED` is 1, every slot holds a value (R35). -/
theorem slot_filled (h : s.Inv) {ch : ChannelId} {u : Unit} (hinited : initedOf s ch = .ok u) {j : Nat} (hj : j < block.w) :
    ∃ v, readCell (s.channel ch).hist j = some v := by
  obtain ⟨v, hv, -⟩ := (h.channel ch).hist_full (inited_of_initedOf hinited) j hj
  exact ⟨v, hv⟩

theorem goesThrough_answer (d : BitVec 32) : GoesThrough s [] (.next (respond d s)) := .completes d rfl rfl rfl

theorem goesThrough_channel (d : BitVec 32) (ch : ChannelId) (k : Channel block) :
    GoesThrough s [] (.next (respond d (s.setChannel ch k))) := .completes d rfl rfl rfl

theorem goesThrough_strip (d : BitVec 32) (k : StripId) (t : Strip) :
    GoesThrough s [] (.next (respond d (s.setStripe k t))) := .completes d rfl rfl rfl

/-- Every command goes through its checks. The invariants are for `SMOBS` and `RDHIST`, which find their slots filled. -/
theorem execute_goesThrough (i : Instr) (h : s.Inv) : GoesThrough s (operandChecks s i) (execute i s) := by
  cases i with
  | nop => exact goesThrough_answer _
  | sminit sel imm =>
    exact goesThrough_check (channelOf_makes sel) fun _ _ => goesThrough_check (sampleOf_makes imm) fun _ _ =>
      goesThrough_channel _ _ _
  | smobs sel imm =>
    refine goesThrough_check (channelOf_makes sel) fun ch hch => goesThrough_check (sampleOf_makes imm) fun x _ =>
      goesThrough_check (initedOf_makes hch) fun _ hinited => ?_
    obtain ⟨k, hk⟩ := observeChannel_isSome x fun j hj => Option.isSome_iff_exists.mpr (slot_filled h hinited hj)
    simp only [hk]
    exact goesThrough_channel _ _ _
  | rdhist sel idx =>
    refine goesThrough_check (channelOf_makes sel) fun ch hch => goesThrough_check (slotOf_makes idx) fun j hj =>
      goesThrough_check (initedOf_makes hch) fun _ hinited => ?_
    obtain ⟨v, hv⟩ := slot_filled h hinited (slotOf_eq_ok hj)
    simp only [State.hist, hv]
    exact goesThrough_answer _
  | rdcur sel => exact goesThrough_check (channelOf_makes sel) fun _ _ => goesThrough_answer _
  | setsm sel imm =>
    exact goesThrough_check (channelOf_makes sel) fun _ _ => goesThrough_check (signedOf_makes imm) fun _ _ =>
      goesThrough_channel _ _ _
  | rdsm sel => exact goesThrough_check (channelOf_makes sel) fun _ _ => goesThrough_answer _
  | norm sel => exact goesThrough_check (channelOf_makes sel) fun _ _ => goesThrough_channel _ _ _
  | setfr sel imm =>
    exact goesThrough_check (channelOf_makes sel) fun _ _ => goesThrough_check (fractionOf_makes imm) fun _ _ =>
      goesThrough_channel _ _ _
  | rdfr sel => exact goesThrough_check (channelOf_makes sel) fun _ _ => goesThrough_answer _
  | clr sel => exact goesThrough_check (stripOf_makes sel) fun _ _ => goesThrough_strip _ _ _
  | casc sel => exact goesThrough_check (stripOf_makes sel) fun _ _ => goesThrough_strip _ _ _
  | pulse sel => exact goesThrough_check (stripOf_makes sel) fun _ _ => goesThrough_strip _ _ _
  | qsin imm => exact goesThrough_check (angleOf_makes imm) fun _ _ => goesThrough_answer _
  | qhsv imm => exact goesThrough_check (tripleOf_makes imm) fun _ _ => goesThrough_answer _
  | blend sel imm =>
    exact goesThrough_check (stripOf_makes sel) fun _ _ => goesThrough_check (colourOf_makes imm) fun _ _ =>
      goesThrough_strip _ _ _
  | setpix sel idx imm =>
    exact goesThrough_check (stripOf_makes sel) fun _ _ => goesThrough_check (pixelOf_makes idx) fun _ _ =>
      goesThrough_check (colourOf_makes imm) fun _ _ => goesThrough_strip _ _ _
  | rdpix sel idx =>
    exact goesThrough_check (stripOf_makes sel) fun _ _ => goesThrough_check (pixelOf_makes idx) fun _ _ =>
      goesThrough_answer _
  | render sel => exact goesThrough_check (stripOf_makes sel) fun _ _ => goesThrough_strip _ _ _
  | rddiag sel sub =>
    exact goesThrough_check (stripOf_makes sel) fun _ _ => goesThrough_check (diagOf_makes sub) fun _ _ =>
      goesThrough_answer _
  | rdstat => exact goesThrough_answer _

end

/-! ### The first fault -/

/-- The outcome R78 asks for, where `fails` says of which cause a check fails: the fault of the lowest code is taken, or the
command ends without a fault. -/
inductive FirstFault (fails : Cause → Prop) (s : State) : Result block → Prop where
  | taken {cause : Cause} (hfails : fails cause) (hlower : ∀ lower, lower.code.toNat < cause.code.toNat → ¬fails lower) :
    FirstFault fails s (.next (takeFault cause s))
  | completes {t : State} {d : BitVec 32} (hnone : ∀ cause, ¬fails cause) (hrsp : t.rsp = some { err := false, data := d })
    (hstatus : t.status = s.status) (hport : t.port = s.port) : FirstFault fails s (.next t)

/-- Of checks in the order of their codes, the first that fails has the lowest code. -/
theorem firstFault_of_goesThrough {s : State} {l : List OperandCheck} {r : Result block} (h : GoesThrough s l r)
    (hl : l.Pairwise (fun k k' => k.1.code.toNat ≤ k'.1.code.toNat)) : FirstFault (SomeFails l) s r := by
  induction h with
  | @fails k l hk =>
    refine .taken ⟨k, List.mem_cons_self, rfl, hk⟩ ?_
    rintro _ hlower ⟨k', hk', rfl, -⟩
    rcases List.mem_cons.mp hk' with rfl | hmem
    · exact Nat.lt_irrefl _ hlower
    · exact Nat.not_lt.mpr (List.rel_of_pairwise_cons hl hmem) hlower
  | @passes k l r hk _ ih =>
    have hskip : SomeFails (k :: l) = SomeFails l := by
      funext cause
      simp only [someFails_cons, hk, and_false, false_or]
    rw [hskip]
    exact ih hl.of_cons
  | completes d hrsp hstatus hport => exact .completes someFails_nil hrsp hstatus hport

/-- The causes of the checks that a word fails. -/
def FailsFor (w : Word64) (s : State) (cause : Cause) : Prop := FailsCheck w s cause.code.toNat

theorem execute_firstFault (i : Instr) {s : State} (h : s.Inv) : FirstFault (FailsFor (encode i) s) s (execute i s) := by
  have hfails : FailsFor (encode i) s = SomeFails (operandChecks s i) :=
    funext fun cause => propext (failsCheck_encode_iff i s cause)
  rw [hfails]
  exact firstFault_of_goesThrough (execute_goesThrough i h) (operandChecks_sorted s i)

/-- The decoder answers the fault of check 1 where it fails, and else that of check 2. -/
theorem decode_error_firstFault {w : Word64} {cause : Cause} (s : State) (h : decode w = .error cause) :
    FirstFault (FailsFor w s) s (.next (takeFault cause s)) := by
  rcases decode_cases w with ⟨hno, hw⟩ | ⟨r, hr, hop, ⟨-, hw⟩ | ⟨hz, hw⟩⟩
  · cases hw.symm.trans h
    refine .taken ((failsCheck_one_iff w s).mpr hno) fun lower hlower => ?_
    cases lower <;> exact absurd hlower (by decide)
  · cases hw.symm.trans h
  · cases hw.symm.trans h
    refine .taken ((failsCheck_two_iff s hr hop).mpr (ne_true_of_eq_false hz)) fun lower hlower => ?_
    cases lower with
    | illegalOpcode => exact fun hone => (failsCheck_one_iff w s).mp hone r hr hop
    | _ => exact absurd hlower (by decide)

theorem obey_firstFault (w : Word64) {s : State} (h : s.Inv) : FirstFault (FailsFor w s) s (obey execute w s) := by
  cases hw : decode w with
  | error cause => rw [obey_error hw]; exact decode_error_firstFault s hw
  | ok i =>
    obtain rfl := encode_of_decode hw
    rw [obey_ok hw]
    exact execute_firstFault i h

/-! ### O10 -/

theorem takeFault_faultTaken (cause : Cause) (s : State) : FaultTaken cause.code s (takeFault cause s) :=
  ⟨fun _ => ⟨fun _ => rfl, rfl, rfl, rfl, rfl⟩, fun _ => ⟨fun _ => rfl, rfl, rfl, rfl, rfl, rfl, rfl, rfl, rfl⟩, rfl, rfl,
    rfl, rfl⟩

/-- The codes of R191 are 1 to 6. -/
theorem exists_cause_of_code : ∀ code ∈ [1, 2, 3, 4, 5, 6], ∃ cause : Cause, cause.code.toNat = code := by
  simp only [List.forall_mem_cons]
  exact ⟨⟨.illegalOpcode, rfl⟩, ⟨.reservedNonzero, rfl⟩, ⟨.badSelector, rfl⟩, ⟨.badIndex, rfl⟩, ⟨.badOperand, rfl⟩,
    ⟨.uninit, rfl⟩, nofun⟩

theorem code_mem (cause : Cause) : cause.code.toNat ∈ [1, 2, 3, 4, 5, 6] := by cases cause <;> decide

/-- Two lowest codes are the same code. -/
theorem faultTaken_of_firstFault {w : Word64} {s : State} {r : Result block} {code : Nat} (h : FirstFault (FailsFor w s) s r)
    (hcode : code ∈ [1, 2, 3, 4, 5, 6]) (hfails : FailsCheck w s code) (hlower : ∀ lower < code, ¬FailsCheck w s lower) :
    ∃ t, r = .next t ∧ FaultTaken (BitVec.ofNat 4 code) s t := by
  obtain ⟨cause, rfl⟩ := exists_cause_of_code code hcode
  cases h with
  | @taken first hfirst hbelow =>
    have hsame : first.code.toNat = cause.code.toNat :=
      Nat.le_antisymm (Nat.le_of_not_lt fun hlt => hbelow cause hlt hfails) (Nat.le_of_not_lt fun hlt => hlower _ hlt hfirst)
    refine ⟨_, rfl, ?_⟩
    rw [← hsame, BitVec.ofNat_toNat, BitVec.setWidth_eq]
    exact takeFault_faultTaken first s
  | completes hnone => exact absurd hfails (hnone cause)

theorem completes_of_firstFault {w : Word64} {s : State} {r : Result block} (h : FirstFault (FailsFor w s) s r)
    (hnone : ∀ code ∈ [1, 2, 3, 4, 5, 6], ¬FailsCheck w s code) :
    ∃ t d, r = .next t ∧ t.rsp = some { err := false, data := d } ∧ t.status = s.status ∧ t.port = s.port := by
  cases h with
  | @taken first hfirst _ => exact absurd hfirst (hnone _ (code_mem first))
  | completes _ hrsp hstatus hport => exact ⟨_, _, rfl, hrsp, hstatus, hport⟩

/-- Settles O10: the step obeys the word at the port, and the first check that the word fails is that of the lowest code. -/
theorem everyWordExecutesOrTakesItsFirstFault : Obligations.EveryWordExecutesOrTakesItsFirstFault := by
  intro s w rest hinv hport
  have hstep : step s = obey execute w { s with port := rest } := (step_eq_stepOf s).trans (advance_command hport)
  have hfirst := obey_firstFault w (setPort_inv rest hinv)
  rw [hstep]
  exact ⟨fun _ => faultTaken_of_firstFault hfirst, completes_of_firstFault hfirst⟩

end Sys2Proof.Machine
end

section
/-! What the statement of one command asks for, proved once for all commands: the encoding by the row of the opcode map
(30_encoding.md R71, R75), the fault of the first check that fails (R78), and the frame of a command that writes one channel
(40_smoother.md R99). -/

namespace Sys2Proof.Machine

open Sys2Proof.Statements

/-! ### Encoding -/

theorem toNat_eq_zero_iff {n : Nat} (v : BitVec n) : v.toNat = 0 ↔ v = 0 := by simp [← BitVec.toNat_inj]

/-- The words of a row of the map decode as R75 says of the row. -/
theorem encodedAs_of_row {r : Row} (h : r ∈ rows) :
    EncodedAs r.op.toNat r.usesSel r.usesSub r.usesIdx r.usesImm
      (fun sel sub idx imm => r.build ⟨r.op, sel, sub, idx, imm⟩) := by
  intro w hop
  have hop : r.op = (fieldsOf w).op := BitVec.eq_of_toNat_eq (hop.symm.trans (bits_op w))
  simp only [bits_sel, bits_sub, bits_idx, bits_imm, toNat_eq_zero_iff, ← reservedZero_iff, BitVec.ofNat_toNat,
    BitVec.setWidth_eq, decode_of_row h hop]
  refine ⟨fun hzero => ?_, fun hnonzero => if_neg hnonzero⟩
  rw [if_pos hzero, hop]

theorem encodedAs_at (k : Nat) (hk : k < rows.length) :
    EncodedAs rows[k].op.toNat rows[k].usesSel rows[k].usesSub rows[k].usesIdx rows[k].usesImm
      (fun sel sub idx imm => rows[k].build ⟨rows[k].op, sel, sub, idx, imm⟩) :=
  encodedAs_of_row (List.getElem_mem hk)

/-! ### Faults -/

section
variable {i : Instr} {s : State}

theorem faults_of_execute {cause : Cause} (h : execute i s = .next (takeFault cause s)) : Faults i s cause.code :=
  ⟨takeFault cause s, (exec_eq_execute i s).trans h, takeFault_faultTaken cause s⟩

/-- Check 3 of a command on a channel. -/
theorem faults_badChannel {sel : BitVec 4} {go : ChannelId → Result block} (hi : execute i s = check (channelOf sel) s go)
    (hsel : 4 ≤ sel.toNat) : Faults i s 3 :=
  faults_of_execute (cause := .badSelector) (by rw [hi, channelOf_error (Nat.not_lt.mpr hsel), check_error])

end

/-! ### Frames -/

theorem onlyChannel_setChannel {c : Config} (d : BitVec 32) (s : State c) (ch : ChannelId) (k : Channel c) :
    OnlyChannel ch s (respond d (s.setChannel ch k)) := by
  refine ⟨fun ch' hne => ?_, fun _ => ⟨fun _ => rfl, rfl, rfl, rfl, rfl, rfl, rfl, rfl, rfl⟩, rfl, rfl⟩
  rw [sameChannel_iff, channel_respond, channel_setChannel_ne _ _ _ _ hne]
  exact ⟨fun _ => rfl, rfl, rfl, rfl, rfl⟩

end Sys2Proof.Machine
end

section
/-! The reads of the smoother and the direct write of a smoothed value (40_smoother.md R93 to R96). -/

namespace Sys2Proof.Machine

open Sys2Proof.Statements

/-! ### Registers go whole into the response -/

theorem sample_response (x : block.Sample) : (x.setWidth 32).toNat = x.toNat :=
  BitVec.toNat_setWidth_of_le (block_sampleBits ▸ by decide)

theorem cursor_response (x : block.Cursor) : (x.setWidth 32).toNat = x.toNat :=
  BitVec.toNat_setWidth_of_le (block_cursorBits ▸ by decide)

/-- The words that are sign extensions of their low half are the signed 16-bit numbers. -/
theorem signed_legal_iff_toInt (imm : BitVec 32) :
    imm = (imm.setWidth 16).signExtend 32 ↔ -32768 ≤ imm.toInt ∧ imm.toInt ≤ 32767 := by
  rw [signed_legal_iff, BitVec.toInt_eq_toNat_cond]
  have := imm.isLt
  omega

theorem toInt_setWidth_of_range {imm : BitVec 32} (hlo : -32768 ≤ imm.toInt) (hhi : imm.toInt ≤ 32767) :
    (imm.setWidth 16).toInt = imm.toInt := by
  rw [← BitVec.toInt_signExtend_of_le (v := 32) (by decide), signExtend_setWidth_of_range hlo hhi]

/-! ### The obligations -/

/-- Settles O18: the checks of R93 in their order, then the slot. -/
theorem rdhistReadsOneSlot : Obligations.RdhistReadsOneSlot := by
  refine ⟨encodedAs_at 3 (by decide), fun s sel idx => ⟨faults_badChannel rfl, fun hsel hidx => ?badIndex,
    fun ch hsel hidx => ⟨fun hinited => ?uninit, fun v hinited hv => ?read⟩⟩⟩
  case badIndex =>
    have hslot : slotOf block idx = .error .badIndex := slotOf_error (Nat.not_lt.mpr hidx)
    refine faults_of_execute (cause := .badIndex) ?_
    simp only [execute, execRdhist, channelOf_ok hsel, hslot, check_ok, check_error]
  case uninit =>
    have hslot : slotOf block idx = .ok idx.toNat := slotOf_ok hidx
    refine faults_of_execute (cause := .uninit) ?_
    simp only [execute, execRdhist, channelOf_eq_ok hsel, hslot, initedOf_error hinited, check_ok, check_error]
  case read =>
    have hslot : slotOf block idx = .ok idx.toNat := slotOf_ok hidx
    refine ⟨respond (v.setWidth 32) s, ?_, ⟨_, rfl, sample_response v⟩, sameAll_respond _ s⟩
    simp only [exec, execRdhist, channelOf_eq_ok hsel, hslot, initedOf_ok hinited, check_ok, hv]

/-- Settles O20: the cursor is read whatever `INITED` is. -/
theorem rdcurReadsTheCursor : Obligations.RdcurReadsTheCursor := by
  refine ⟨encodedAs_at 4 (by decide), fun s sel => ⟨faults_badChannel rfl, fun ch hsel => ?_⟩⟩
  refine ⟨respond ((s.cur ch).setWidth 32) s, ?_, ⟨_, rfl, cursor_response _⟩, sameAll_respond _ s⟩
  simp only [exec, execRdcur, channelOf_eq_ok hsel, check_ok]

/-- Settles O21: the legal immediates are those that check 5 passes, and `SM` keeps them whole. -/
theorem setsmWritesTheSmoothedValue : Obligations.SetsmWritesTheSmoothedValue := by
  refine ⟨encodedAs_at 5 (by decide), fun s sel imm => ⟨faults_badChannel rfl, fun hsel himm => ?badOperand,
    fun ch hsel hlo hhi => ?write⟩⟩
  case badOperand =>
    have hillegal : ¬imm = (imm.setWidth 16).signExtend 32 := by rw [signed_legal_iff_toInt]; omega
    refine faults_of_execute (cause := .badOperand) ?_
    simp only [execute, execSetsm, channelOf_ok hsel, signedOf_error hillegal, check_ok, check_error]
  case write =>
    have hlegal : imm = (imm.setWidth 16).signExtend 32 := (signed_legal_iff_toInt imm).mpr ⟨hlo, hhi⟩
    refine ⟨respond 0 (s.setChannel ch { s.channel ch with sm := imm.setWidth 16 }), ?_, ?_⟩
    · simp only [exec, execSetsm, channelOf_eq_ok hsel, signedOf_ok hlegal, check_ok]
    · rw [State.sm, State.cur, State.inited, State.fr, channel_respond, channel_setChannel_self]
      refine ⟨toInt_setWidth_of_range hlo hhi, fun i => ?_, rfl, rfl, rfl, ⟨_, rfl, rfl⟩, onlyChannel_setChannel ..⟩
      rw [State.hist, channel_respond, channel_setChannel_self]
      rfl

/-- Settles O22: the sign extension keeps the signed value. -/
theorem rdsmReadsTheSmoothedValue : Obligations.RdsmReadsTheSmoothedValue := by
  refine ⟨encodedAs_at 6 (by decide), fun s sel => ⟨faults_badChannel rfl, fun ch hsel => ?_⟩⟩
  have hsigned : ((s.sm ch).signExtend 32).toInt = (s.sm ch).toInt := BitVec.toInt_signExtend_of_le (by decide)
  refine ⟨respond ((s.sm ch).signExtend 32) s, ?_, ⟨_, rfl, hsigned⟩, sameAll_respond _ s⟩
  simp only [exec, execRdsm, channelOf_eq_ok hsel, check_ok]

end Sys2Proof.Machine
end

section
/-! The mean of a channel's history (40_smoother.md R90): what `SMINIT` and `SMOBS` leave in `SM` is the mean of the slots they
leave, and it lies between them. -/

namespace Sys2Proof.Machine

open Sys2Proof.Statements

variable {c : Config}

/-! ### The sum of the slots in numbers -/

/-- The value of slot `i` of a history, 0 where it holds none. -/
def cellValue {n : Nat} (m : Memory (BitVec n)) (i : Nat) : Nat := ((readCell m i).map BitVec.toNat).getD 0

theorem slotValue_eq_cellValue (s : State c) (ch : ChannelId) (i : Nat) :
    slotValue s ch i = cellValue (s.channel ch).hist i := rfl

theorem cellValue_putCell {n : Nat} (m : Memory (BitVec n)) (a : Nat) (v : BitVec n) (i : Nat) :
    cellValue (putCell m a v) i = if a = i then v.toNat else cellValue m i := by
  rw [cellValue, readCell_putCell]
  split <;> rfl

/-- The sum, where it exists, is that of the values. -/
theorem slotSum_eq_sum {n : Nat} {m : Memory (BitVec n)} {k t : Nat} (h : slotSum m k = some t) :
    t = ∑ i ∈ Finset.range k, cellValue m i := by
  have hfull := (slotSum_eq_some_iff m k).mp (Option.isSome_of_eq_some h)
  have hsum := slotSum_of_full m k (fun i => (readCell m i).getD 0) fun i hi => by
    obtain ⟨v, hv⟩ := Option.isSome_iff_exists.mp (hfull i hi)
    rw [hv, Option.getD_some]
  rw [hsum, Option.some.injEq] at h
  rw [← h]
  refine Finset.sum_congr rfl fun i hi => ?_
  obtain ⟨v, hv⟩ := Option.isSome_iff_exists.mp (hfull i (Finset.mem_range.mp hi))
  simp only [cellValue, hv, Option.getD_some, Option.map_some]

/-- The mean of the first `w` slots, truncated (R90). -/
def meanOf {n : Nat} (w : Nat) (m : Memory (BitVec n)) : Nat := (∑ i ∈ Finset.range w, cellValue m i) / w

section
variable {n w : Nat} {m m' : Memory (BitVec n)}

theorem le_meanOf (hw : 0 < w) {lo : Nat} (h : ∀ i < w, lo ≤ cellValue m i) : lo ≤ meanOf w m := by
  rw [meanOf, Nat.le_div_iff_mul_le hw, mul_comm]
  simpa using Finset.card_nsmul_le_sum (Finset.range w) (cellValue m) lo fun i hi => h i (Finset.mem_range.mp hi)

theorem meanOf_le {hi : Nat} (h : ∀ i < w, cellValue m i ≤ hi) : meanOf w m ≤ hi := by
  refine Nat.div_le_of_le_mul ?_
  simpa using Finset.sum_le_card_nsmul (Finset.range w) (cellValue m) hi fun i hi => h i (Finset.mem_range.mp hi)

theorem meanOf_mono (h : ∀ i < w, cellValue m i ≤ cellValue m' i) : meanOf w m ≤ meanOf w m' :=
  Nat.div_le_div_right (Finset.sum_le_sum fun i hi => h i (Finset.mem_range.mp hi))

theorem meanOf_eq (hw : 0 < w) {v : Nat} (h : ∀ i < w, cellValue m i = v) : meanOf w m = v :=
  Nat.le_antisymm (meanOf_le fun i hi => (h i hi).le) (le_meanOf hw fun i hi => (h i hi).ge)

end

/-- A mean of samples is below 2^15, so it is non-negative in the 16-bit `SM`. -/
theorem meanOf_lt (m : Memory c.Sample) : meanOf c.w m < 32768 := by
  have hbits : c.sampleBits ≤ 15 := bitsFor_le_iff.mpr (Nat.lt_of_le_of_lt c.legal.adcMax_range.2 (by decide))
  have hcell (i : Nat) : cellValue m i ≤ 32767 := by
    unfold cellValue
    cases readCell m i with
    | none => exact Nat.zero_le _
    | some v => exact Nat.le_of_lt_succ (Nat.lt_of_lt_of_le v.isLt (Nat.pow_le_pow_right (by decide) hbits))
  exact Nat.lt_succ_of_le (meanOf_le fun i _ => hcell i)

/-! ### `SM` holds the mean -/

/-- `SM` is the mean of the slots. -/
def HoldsMean (k : Channel c) : Prop := k.sm = BitVec.ofNat 16 (meanOf c.w k.hist)

theorem toInt_sm_of_holdsMean {k : Channel c} (h : HoldsMean k) : k.sm.toInt = meanOf c.w k.hist := by
  have hlt := meanOf_lt k.hist
  rw [h, BitVec.toInt_eq_toNat_of_lt] <;> rw [BitVec.toNat_ofNat] <;> omega

/-- The response to a command that computes a mean, unsigned. -/
theorem toNat_response_of_holdsMean {k : Channel c} (h : HoldsMean k) : (k.sm.setWidth 32).toNat = meanOf c.w k.hist := by
  have hlt := meanOf_lt k.hist
  rw [h, BitVec.toNat_setWidth, BitVec.toNat_ofNat]
  omega

/-- The response to a command that computes a mean, signed. -/
theorem toInt_response_of_holdsMean {k : Channel c} (h : HoldsMean k) : (k.sm.setWidth 32).toInt = k.sm.toInt := by
  have hlt := meanOf_lt k.hist
  have hnat := toNat_response_of_holdsMean h
  rw [toInt_sm_of_holdsMean h, BitVec.toInt_eq_toNat_of_lt (by omega), hnat]

theorem cellValue_initChannel (x : c.Sample) (k : Channel c) {i : Nat} (hi : i < c.w) :
    cellValue (initChannel c x k).hist i = x.toNat := by
  rw [cellValue, initChannel_hist, if_pos hi]
  rfl

theorem initChannel_holdsMean {x : c.Sample} (k : Channel c) : HoldsMean (initChannel c x k) := by
  rw [HoldsMean, initChannel_sm, meanOf_eq c.legal.w_range.1 fun i hi => cellValue_initChannel x k hi,
    BitVec.ofNat_toNat]

section
variable {x : c.Sample} {k k' : Channel c} (h : observeChannel c x k = some k')
include h

theorem observeChannel_hist : k'.hist = putCell k.hist k.cur.toNat x := by
  obtain ⟨t, -, rfl⟩ := observeChannel_eq_some h; rfl

theorem observeChannel_cur : k'.cur.toNat = (k.cur.toNat + 1) % c.w := by
  obtain ⟨t, -, rfl⟩ := observeChannel_eq_some h
  exact cursor_toNat (Nat.mod_lt _ c.legal.w_range.1)

theorem observeChannel_inited : k'.inited = k.inited := by
  obtain ⟨t, -, rfl⟩ := observeChannel_eq_some h; rfl

theorem observeChannel_fr : k'.fr = k.fr := by
  obtain ⟨t, -, rfl⟩ := observeChannel_eq_some h; rfl

theorem observeChannel_holdsMean : HoldsMean k' := by
  obtain ⟨t, hsum, rfl⟩ := observeChannel_eq_some h
  exact congrArg (fun t => BitVec.ofNat 16 (t / c.w)) (slotSum_eq_sum hsum)

end

/-- An observation goes through when every slot but the one it writes holds a value. -/
theorem observeChannel_isSome_of_others (x : c.Sample) {k : Channel c}
    (h : ∀ i < c.w, i ≠ k.cur.toNat → (readCell k.hist i).isSome) : ∃ k', observeChannel c x k = some k' := by
  have hfull : (slotSum (putCell k.hist k.cur.toNat x) c.w).isSome := by
    rw [slotSum_eq_some_iff]
    intro i hi
    rw [readCell_putCell]
    split
    · rfl
    · next hne => exact h i hi (Ne.symm hne)
  obtain ⟨t, ht⟩ := Option.isSome_iff_exists.mp hfull
  exact ⟨_, by simp only [observeChannel, mean, ht, Option.map_some]; rfl⟩

/-! ### The commands that compute a mean -/

section
variable {s : State c} {sel : BitVec 4} {imm : BitVec 32} {ch : ChannelId} (hsel : sel.toNat = ch.val)
  (himm : imm.toNat ≤ c.adcMax)
include hsel himm

theorem execute_sminit_completes :
    execute (.sminit sel imm) s = .next (respond ((imm.setWidth c.sampleBits).setWidth 32)
      (s.setChannel ch (initChannel c (imm.setWidth c.sampleBits) (s.channel ch)))) := by
  simp only [execute, execSminit, channelOf_eq_ok hsel, sampleOf_ok himm, check_ok]

theorem execute_smobs_completes {k : Channel c} (hinited : s.inited ch = true)
    (hobs : observeChannel c (imm.setWidth c.sampleBits) (s.channel ch) = some k) :
    execute (.smobs sel imm) s = .next (respond (k.sm.setWidth 32) (s.setChannel ch k)) := by
  simp only [execute, execSmobs, channelOf_eq_ok hsel, sampleOf_ok himm, initedOf_ok hinited, check_ok, hobs]

end

/-- The response is `err = 0`. -/
def Completed (t : State c) : Prop := ∃ d, t.rsp = some { err := false, data := d }

/-- A check on the way to a response without a fault has passed. -/
theorem check_completed {α : Type} {o : Except Cause α} {s t : State c} {go : α → Result c} (h : check o s go = .next t)
    (ht : Completed t) : ∃ a, o = .ok a ∧ go a = .next t := by
  rcases check_next h with ⟨cause, -, rfl⟩ | hgo
  · obtain ⟨d, hd⟩ := ht
    cases hd
  · exact hgo

section
variable {s t : State c} {sel : BitVec 4} {imm : BitVec 32} {ch : ChannelId} (hsel : sel.toNat = ch.val) (ht : Completed t)
include hsel ht

theorem channel_of_sminit_completed (h : execute (.sminit sel imm) s = .next t) :
    ∃ x, t.channel ch = initChannel c x (s.channel ch) := by
  obtain ⟨ch', hch, h⟩ := check_completed h ht
  obtain ⟨x, -, h⟩ := check_completed h ht
  obtain rfl : ch = ch' := Except.ok.inj ((channelOf_eq_ok hsel).symm.trans hch)
  cases h
  exact ⟨x, channel_setChannel_self ..⟩

theorem channel_of_smobs_completed (h : execute (.smobs sel imm) s = .next t) :
    s.inited ch = true ∧ ∃ x, observeChannel c x (s.channel ch) = some (t.channel ch) := by
  obtain ⟨ch', hch, h⟩ := check_completed h ht
  obtain ⟨x, -, h⟩ := check_completed h ht
  obtain ⟨u, hu, h⟩ := check_completed h ht
  obtain rfl : ch = ch' := Except.ok.inj ((channelOf_eq_ok hsel).symm.trans hch)
  have hinited : s.inited ch = true := by
    by_contra hno
    cases (initedOf_error (Bool.eq_false_of_not_eq_true hno)).symm.trans hu
  refine ⟨hinited, x, ?_⟩
  cases hobs : observeChannel c x (s.channel ch) with
  | none => simp only [hobs, reduceCtorEq] at h
  | some k =>
    simp only [hobs, Host.Outcome.next.injEq] at h
    rw [← h, channel_respond, channel_setChannel_self]

end

/-! ### O16, O17 -/

/-- Settles O16: all slots and `SM` hold the sample, which the slots keep whole. -/
theorem sminitFillsTheHistoryOfItsChannel : Obligations.SminitFillsTheHistoryOfItsChannel := by
  refine ⟨encodedAs_at 1 (by decide), fun s sel imm => ⟨faults_badChannel rfl, fun hsel himm => ?badOperand,
    fun ch hsel himm => ?completes⟩⟩
  case badOperand =>
    have hsample : sampleOf block imm = .error .badOperand := sampleOf_error (Nat.not_le.mpr himm)
    refine faults_of_execute (cause := .badOperand) ?_
    simp only [execute, execSminit, channelOf_ok hsel, hsample, check_ok, check_error]
  case completes =>
    have hlegal : imm.toNat ≤ block.adcMax := himm
    have hx := sample_toNat hlegal
    refine ⟨_, (exec_eq_execute _ s).trans (execute_sminit_completes hsel hlegal), ?_⟩
    simp only [State.hist, State.cur, State.inited, State.sm, State.fr, channel_respond, channel_setChannel_self]
    refine ⟨fun i hi => ⟨imm.setWidth block.sampleBits, ?_, hx⟩, fun i hi => ?_, rfl, rfl, ?_, rfl,
      ⟨_, rfl, sample_read hlegal⟩, onlyChannel_setChannel ..⟩
    · rw [initChannel_hist, if_pos (show i < block.w from hi)]
    · rw [initChannel_hist, if_neg (Nat.not_lt.mpr (show block.w ≤ i from hi))]
    · rw [initChannel_sm, sample_toInt (hx.trans_le hlegal), hx]

/-- Settles O17: the observation goes through, and `SM` holds the mean of the slots it leaves. -/
theorem smobsStoresAdvancesAndAverages : Obligations.SmobsStoresAdvancesAndAverages := by
  refine ⟨encodedAs_at 2 (by decide), fun s sel imm => ⟨faults_badChannel rfl, fun hsel himm => ?badOperand,
    fun ch hsel himm => ⟨fun hinited => ?uninit, fun hinited hothers => ?completes⟩⟩⟩
  case badOperand =>
    have hsample : sampleOf block imm = .error .badOperand := sampleOf_error (Nat.not_le.mpr himm)
    refine faults_of_execute (cause := .badOperand) ?_
    simp only [execute, execSmobs, channelOf_ok hsel, hsample, check_ok, check_error]
  case uninit =>
    have hsample : sampleOf block imm = .ok _ := sampleOf_ok himm
    refine faults_of_execute (cause := .uninit) ?_
    simp only [execute, execSmobs, channelOf_eq_ok hsel, hsample, initedOf_error hinited, check_ok, check_error]
  case completes =>
    have hlegal : imm.toNat ≤ block.adcMax := himm
    obtain ⟨k, hobs⟩ := observeChannel_isSome_of_others (imm.setWidth block.sampleBits) hothers
    have hmean := observeChannel_holdsMean hobs
    refine ⟨_, (exec_eq_execute _ s).trans (execute_smobs_completes hsel hlegal hinited hobs), ?_⟩
    simp only [slotValue_eq_cellValue, State.hist, State.cur, State.inited, State.sm, State.fr, channel_respond,
      channel_setChannel_self]
    refine ⟨?stored, ?filled, fun i hi => ?others, observeChannel_cur hobs, toInt_sm_of_holdsMean hmean,
      (observeChannel_inited hobs).trans hinited, observeChannel_fr hobs, ⟨_, rfl, toInt_response_of_holdsMean hmean⟩,
      onlyChannel_setChannel ..⟩
    case stored => rw [observeChannel_hist hobs, cellValue_putCell, if_pos rfl, sample_toNat hlegal]
    case filled => rw [observeChannel_hist hobs, readCell_putCell, if_pos rfl, Option.isSome_some]
    case others => rw [observeChannel_hist hobs, readCell_putCell, if_neg (Ne.symm hi)]

/-! ### O24 -/

/-- After either command the channel is initialised and `SM` holds the mean. -/
theorem holdsMean_of_completed {s t : State c} {ch : ChannelId} {sel : BitVec 4} {imm : BitVec 32} {i : Instr}
    (hsel : sel.toNat = ch.val) (hi : i = .sminit sel imm ∨ i = .smobs sel imm) (h : execute i s = .next t)
    (ht : Completed t) : (t.channel ch).inited = true ∧ HoldsMean (t.channel ch) := by
  rcases hi with rfl | rfl
  · obtain ⟨x, hx⟩ := channel_of_sminit_completed hsel ht h
    rw [hx]
    exact ⟨rfl, initChannel_holdsMean _⟩
  · obtain ⟨hinited, x, hobs⟩ := channel_of_smobs_completed hsel ht h
    exact ⟨(observeChannel_inited hobs).trans hinited, observeChannel_holdsMean hobs⟩

/-- The slots of an initialised channel hold samples (R35). -/
theorem cellValue_le_adcMax {k : Channel c} (h : k.Inv) (hinited : k.inited = true) {i : Nat} (hi : i < c.w) :
    cellValue k.hist i ≤ c.adcMax := by
  obtain ⟨v, hv, hle⟩ := h.hist_full hinited i hi
  rwa [cellValue, hv]

/-- Settles O24: `SM` holds the mean of the slots, which lies between them and is monotone in them. -/
theorem smoothedValueLiesBetweenTheSlots : Obligations.SmoothedValueLiesBetweenTheSlots := by
  refine ⟨fun c s t ch sel imm i hinv hsel hi h ht => ?bounds,
    fun c s s' t t' ch sel imm imm' _ _ hsel h h' ht ht' hle => ?monotone⟩
  case bounds =>
    obtain ⟨hinited, hmean⟩ := holdsMean_of_completed hsel hi h ht
    have hslots (j : Nat) (hj : j < c.w) : cellValue (t.channel ch).hist j ≤ c.adcMax :=
      cellValue_le_adcMax ((execute_keeps_inv i hinv t h).channel ch) hinited hj
    have hw := c.legal.w_range.1
    rw [State.sm, toInt_sm_of_holdsMean hmean]
    exact ⟨Int.natCast_nonneg _, Int.ofNat_le.mpr (meanOf_le hslots), fun _ hlo => Int.ofNat_le.mpr (le_meanOf hw hlo),
      fun _ hhi => Int.ofNat_le.mpr (meanOf_le hhi), fun _ hv => congrArg _ (meanOf_eq hw hv)⟩
  case monotone =>
    obtain ⟨-, hmean⟩ := holdsMean_of_completed hsel (.inr rfl) h ht
    obtain ⟨-, hmean'⟩ := holdsMean_of_completed hsel (.inr rfl) h' ht'
    rw [State.sm, State.sm, toInt_sm_of_holdsMean hmean, toInt_sm_of_holdsMean hmean']
    exact Int.ofNat_le.mpr (meanOf_mono hle)

end Sys2Proof.Machine
end

section
/-! The four filters are independent (40_smoother.md R99): of the state a smoother command reads only its own channel. -/

namespace Sys2Proof.Machine

variable {c : Config}

/-- Where the first outcome is a next state, so is the second, with the same channel `ch` and the same response. -/
def SameFilter (ch : ChannelId) (r r' : Result c) : Prop :=
  ∀ t, r = .next t → ∃ t', r' = .next t' ∧ t'.channel ch = t.channel ch ∧ t'.rsp = t.rsp

section
variable {s s' : State c} {ch : ChannelId}

theorem sameFilter_next {t t' : State c} (hch : t'.channel ch = t.channel ch) (hrsp : t'.rsp = t.rsp) :
    SameFilter ch (.next t) (.next t') := by
  rintro _ ⟨⟩
  exact ⟨t', rfl, hch, hrsp⟩

theorem sameFilter_channel (d : BitVec 32) (k : Channel c) :
    SameFilter ch (.next (respond d (s.setChannel ch k))) (.next (respond d (s'.setChannel ch k))) := by
  refine sameFilter_next ?_ rfl
  rw [channel_respond, channel_respond, channel_setChannel_self, channel_setChannel_self]

/-- Check 3 passes the channel that the selector names. -/
theorem sameFilter_selector {sel : BitVec 4} {go go' : ChannelId → Result c} (hsel : sel.toNat = ch.val)
    (hgo : SameFilter ch (go ch) (go' ch)) : SameFilter ch (check (channelOf sel) s go) (check (channelOf sel) s' go') := by
  rwa [channelOf_eq_ok hsel, check_ok, check_ok]

variable (h : s'.channel ch = s.channel ch)
include h

theorem sameFilter_answer (d : BitVec 32) : SameFilter ch (.next (respond d s)) (.next (respond d s')) :=
  sameFilter_next h rfl

theorem sameFilter_check {α : Type} {o : Except Cause α} {go go' : α → Result c} (hgo : ∀ a, SameFilter ch (go a) (go' a)) :
    SameFilter ch (check o s go) (check o s' go') := by
  cases o with
  | error cause => exact sameFilter_next h rfl
  | ok a => exact hgo a

theorem initedOf_congr : initedOf s' ch = initedOf s ch := by
  rw [initedOf, initedOf, State.inited, State.inited, h]

end

/-- Settles O25: past its selector each command reads the one channel, in both states the same. -/
theorem filterReadsOnlyItsOwnChannel : Obligations.FilterReadsOnlyItsOwnChannel := by
  intro c s s' t ch sel i hsel hi h ht
  suffices hsame : SameFilter ch (execute i s) (execute i s') from hsame t ht
  rcases hi with ⟨x, rfl⟩ | ⟨x, rfl⟩ | ⟨j, rfl⟩ | rfl | ⟨v, rfl⟩ | rfl
  all_goals refine sameFilter_selector hsel ?_
  · rw [h]
    exact sameFilter_check h fun _ => sameFilter_channel _ _
  · rw [h, initedOf_congr h]
    refine sameFilter_check h fun x => sameFilter_check h fun _ => ?_
    cases observeChannel c x (s.channel ch) with
    | none => exact nofun
    | some k => exact sameFilter_channel _ k
  · rw [initedOf_congr h]
    refine sameFilter_check h fun j => sameFilter_check h fun _ => ?_
    rw [State.hist, State.hist, h]
    cases readCell (s.channel ch).hist j with
    | none => exact nofun
    | some v => exact sameFilter_answer h _
  · rw [State.cur, State.cur, h]; exact sameFilter_answer h _
  · rw [h]; exact sameFilter_check h fun _ => sameFilter_channel _ _
  · rw [State.sm, State.sm, h]; exact sameFilter_answer h _

end Sys2Proof.Machine
end

section
/-! The source's property of the filter (40_smoother.md R97). Along a run the slots of a channel are the last `W` samples of the
list of all samples since `SMINIT`, with the sample number `m` in slot `m mod W`; so their mean is that of the last `W`. -/

namespace Sys2Proof.Machine

open Sys2Proof.Statements

variable {c : Config}

/-! ### The last samples of a list -/

theorem sum_eq_sum_range (xs : List Nat) : xs.sum = ∑ j ∈ Finset.range xs.length, xs.getD j 0 := by
  rw [← Fin.sum_univ_getElem, Finset.sum_range]
  exact Finset.sum_congr rfl fun i _ => (List.getD_eq_getElem _ _ i.isLt).symm

/-- The sum of the last `n` numbers, by their places in the list. -/
theorem sumOfLast_eq_sum_Ico (n : Nat) (xs : List Nat) :
    sumOfLast n xs = ∑ m ∈ Finset.Ico (xs.length - n) xs.length, xs.getD m 0 := by
  rw [sumOfLast, sum_eq_sum_range, List.length_drop, Finset.sum_Ico_eq_sum_range]
  refine Finset.sum_congr rfl fun j _ => ?_
  rw [List.getD_eq_getElem?_getD, List.getElem?_drop, List.getD_eq_getElem?_getD]

/-! ### The slots hold the last samples -/

/-- The channel is initialised, and its cursor and slots are those of a filter that has taken in the samples `xs`, its `W` initial
ones among them. -/
structure HoldsSamples (k : Channel c) (xs : List Nat) : Prop where
  inited : k.inited = true
  full : c.w ≤ xs.length
  cur : k.cur.toNat = xs.length % c.w
  slot : ∀ m < xs.length, xs.length ≤ m + c.w → cellValue k.hist (m % c.w) = xs.getD m 0

/-- Any `W` places in a row are in the `W` slots, each in one of its own. -/
theorem meanOf_of_holdsSamples {k : Channel c} {xs : List Nat} (h : HoldsSamples k xs) :
    meanOf c.w k.hist = sumOfLast c.w xs / c.w := by
  have hlen : xs.length - c.w + c.w = xs.length := Nat.sub_add_cancel h.full
  have himage := Nat.image_Ico_mod (xs.length - c.w) c.w
  have hinj := Nat.mod_injOn_Ico (xs.length - c.w) c.w
  rw [hlen] at himage hinj
  rw [meanOf, sumOfLast_eq_sum_Ico, ← himage, Finset.sum_image hinj]
  congr 1
  refine Finset.sum_congr rfl fun m hm => ?_
  obtain ⟨hlo, hlt⟩ := Finset.mem_Ico.mp hm
  exact h.slot m hlt (by omega)

theorem holdsSamples_initChannel (x : c.Sample) (k : Channel c) :
    HoldsSamples (initChannel c x k) (List.replicate c.w x.toNat) where
  inited := rfl
  full := List.length_replicate.ge
  cur := by simp
  slot m hm _ := by
    have hlt : m < c.w := by simpa using hm
    rw [Nat.mod_eq_of_lt hlt, cellValue_initChannel x k hlt, List.getD_replicate _ hlt]

/-- Two places less than `W` apart are in different slots. -/
theorem mod_ne_mod_of_lt {m n w : Nat} (hlt : m < n) (hnear : n < m + w) : m % w ≠ n % w := by
  intro h
  have hdvd : w ∣ n - m := (Nat.modEq_iff_dvd' hlt.le).mp h
  have hle := Nat.le_of_dvd (by omega) hdvd
  omega

/-- An observation puts its sample into the slot of the oldest one. -/
theorem holdsSamples_observeChannel {x : c.Sample} {k k' : Channel c} {xs : List Nat} (h : HoldsSamples k xs)
    (hobs : observeChannel c x k = some k') : HoldsSamples k' (xs ++ [x.toNat]) where
  inited := (observeChannel_inited hobs).trans h.inited
  full := by simpa using Nat.le_succ_of_le h.full
  cur := by rw [observeChannel_cur hobs, h.cur, List.length_append, List.length_singleton, Nat.mod_add_mod]
  slot m hm hnear := by
    rw [List.length_append, List.length_singleton] at hm hnear
    rw [observeChannel_hist hobs, cellValue_putCell, h.cur]
    rcases Nat.lt_succ_iff_lt_or_eq.mp hm with hlt | rfl
    · rw [if_neg (mod_ne_mod_of_lt hlt hnear).symm, h.slot m hlt (by omega), List.getD_append _ _ _ _ hlt]
    · rw [if_pos rfl, List.getD_append_right _ _ _ _ le_rfl, Nat.sub_self, List.getD_cons_zero]

/-! ### Words that store nothing in the channel -/

/-- The history, the cursor and `INITED` are the same. -/
structure SameHistory (k k' : Channel c) : Prop where
  hist : k'.hist = k.hist
  cur : k'.cur = k.cur
  inited : k'.inited = k.inited

theorem holdsSamples_of_sameHistory {k k' : Channel c} {xs : List Nat} (h : HoldsSamples k xs) (hsame : SameHistory k k') :
    HoldsSamples k' xs :=
  ⟨hsame.inited.trans h.inited, h.full, hsame.cur ▸ h.cur, hsame.hist ▸ h.slot⟩

theorem sameHistory_refl (k : Channel c) : SameHistory k k := ⟨rfl, rfl, rfl⟩

/-- Where the outcome is a next state, channel `ch` has its history. -/
def KeepsHistory (ch : ChannelId) (s : State c) (r : Result c) : Prop :=
  ∀ t, r = .next t → SameHistory (s.channel ch) (t.channel ch)

section
variable {ch : ChannelId} {s : State c}

theorem keepsHistory_fault (cause : Cause) : KeepsHistory ch s (.next (takeFault cause s)) := by
  rintro _ ⟨⟩
  exact sameHistory_refl _

theorem keepsHistory_answer (d : BitVec 32) : KeepsHistory ch s (.next (respond d s)) := by
  rintro _ ⟨⟩
  exact sameHistory_refl _

theorem keepsHistory_strip (d : BitVec 32) (k : StripId) (t : Strip) :
    KeepsHistory ch s (.next (respond d (s.setStripe k t))) := by
  rintro _ ⟨⟩
  exact sameHistory_refl _

theorem keepsHistory_channel {ch' : ChannelId} {k : Channel c} (d : BitVec 32)
    (hk : ch = ch' → SameHistory (s.channel ch') k) : KeepsHistory ch s (.next (respond d (s.setChannel ch' k))) := by
  rintro _ ⟨⟩
  rw [channel_respond, channel_setChannel]
  split
  · next h => rw [h]; exact hk h
  · exact sameHistory_refl _

theorem keepsHistory_stop : KeepsHistory ch s (.fault .historySlotEmpty) := nofun

theorem keepsHistory_check {α : Type} {o : Except Cause α} {go : α → Result c}
    (hgo : ∀ a, o = .ok a → KeepsHistory ch s (go a)) : KeepsHistory ch s (check o s go) :=
  check_all (KeepsHistory ch s) keepsHistory_fault hgo

theorem toNat_le_of_sampleOf {imm : BitVec 32} {x : c.Sample} (h : sampleOf c imm = .ok x) : imm.toNat ≤ c.adcMax := by
  by_contra hno
  rw [sampleOf_error hno] at h
  cases h

/-- The command is an `SMINIT` or an `SMOBS` on the channel, with a sample in range. -/
def TakesSample (c : Config) (ch : ChannelId) (i : Instr) : Prop :=
  ∃ sel imm, sel.toNat = ch.val ∧ imm.toNat ≤ c.adcMax ∧ (i = .sminit sel imm ∨ i = .smobs sel imm)

/-- Every other command keeps the history of the channel. -/
theorem execute_keepsHistory {i : Instr} (hi : ¬TakesSample c ch i) : KeepsHistory ch s (execute i s) := by
  cases i with
  | nop | rdstat => exact keepsHistory_answer _
  | sminit sel imm =>
    refine keepsHistory_check fun ch' hch => keepsHistory_check fun x hx => keepsHistory_channel _ fun heq => ?_
    exact absurd ⟨sel, imm, heq ▸ toNat_of_channelOf hch, toNat_le_of_sampleOf hx, .inl rfl⟩ hi
  | smobs sel imm =>
    refine keepsHistory_check fun ch' hch => keepsHistory_check fun x hx => keepsHistory_check fun _ _ => ?_
    split
    · exact keepsHistory_stop
    · refine keepsHistory_channel _ fun heq => ?_
      exact absurd ⟨sel, imm, heq ▸ toNat_of_channelOf hch, toNat_le_of_sampleOf hx, .inr rfl⟩ hi
  | rdhist =>
    refine keepsHistory_check fun _ _ => keepsHistory_check fun _ _ => keepsHistory_check fun _ _ => ?_
    split
    · exact keepsHistory_stop
    · exact keepsHistory_answer _
  | rdcur | rdsm | rdfr | qsin | qhsv => exact keepsHistory_check fun _ _ => keepsHistory_answer _
  | rdpix | rddiag => exact keepsHistory_check fun _ _ => keepsHistory_check fun _ _ => keepsHistory_answer _
  | norm => exact keepsHistory_check fun _ _ => keepsHistory_channel _ fun _ => ⟨rfl, rfl, rfl⟩
  | setsm | setfr =>
    exact keepsHistory_check fun _ _ => keepsHistory_check fun _ _ => keepsHistory_channel _ fun _ => ⟨rfl, rfl, rfl⟩
  | clr | casc | pulse | render => exact keepsHistory_check fun _ _ => keepsHistory_strip _ _ _
  | blend => exact keepsHistory_check fun _ _ => keepsHistory_check fun _ _ => keepsHistory_strip _ _ _
  | setpix =>
    exact keepsHistory_check fun _ _ => keepsHistory_check fun _ _ => keepsHistory_check fun _ _ => keepsHistory_strip _ _ _

end

/-! ### The samples that a word stores -/

section
variable {sel : BitVec 4} {w : Word64}

theorem storedSamples_cons (w : Word64) (ws : List Word64) :
    storedSamples c sel (w :: ws) = storedSamples c sel [w] ++ storedSamples c sel ws := by
  simp only [storedSamples]
  split
  · split <;> rfl
  · rfl

theorem storedSamples_append (ws ws' : List Word64) :
    storedSamples c sel (ws ++ ws') = storedSamples c sel ws ++ storedSamples c sel ws' := by
  induction ws with
  | nil => rfl
  | cons w ws ih => rw [List.cons_append, storedSamples_cons, ih, storedSamples_cons w ws, List.append_assoc]

theorem storedSamples_smobs {imm : BitVec 32} (h : decode w = .ok (.smobs sel imm)) (himm : imm.toNat ≤ c.adcMax) :
    storedSamples c sel [w] = [imm.toNat] := by
  simp [storedSamples, h, himm]

theorem storedSamples_eq_nil (h : ∀ imm, decode w = .ok (.smobs sel imm) → ¬imm.toNat ≤ c.adcMax) :
    storedSamples c sel [w] = [] := by
  simp only [storedSamples]
  split
  · next hw => exact if_neg fun ⟨hsel, himm⟩ => h _ (hsel ▸ hw) himm
  · rfl

end

/-! ### A run -/

/-- An `SMOBS` in range on the channel goes through only by an observation. -/
theorem observe_of_execute_smobs {s t : State c} {ch : ChannelId} {sel : BitVec 4} {imm : BitVec 32} (hsel : sel.toNat = ch.val)
    (himm : imm.toNat ≤ c.adcMax) (hinited : s.inited ch = true) (h : execute (.smobs sel imm) s = .next t) :
    observeChannel c (imm.setWidth c.sampleBits) (s.channel ch) = some (t.channel ch) ∧
      t.rsp = some { err := false, data := (t.channel ch).sm.setWidth 32 } := by
  cases hobs : observeChannel c (imm.setWidth c.sampleBits) (s.channel ch) with
  | none =>
    simp only [execute, execSmobs, channelOf_eq_ok hsel, sampleOf_ok himm, initedOf_ok hinited, check_ok, hobs,
      reduceCtorEq] at h
  | some k =>
    rw [execute_smobs_completes hsel himm hinited hobs, Host.Outcome.next.injEq] at h
    rw [← h, channel_respond, channel_setChannel_self]
    exact ⟨rfl, rfl⟩

section
variable {ch : ChannelId} {sel : BitVec 4} (hsel : sel.toNat = ch.val)
include hsel

/-- Every word that does not initialise the channel again adds the samples it stores. -/
theorem holdsSamples_of_obey {s t : State c} {w : Word64} {xs : List Nat} (hs : HoldsSamples (s.channel ch) xs)
    (hw : ∀ y, decode w = .ok (.sminit sel y) → c.adcMax < y.toNat) (h : obey execute w s = .next t) :
    HoldsSamples (t.channel ch) (xs ++ storedSamples c sel [w]) := by
  cases hdec : decode w with
  | error cause =>
    rw [obey_error hdec, Host.Outcome.next.injEq] at h
    rw [storedSamples_eq_nil (by simp [hdec]), List.append_nil, ← h, channel_takeFault]
    exact hs
  | ok i =>
    rw [obey_ok hdec] at h
    by_cases hi : TakesSample c ch i
    · obtain ⟨sel', imm, hsel', himm, hi⟩ := hi
      obtain rfl : sel' = sel := BitVec.eq_of_toNat_eq (hsel'.trans hsel.symm)
      rcases hi with rfl | rfl
      · exact absurd himm (Nat.not_le.mpr (hw imm hdec))
      · obtain ⟨hobs, -⟩ := observe_of_execute_smobs hsel himm hs.inited h
        rw [storedSamples_smobs hdec himm, ← sample_toNat himm]
        exact holdsSamples_observeChannel hs hobs
    · have hnone : storedSamples c sel [w] = [] := storedSamples_eq_nil fun imm himm hle =>
        hi ⟨sel, imm, hsel, hle, .inr (Except.ok.inj (hdec.symm.trans himm))⟩
      rw [hnone, List.append_nil]
      exact holdsSamples_of_sameHistory hs (execute_keepsHistory hi t h)

theorem holdsSamples_of_runsTo {s t : State c} {ws : List Word64} {xs : List Nat} (hs : HoldsSamples (s.channel ch) xs)
    (hws : ∀ w ∈ ws, ∀ y, decode w = .ok (.sminit sel y) → c.adcMax < y.toNat) (h : RunsTo s ws t) :
    HoldsSamples (t.channel ch) (xs ++ storedSamples c sel ws) := by
  induction ws generalizing s xs with
  | nil =>
    obtain rfl := runsTo_nil_iff.mp h
    rwa [storedSamples, List.append_nil]
  | cons w ws ih =>
    obtain ⟨u, hw, hrun⟩ := runsTo_cons_iff.mp h
    obtain ⟨hword, hrest⟩ := List.forall_mem_cons.mp hws
    rw [storedSamples_cons, ← List.append_assoc]
    exact ih (holdsSamples_of_obey hsel hs hword hw) hrest hrun

end

theorem runsTo_append_iff {s t : State c} {ws ws' : List Word64} :
    RunsTo s (ws ++ ws') t ↔ ∃ u, RunsTo s ws u ∧ RunsTo u ws' t := by
  induction ws generalizing s with
  | nil => simp only [List.nil_append, runsTo_nil_iff, exists_eq_left']
  | cons w ws ih =>
    simp only [List.cons_append, runsTo_cons_iff, ih]
    tauto

/-- Settles O23: up to the last word the slots hold the last samples, and the last word leaves in `SM` the mean of the slots with
its own sample among them. -/
theorem filterIsTheMeanOfTheLastSamples : Obligations.FilterIsTheMeanOfTheLastSamples := by
  intro c s t ch sel x0 x ws hsel hx0 hx hws hrun
  obtain ⟨u, hinit, hrun⟩ := runsTo_cons_iff.mp hrun
  obtain ⟨v, hrun, hlast⟩ := runsTo_append_iff.mp hrun
  simp only [runsTo_cons_iff, runsTo_nil_iff, exists_eq_right, obey_ok (decode_encode _)] at hinit hlast
  have hu : HoldsSamples (u.channel ch) (List.replicate c.w x0.toNat) := by
    rw [execute_sminit_completes hsel hx0, Host.Outcome.next.injEq] at hinit
    rw [← hinit, channel_respond, channel_setChannel_self, ← sample_toNat hx0]
    exact holdsSamples_initChannel _ _
  have hv := holdsSamples_of_runsTo hsel hu hws hrun
  obtain ⟨hobs, hrsp⟩ := observe_of_execute_smobs hsel hx hv.inited hlast
  have hmean := observeChannel_holdsMean hobs
  have hlist : storedSamples c sel (ws ++ [encode (.smobs sel x)]) = storedSamples c sel ws ++ [x.toNat] := by
    rw [storedSamples_append, storedSamples_smobs (decode_encode _) hx]
  rw [hlist, ← List.append_assoc, ← sample_toNat hx, ← meanOf_of_holdsSamples (holdsSamples_observeChannel hv hobs)]
  exact ⟨toInt_sm_of_holdsMean hmean, _, hrsp, toNat_response_of_holdsMean hmean⟩

end Sys2Proof.Machine
end

section
/-! The normalizer (41_normalizer.md). Clamping its argument to `0..F` and then scaling says R110 in one formula, from which the
properties of R114 and R115 follow; and `NORM`, `SETFR` and `RDFR` (R111 to R113), the first two of which write one fraction
register. -/

namespace Sys2Proof.Machine

open Sys2Proof.Statements

variable {c : Config}

/-! ### The scaler (R110) -/

theorem fullScale_pos (c : Config) : 0 < c.fullScale := c.legal.fullScale_range.1

/-- The three cases of R110 as one: the argument is clamped to `0..F`, then scaled. -/
theorem normalizeOf_eq (c : Config) (x : Int) : normalizeOf c x = min x.toNat c.fullScale * c.one / c.fullScale := by
  have hpos := fullScale_pos c
  by_cases hlow : x ≤ 0
  · rw [normalizeOf, if_pos hlow, Int.toNat_of_nonpos hlow, Nat.zero_min, Nat.zero_mul, Nat.zero_div]
  by_cases hhigh : (c.fullScale : Int) ≤ x
  · have hclamp : min x.toNat c.fullScale = c.fullScale := Nat.min_eq_right (by omega)
    rw [normalizeOf, if_neg hlow, if_pos hhigh, hclamp, Nat.mul_div_cancel_left _ hpos]
  · have hclamp : min x.toNat c.fullScale = x.toNat := Nat.min_eq_left (by omega)
    rw [normalizeOf, if_neg hlow, if_neg hhigh, hclamp]

theorem normalizeOf_of_nonpos {x : Int} (h : x ≤ 0) : normalizeOf c x = 0 := if_pos h

theorem normalizeOf_of_fullScale_le {x : Int} (h : (c.fullScale : Int) ≤ x) : normalizeOf c x = c.one := by
  have hpos := fullScale_pos c
  rw [normalizeOf, if_neg (by omega), if_pos h]

/-- On `0..F` the normalizer is the scaling alone, ends included. -/
theorem normalizeOf_natCast {n : Nat} (h : n ≤ c.fullScale) : normalizeOf c n = n * c.one / c.fullScale := by
  rw [normalizeOf_eq, Int.toNat_natCast, Nat.min_eq_left h]

/-- R114: the normalizer is non-decreasing. -/
theorem normalizeOf_mono {x y : Int} (h : x ≤ y) : normalizeOf c x ≤ normalizeOf c y := by
  have hclamp : min x.toNat c.fullScale ≤ min y.toNat c.fullScale := min_le_min_right _ (Int.toNat_le_toNat h)
  rw [normalizeOf_eq, normalizeOf_eq]
  exact Nat.div_le_div_right (Nat.mul_le_mul_right _ hclamp)

/-- R114: where `ONE >= F`, neighbours in `0..F` are at least `F` apart after scaling, so their quotients differ. -/
theorem normalizeOf_strictMono (hone : c.fullScale ≤ c.one) {m n : Nat} (hlt : m < n) (hn : n ≤ c.fullScale) :
    normalizeOf c m < normalizeOf c n := by
  have hapart : m * c.one + c.fullScale ≤ n * c.one :=
    calc m * c.one + c.fullScale
      _ ≤ m * c.one + c.one := Nat.add_le_add_left hone _
      _ = (m + 1) * c.one := (Nat.succ_mul ..).symm
      _ ≤ n * c.one := Nat.mul_le_mul_right _ hlt
  rw [normalizeOf_natCast (by omega), normalizeOf_natCast hn, Nat.lt_iff_add_one_le,
    ← Nat.add_div_right _ (fullScale_pos c)]
  exact Nat.div_le_div_right hapart

/-- Settles O29: the properties of R114. -/
theorem normalizerIsMonotoneAndClamped : Obligations.NormalizerIsMonotoneAndClamped := by
  refine ⟨fun c => ⟨normalizeOf_of_nonpos le_rfl, normalizeOf_of_fullScale_le le_rfl, fun _ _ => normalizeOf_mono,
    normalizeOf_le c, fun hone x y hx hxy hy => ?strict⟩, by decide⟩
  case strict =>
    lift x to Nat using hx
    lift y to Nat using by omega
    exact normalizeOf_strictMono hone (by omega) (by omega)

/-- Settles O30: `normalize(x)` is the quotient of `x * ONE` by `F`, so `normalize(x) * F` is at most `x * ONE` and less than `F`
below it; both are then divided by `F * ONE`. -/
theorem normalizerIsWithinOneUnitOfTheRatio : Obligations.NormalizerIsWithinOneUnitOfTheRatio := by
  intro c x hx hxF
  lift x to Nat using hx.le
  have hF := fullScale_pos c
  have hFq : (0 : ℚ) < c.fullScale := mod_cast hF
  have honeq : (0 : ℚ) < c.one := mod_cast one_pos c
  have hle : normalizeOf c x * c.fullScale ≤ x * c.one := by
    rw [normalizeOf_natCast (by omega)]
    exact Nat.div_mul_le_self ..
  have hlt : x * c.one < (normalizeOf c x + 1) * c.fullScale := by
    rw [normalizeOf_natCast (by omega)]
    exact (Nat.div_lt_iff_lt_mul hF).mp (Nat.lt_succ_self _)
  constructor
  · rw [sub_lt_iff_lt_add, ← add_div, div_lt_div_iff₀ hFq honeq]
    exact mod_cast hlt
  · rw [div_le_div_iff₀ honeq hFq]
    exact mod_cast hle

/-! ### Writing one fraction register -/

/-- A fraction register goes whole into the response. -/
theorem fraction_response (f : c.Fraction) : (f.setWidth 32).toNat = f.toNat :=
  BitVec.toNat_setWidth_of_le (Nat.succ_le_succ c.legal.fracBits_range.2)

/-- The fraction that `NORM` makes of `SM` is kept whole by `FR`. -/
theorem toNat_fr_normChannel (s : State c) (ch : ChannelId) :
    (normChannel c (s.channel ch)).fr.toNat = normalizeOf c (s.sm ch).toInt :=
  fraction_toNat (normalizeOf_le ..)

/-- The state after a command that writes `FR[ch]` and responds. -/
def writeFraction (d : BitVec 32) (s : State c) (ch : ChannelId) (f : c.Fraction) : State c :=
  respond d (s.setChannel ch { s.channel ch with fr := f })

section
variable (d : BitVec 32) (s : State c) (ch : ChannelId) (f : c.Fraction)

theorem channel_writeFraction : (writeFraction d s ch f).channel ch = { s.channel ch with fr := f } :=
  channel_setChannel_self ..

@[simp] theorem hist_writeFraction (i : Nat) : (writeFraction d s ch f).hist ch i = s.hist ch i := by
  simp only [State.hist, channel_writeFraction]

@[simp] theorem cur_writeFraction : (writeFraction d s ch f).cur ch = s.cur ch := by
  simp only [State.cur, channel_writeFraction]

@[simp] theorem inited_writeFraction : (writeFraction d s ch f).inited ch = s.inited ch := by
  simp only [State.inited, channel_writeFraction]

@[simp] theorem sm_writeFraction : (writeFraction d s ch f).sm ch = s.sm ch := by
  simp only [State.sm, channel_writeFraction]

@[simp] theorem fr_writeFraction : (writeFraction d s ch f).fr ch = f := by
  simp only [State.fr, channel_writeFraction]

theorem onlyChannel_writeFraction : OnlyChannel ch s (writeFraction d s ch f) := onlyChannel_setChannel ..

end

section
variable {s : State c} {sel : BitVec 4} {ch : ChannelId} (hsel : sel.toNat = ch.val)
include hsel

theorem execute_norm_completes :
    execute (.norm sel) s = .next (writeFraction ((normChannel c (s.channel ch)).fr.setWidth 32) s ch
      (normChannel c (s.channel ch)).fr) := by
  simp only [execute, execNorm, channelOf_eq_ok hsel, check_ok]
  rfl

theorem execute_setfr_completes {imm : BitVec 32} (himm : imm.toNat ≤ c.one) :
    execute (.setfr sel imm) s = .next (writeFraction 0 s ch (imm.setWidth (c.fracBits + 1))) := by
  simp only [execute, execSetfr, channelOf_eq_ok hsel, fractionOf_ok himm, check_ok]
  rfl

theorem execute_rdfr_completes : execute (.rdfr sel) s = .next (respond ((s.fr ch).setWidth 32) s) := by
  simp only [execute, execRdfr, channelOf_eq_ok hsel, check_ok]

end

/-! ### The commands -/

/-- Settles O26: what `NORM` writes is the scaler of `SM`, which `FR` and the response keep whole. -/
theorem normClampsAndScales : Obligations.NormClampsAndScales := by
  refine ⟨encodedAs_at 7 (by decide), fun s sel => ⟨faults_badChannel rfl, fun ch hsel => ?_⟩⟩
  refine ⟨_, (exec_eq_execute _ s).trans (execute_norm_completes hsel), ?_⟩
  rw [fr_writeFraction, toNat_fr_normChannel]
  refine ⟨normalizeOf_of_nonpos, normalizeOf_of_fullScale_le (c := block), fun hlow hhigh => ?between,
    hist_writeFraction _ s ch _, cur_writeFraction .., inited_writeFraction .., sm_writeFraction .., ?answer,
    onlyChannel_writeFraction ..⟩
  case between =>
    lift (s.sm ch).toInt to Nat using hlow.le with n
    rw [normalizeOf_natCast (Int.ofNat_lt.mp hhigh).le]
    rfl
  case answer => exact ⟨_, rfl, (fraction_response _).trans (toNat_fr_normChannel s ch)⟩

/-- Settles O27: the legal immediates are the fractions up to 1.0, which `FR` keeps whole. -/
theorem setfrWritesTheFraction : Obligations.SetfrWritesTheFraction := by
  refine ⟨encodedAs_at 8 (by decide), fun s sel imm => ⟨faults_badChannel rfl, fun hsel himm => ?badOperand,
    fun ch hsel himm => ?write⟩⟩
  case badOperand =>
    have hfraction : fractionOf block imm = .error .badOperand := fractionOf_error (Nat.not_le.mpr himm)
    refine faults_of_execute (cause := .badOperand) ?_
    simp only [execute, execSetfr, channelOf_ok hsel, hfraction, check_ok, check_error]
  case write =>
    have hlegal : imm.toNat ≤ block.one := himm
    refine ⟨_, (exec_eq_execute _ s).trans (execute_setfr_completes hsel hlegal), ?_, hist_writeFraction _ s ch _,
      cur_writeFraction .., inited_writeFraction .., sm_writeFraction .., ⟨_, rfl, rfl⟩, onlyChannel_writeFraction ..⟩
    rw [fr_writeFraction, ← fraction_response, fraction_read hlegal]

/-- Settles O28: `FR` goes whole into the response. -/
theorem rdfrReadsTheFraction : Obligations.RdfrReadsTheFraction := by
  refine ⟨encodedAs_at 9 (by decide), fun s sel => ⟨faults_badChannel rfl, fun ch hsel => ?_⟩⟩
  exact ⟨_, (exec_eq_execute _ s).trans (execute_rdfr_completes hsel), ⟨_, rfl, fraction_response _⟩, sameAll_respond _ s⟩

end Sys2Proof.Machine
end

section
/-! What the statement of a command on one strip asks for, proved once for all of them: the fault of check 3 (30_encoding.md R78)
and the frame of a command that writes one strip (20_memory.md R62). -/

namespace Sys2Proof.Machine

open Sys2Proof.Statements

/-- A selector that is the number of a strip passes check 3 as that strip. -/
theorem stripOf_eq_ok {sel : BitVec 4} {k : StripId} (h : sel.toNat = k.val) : stripOf sel = .ok k := by
  have hlt : sel.toNat < 2 := h ▸ k.isLt
  rw [stripOf_ok hlt, Except.ok.injEq, Fin.ext_iff]
  exact h

/-- Check 3 of a command on a strip. -/
theorem faults_badStrip {i : Instr} {s : State} {sel : BitVec 4} {go : StripId → Result block}
    (hi : execute i s = check (stripOf sel) s go) (hsel : 2 ≤ sel.toNat) : Faults i s 3 :=
  faults_of_execute (cause := .badSelector) (by rw [hi, stripOf_error (Nat.not_lt.mpr hsel), check_error])

section
variable {c : Config} (d : BitVec 32) (s : State c) (k : StripId) (t : Strip)

@[simp] theorem fr_setStripe (ch : ChannelId) : (s.setStripe k t).fr ch = s.fr ch := rfl

@[simp] theorem fr_respond (ch : ChannelId) : (respond d s).fr ch = s.fr ch := rfl

theorem pix_setStripe (i : Nat) : (respond d (s.setStripe k t)).pix k i = readPix t.pix i := by
  rw [State.pix, stripe_respond, stripe_setStripe_self]

theorem onlyStrip_setStripe : OnlyStrip k s (respond d (s.setStripe k t)) := by
  refine ⟨fun _ => ⟨fun _ => rfl, rfl, rfl, rfl, rfl⟩, fun k' hne => ?_, rfl, rfl⟩
  have hsame : (respond d (s.setStripe k t)).stripe k' = s.stripe k' := stripe_setStripe_ne _ _ _ _ hne
  simp only [SameStrip, SamePixels, SameReadouts, SamePulse, State.pix, hsame, implies_true, and_self]

variable {s k t}

theorem samePulse_setStripe (h : SamePulseReadouts (s.stripe k) t) : SamePulse s (respond d (s.setStripe k t)) k := by
  obtain ⟨hhue, hper, hamp, hang, hphs, hpb, hpcol⟩ := h
  rw [SamePulse, stripe_respond, stripe_setStripe_self]
  exact ⟨hhue, hper, hamp, hang, hphs, hpb, hpcol⟩

theorem sameReadouts_setStripe (hlit : t.lit = (s.stripe k).lit) (h : SamePulseReadouts (s.stripe k) t) :
    SameReadouts s (respond d (s.setStripe k t)) k := by
  refine ⟨?_, samePulse_setStripe d h⟩
  rw [stripe_respond, stripe_setStripe_self, hlit]

end

end Sys2Proof.Machine
end

section
/-! Clear and cascade fill (42_cascade.md): the cascade length at the ends of its range, `CLR` and `CASC`, and the two together. -/

namespace Sys2Proof.Machine

open Sys2Proof.Statements

variable {c : Config}

/-! ### The cascade length (R120, R124) -/

theorem half_lt_one (c : Config) : c.half < c.one := Nat.div_lt_self (one_pos c) Nat.one_lt_two

theorem litCount_zero (c : Config) : litCount c 0 = 0 := by
  rw [litCount, clamp_zero, rnd, Nat.zero_mul, Nat.add_zero, Nat.div_eq_of_lt (half_lt_one c), Nat.zero_min]

theorem litCount_one (c : Config) : litCount c c.one = c.n := by
  have hrnd : rnd c c.one c.n = c.n := by
    rw [rnd, Nat.add_mul_div_left _ _ (one_pos c), Nat.div_eq_of_lt (half_lt_one c), Nat.zero_add]
  rw [litCount, clamp_zero, hrnd, Nat.min_self]

theorem litCount_mono (c : Config) {f g : Nat} (h : f ≤ g) : litCount c f ≤ litCount c g := by
  rw [litCount, litCount, clamp_zero, clamp_zero]
  exact min_le_min_right _ (rnd_mono c c.n h)

/-- The cascade length fits `LIT`. -/
theorem toNat_lit_cascadeStrip (f : Nat) (t : Strip) : (cascadeStrip c f t).lit.toNat = litCount c f := by
  have hle := litCount_le c f
  obtain ⟨-, hn⟩ := c.legal.n_range
  rw [cascadeStrip_lit, BitVec.toNat_ofNat, Nat.mod_eq_of_lt (by omega)]

/-- `LIT` goes whole into the response. -/
theorem lit_response (v : BitVec 16) : (v.setWidth 32).toNat = v.toNat := BitVec.toNat_setWidth_of_le (by decide)

/-! ### The commands -/

section
variable {s : State c} {sel : BitVec 4} {k : StripId} (hsel : sel.toNat = k.val)
include hsel

theorem execute_clr_completes : execute (.clr sel) s = .next (respond 0 (s.setStripe k (clearStrip c (s.stripe k)))) := by
  simp only [execute, execClr, stripOf_eq_ok hsel, check_ok]

theorem execute_casc_completes :
    execute (.casc sel) s =
      .next (respond ((cascadeStrip c (s.fr (c.cascCh k)).toNat (s.stripe k)).lit.setWidth 32)
        (s.setStripe k (cascadeStrip c (s.fr (c.cascCh k)).toNat (s.stripe k)))) := by
  simp only [execute, execCasc, stripOf_eq_ok hsel, check_ok]

/-- `CLR` and then `CASC` fill the cleared strip; the fraction is that from before. -/
theorem stripe_of_clr_casc {t : State c} (hrun : RunsTo s [encode (.clr sel), encode (.casc sel)] t) :
    t.stripe k = cascadeStrip c (s.fr (c.cascCh k)).toNat (clearStrip c (s.stripe k)) := by
  obtain ⟨u, hclr, hcasc⟩ := runsTo_pair_iff.mp hrun
  rw [execute_clr_completes hsel, Host.Outcome.next.injEq] at hclr
  rw [execute_casc_completes hsel, Host.Outcome.next.injEq] at hcasc
  subst hclr hcasc
  simp only [stripe_respond, stripe_setStripe_self, fr_respond, fr_setStripe]

end

/-! ### The obligations -/

/-- Settles O31: all `N` pixels are overwritten with black. -/
theorem clrBlackensItsStrip : Obligations.ClrBlackensItsStrip := by
  refine ⟨encodedAs_at 10 (by decide), fun s sel => ⟨faults_badStrip rfl, fun k hsel => ?_⟩⟩
  refine ⟨_, (exec_eq_execute _ s).trans (execute_clr_completes hsel), fun i hi => ?inside, fun i hi => ?outside,
    sameReadouts_setStripe _ (clearStrip_lit ..) (clearStrip_samePulse block _), ⟨_, rfl, rfl⟩, onlyStrip_setStripe ..⟩
  case inside =>
    rw [pix_setStripe, clearStrip_pix, block_n, if_pos hi]
    rfl
  case outside =>
    rw [pix_setStripe, clearStrip_pix, block_n, if_neg (Nat.not_lt.mpr hi)]
    rfl

/-- Settles O32: `LIT` holds the cascade length, and the pixels from `N - LIT` on are those that are overwritten. -/
theorem cascLightsTheLastPixels : Obligations.CascLightsTheLastPixels := by
  refine ⟨encodedAs_at 11 (by decide), fun s sel => ⟨faults_badStrip rfl, fun k hsel => ?_⟩⟩
  refine ⟨_, (exec_eq_execute _ s).trans (execute_casc_completes hsel), ?_⟩
  have hlit (f : Nat) (t : Strip) : (cascadeStrip block f t).lit.toNat = litOf f :=
    (toNat_lit_cascadeStrip f t).trans (litCount_block f)
  rw [stripe_respond, stripe_setStripe_self, hlit]
  refine ⟨rfl, fun i hlo hhi => ?lit, fun i hi => ?unlit, samePulse_setStripe _ (cascadeStrip_samePulse block _ _),
    ⟨_, rfl, (lit_response _).trans (hlit ..)⟩, onlyStrip_setStripe ..⟩
  case lit =>
    rw [pix_setStripe, cascadeStrip_pix, litCount_block, block_n, if_pos ⟨hlo, hhi⟩]
    rfl
  case unlit =>
    rw [pix_setStripe, cascadeStrip_pix, litCount_block, block_n, if_neg (by omega)]
    rfl

/-- Settles O33: the cascade length at the ends of its range, and `CASC` on the strip that `CLR` has made black. -/
theorem cascadeIsTheTopmostBlock : Obligations.CascadeIsTheTopmostBlock := by
  refine ⟨fun c => ⟨litCount_zero c, litCount_one c, fun _ _ => litCount_mono c⟩, by rw [litCount_block]; decide,
    fun c s t k sel hsel hrun => ?_⟩
  rw [stripe_of_clr_casc hsel hrun, toNat_lit_cascadeStrip]
  refine ⟨rfl, fun i hi => ?below, fun i hlo hhi => ?above⟩
  case below =>
    rw [State.pix, stripe_of_clr_casc hsel hrun, cascadeStrip_pix, if_neg (by omega), clearStrip_pix, if_pos (by omega)]
    rfl
  case above =>
    rw [State.pix, stripe_of_clr_casc hsel hrun, cascadeStrip_pix, if_pos ⟨hlo, hhi⟩]
    rfl

end Sys2Proof.Machine
end

section
/-! The sine (43_pulse.md R135 to R137): each quadrant reads the quarter-wave table, forwards or backwards; from that the
symmetries, the sum over a cycle and the phase, for every table that meets R143, and `QSIN`. -/

namespace Sys2Proof.Machine

open Sys2Proof.Statements

variable {c : Config}

/-! ### The four quadrants (R135) -/

theorem sine_quadrant_zero {theta : Nat} (h : theta < 256) : sine c theta = c.sinq.getD theta 0 := by
  have hq : theta / 256 % 4 = 0 := by omega
  have hk : theta % 256 = theta := by omega
  simp only [sine, hq, hk]

theorem sine_quadrant_one {theta : Nat} (hlo : 256 ≤ theta) (hhi : theta < 512) :
    sine c theta = c.sinq.getD (512 - theta) 0 := by
  have hq : theta / 256 % 4 = 1 := by omega
  have hk : 256 - theta % 256 = 512 - theta := by omega
  simp only [sine, hq, hk]

theorem sine_quadrant_two {theta : Nat} (hlo : 512 ≤ theta) (hhi : theta < 768) :
    sine c theta = -c.sinq.getD (theta - 512) 0 := by
  have hq : theta / 256 % 4 = 2 := by omega
  have hk : theta % 256 = theta - 512 := by omega
  simp only [sine, hq, hk]

theorem sine_quadrant_three {theta : Nat} (hlo : 768 ≤ theta) (hhi : theta < 1024) :
    sine c theta = -c.sinq.getD (1024 - theta) 0 := by
  have hq : theta / 256 % 4 = 3 := by omega
  have hk : 256 - theta % 256 = 1024 - theta := by omega
  simp only [sine, hq, hk]

/-- The sine at the defaults, in the words of the statements: one quadrant after the other. -/
theorem sine_block {theta : Nat} (h : theta < 1024) : sine block theta = sinOf theta := by
  unfold sinOf
  split_ifs with hzero hone htwo
  · exact sine_quadrant_zero hzero
  · exact sine_quadrant_one (Nat.not_lt.mp hzero) hone
  · exact sine_quadrant_two (Nat.not_lt.mp hone) htwo
  · exact sine_quadrant_three (Nat.not_lt.mp htwo) h

/-- Half a cycle later the sine has the opposite sign: the quadrant moves on by two, the place in it stays (R135). -/
theorem sine_half_cycle (c : Config) (theta : Nat) : sine c ((theta + 512) % 1024) = -sine c theta := by
  have hk : (theta + 512) % 1024 % 256 = theta % 256 := by omega
  have hq : (theta + 512) % 1024 / 256 % 4 = (theta / 256 % 4 + 2) % 4 := by omega
  have hlt : theta / 256 % 4 < 4 := Nat.mod_lt _ (by decide)
  simp only [sine, hk, hq]
  interval_cases theta / 256 % 4 <;> simp

theorem sine_add_half_cycle {theta : Nat} (h : theta < 512) : sine c (512 + theta) = -sine c theta := by
  rw [← sine_half_cycle, Nat.mod_eq_of_lt (by omega), Nat.add_comm]

/-! ### The quarters and the symmetry about them -/

theorem sinq_getD_zero (c : Config) : c.sinq.getD 0 0 = 0 := by rw [List.getD_eq_getElem?_getD, c.legal.sinq_first]; rfl

theorem sinq_getD_last (c : Config) : c.sinq.getD 256 0 = 32768 := by rw [List.getD_eq_getElem?_getD, c.legal.sinq_last]; rfl

theorem sine_zero (c : Config) : sine c 0 = 0 := by rw [sine_quadrant_zero (by decide), sinq_getD_zero]; rfl

theorem sine_quarter (c : Config) : sine c 256 = 32768 := by
  rw [sine_quadrant_one (by decide) (by decide), sinq_getD_last]; rfl

theorem sine_half (c : Config) : sine c 512 = 0 := by
  rw [show 512 = 512 + 0 from rfl, sine_add_half_cycle (by decide), sine_zero, neg_zero]

theorem sine_three_quarters (c : Config) : sine c 768 = -32768 := by
  rw [show 768 = 512 + 256 from rfl, sine_add_half_cycle (by decide), sine_quarter]

/-- The sine is symmetric about the quarter cycle; at the ends because it is zero there (R135). -/
theorem sine_reflect (c : Config) {theta : Nat} (h : theta ≤ 512) : sine c (512 - theta) = sine c theta := by
  obtain rfl | rfl | rfl | hlow | hhigh :
      theta = 0 ∨ theta = 256 ∨ theta = 512 ∨ (0 < theta ∧ theta < 256) ∨ (256 < theta ∧ theta < 512) := by omega
  · exact (sine_half c).trans (sine_zero c).symm
  · rfl
  · exact (sine_zero c).trans (sine_half c).symm
  · rw [sine_quadrant_one (by omega) (by omega), sine_quadrant_zero hlow.2, Nat.sub_sub_self h]
  · rw [sine_quadrant_zero (by omega), sine_quadrant_one hhigh.1.le hhigh.2]

/-! ### The sum over a cycle (R137) -/

theorem sum_range_sinq (c : Config) : ∑ k ∈ Finset.range 257, c.sinq.getD k 0 = c.sinq.sum := by
  rw [← c.legal.sinq_length, Finset.sum_range, ← Fin.sum_univ_getElem]
  exact Finset.sum_congr rfl fun k _ => List.getD_eq_getElem _ _ k.isLt

theorem sum_natAbs_sine_first_quarter (c : Config) :
    (∑ theta ∈ Finset.range 256, (sine c theta).natAbs) + 32768 = c.sinq.sum := by
  rw [← sum_range_sinq, Finset.sum_range_succ (c.sinq.getD · 0) 256, sinq_getD_last]
  refine congrArg (· + 32768) (Finset.sum_congr rfl fun theta h => ?_)
  rw [sine_quadrant_zero (Finset.mem_range.mp h), Int.natAbs_natCast]

/-- The second quarter reads the table backwards, from its last entry to its second; the first is zero. -/
theorem sum_natAbs_sine_second_quarter (c : Config) :
    ∑ theta ∈ Finset.range 256, (sine c (256 + theta)).natAbs = c.sinq.sum := by
  rw [← sum_range_sinq, ← Finset.sum_range_reflect (c.sinq.getD · 0) 257, Finset.sum_range_succ _ 256,
    sinq_getD_zero, Nat.add_zero]
  refine Finset.sum_congr rfl fun theta h => ?_
  have hlt := Finset.mem_range.mp h
  rw [sine_quadrant_one (by omega) (by omega), Int.natAbs_natCast]
  congr 1
  omega

theorem sum_natAbs_sine (c : Config) : (∑ theta ∈ Finset.range 1024, (sine c theta).natAbs) + 65536 = 4 * c.sinq.sum := by
  have hfirst := sum_natAbs_sine_first_quarter c
  have hsecond := sum_natAbs_sine_second_quarter c
  have hhalf : ∑ theta ∈ Finset.range 512, (sine c (512 + theta)).natAbs =
      ∑ theta ∈ Finset.range 512, (sine c theta).natAbs :=
    Finset.sum_congr rfl fun theta h => by rw [sine_add_half_cycle (Finset.mem_range.mp h), Int.natAbs_neg]
  have hquarters : ∑ theta ∈ Finset.range 512, (sine c theta).natAbs =
      (∑ theta ∈ Finset.range 256, (sine c theta).natAbs) + ∑ theta ∈ Finset.range 256, (sine c (256 + theta)).natAbs :=
    Finset.sum_range_add _ 256 256
  rw [show 1024 = 512 + 512 from rfl, Finset.sum_range_add, hhalf]
  omega

/-- It is enough that each entry of the table is below the next. -/
theorem sinqTable_strictMono : sinqTable.Pairwise (· < ·) := List.isChain_iff_pairwise.mp (by decide +kernel)

theorem sinqTable_sum : sinqTable.sum = 5356720 := by decide +kernel

/-! ### The phase (R136) -/

theorem phaseOf_eq (c : Config) (theta : Nat) : (phaseOf c theta : Int) = sine c theta + 32768 := by
  obtain ⟨hlo, -⟩ := sine_range c c.legal.sinq_range theta
  exact Int.toNat_of_nonneg (by omega)

/-! ### `QSIN` -/

/-- The sine goes whole into the response, as a signed number. -/
theorem sine_response (c : Config) (theta : Nat) : (BitVec.ofInt 32 (sine c theta)).toInt = sine c theta := by
  obtain ⟨hlo, hhi⟩ := sine_range c c.legal.sinq_range theta
  rw [BitVec.toInt_ofInt, Int.bmod_eq_of_le (by omega) (by omega)]

/-- A legal angle index is kept whole. -/
theorem angle_toNat {imm : BitVec 32} (h : imm.toNat ≤ 1023) : (imm.setWidth 10).toNat = imm.toNat := by
  rw [BitVec.toNat_setWidth, Nat.mod_eq_of_lt (by omega)]

theorem execute_qsin_completes {s : State c} {imm : BitVec 32} (h : imm.toNat ≤ 1023) :
    execute (.qsin imm) s = .next (respond (BitVec.ofInt 32 (sine c imm.toNat)) s) := by
  simp only [execute, execQsin, angleOf_ok h, check_ok, angle_toNat h]

/-! ### The obligations -/

/-- Settles O36: the table's own numbers are computed, everything about the sine follows from its quadrants. -/
theorem sineTableAndSymmetries : Obligations.SineTableAndSymmetries := by
  refine ⟨sinqTable_length, sinqTable_strictMono, sinqTable_sum, by decide +kernel, ?cycle, sine_zero block,
    sine_quarter block, sine_half block, sine_three_quarters block,
    fun theta h => ⟨sine_block h, sine_half_cycle block theta⟩, fun theta => sine_reflect block,
    fun theta _ => ⟨phaseOf_eq block theta, phaseOf_le block block.legal.sinq_range theta⟩⟩
  case cycle => rw [Nat.eq_sub_of_add_eq (sum_natAbs_sine block), block_sinq, sinqTable_sum]

/-- Settles O35: check 5 passes the angle indices, and the sine of each goes whole into the response. -/
theorem qsinAnswersTheSine : Obligations.QsinAnswersTheSine := by
  refine ⟨encodedAs_at 13 (by decide), fun s imm => ⟨fun himm => ?badOperand, fun himm => ?answer⟩⟩
  case badOperand =>
    refine faults_of_execute (cause := .badOperand) ?_
    simp only [execute, execQsin, angleOf_error (Nat.not_le.mpr himm), check_error]
  case answer =>
    refine ⟨_, (exec_eq_execute _ s).trans (execute_qsin_completes himm), ⟨_, rfl, ?_⟩, sameAll_respond _ s⟩
    rw [sine_response, sine_block (by omega)]

end Sys2Proof.Machine
end

section
/-! The pulse (43_pulse.md R130 to R142): its values at the ends of the fraction's range, that every read-out register keeps its
value whole, and `PULSE`. -/

namespace Sys2Proof.Machine

open Sys2Proof.Statements

variable {c : Config}

/-! ### Scaling at the ends of the range (R9) -/

theorem rnd_zero (c : Config) (k : Nat) : rnd c 0 k = 0 := by
  rw [rnd, Nat.zero_mul, Nat.add_zero, Nat.div_eq_of_lt (half_lt_one c)]

theorem rnd_one (c : Config) (k : Nat) : rnd c c.one k = k := by
  rw [rnd, Nat.add_mul_div_left _ _ (one_pos c), Nat.div_eq_of_lt (half_lt_one c), Nat.zero_add]

/-- `rnd` at the defaults (R9). -/
theorem rnd_block (f k : Nat) : rnd block f k = scaled f k := by
  rw [rnd, block_half, block_one]
  rfl

/-! ### The values of the pulse (R142) -/

theorem pulseValues_pb_zero (c : Config) (now : Nat) : (pulseValues c 0 now).pb = 0 := by
  rw [pulseValues_pb, amplitudeOf, rnd_zero, brightnessOf, Nat.mul_zero]

theorem pulseValues_pcol_zero (c : Config) (now : Nat) : (pulseValues c 0 now).pcol = Pixel.black := by
  rw [pulseValues_pcol, pulseValues_pb_zero]
  exact c.legal.hsv_black _ _

/-- `period` at the defaults (R131). -/
theorem periodOf_block (f : Nat) : periodOf block f = perOf f := congrArg (1400 - ·) (rnd_block f 1250)

theorem periodOf_one (c : Config) : periodOf c c.one = c.periodFast := by
  rw [periodOf, rnd_one, Nat.sub_sub_self c.legal.period_range.2.1]

theorem angleIndex_add_period (now p : Nat) : angleIndex (now + p) p = angleIndex now p := by
  rw [angleIndex, Nat.add_mod_right, angleIndex]

theorem pulseValues_add_period (c : Config) (f now : Nat) : pulseValues c f (now + periodOf c f) = pulseValues c f now := by
  simp only [pulseValues, angleIndex_add_period]

theorem pulseValues_pb_le (c : Config) (f now : Nat) : (pulseValues c f now).pb ≤ amplitudeOf c f :=
  brightnessOf_le (phaseOf_le c c.legal.sinq_range _)

theorem amplitudeOf_le {f : Nat} (hf : f ≤ c.one) : amplitudeOf c f ≤ c.ampMax := rnd_le c c.ampMax hf

/-! ### The read-out registers keep the values whole (R29, R30) -/

section
variable {f : Nat} (hf : f ≤ c.one) (now : Nat) (t : Strip)
include hf

theorem toNat_hue_pulseStrip : (pulseStrip c f now t).hue.toNat = hueOf c f := by
  have hle : hueOf c f ≤ c.hueMax := rnd_le c c.hueMax hf
  have hmax := c.legal.hueMax_eq
  rw [pulseStrip_hue, pulseValues_hue, BitVec.toNat_ofNat, Nat.mod_eq_of_lt (by omega)]

theorem toNat_per_pulseStrip : (pulseStrip c f now t).per.toNat = periodOf c f := by
  obtain ⟨-, hle⟩ := periodOf_range hf
  obtain ⟨-, -, hslow⟩ := c.legal.period_range
  rw [pulseStrip_per, pulseValues_per, BitVec.toNat_ofNat, Nat.mod_eq_of_lt (by omega)]

theorem toNat_amp_pulseStrip : (pulseStrip c f now t).amp.toNat = amplitudeOf c f := by
  have hle := amplitudeOf_le hf
  have hmax := c.legal.ampMax_range
  rw [pulseStrip_amp, pulseValues_amp, BitVec.toNat_ofNat, Nat.mod_eq_of_lt (by omega)]

theorem angleIndex_periodOf_lt : angleIndex now (periodOf c f) < 1024 := by
  obtain ⟨hfast, -⟩ := periodOf_range hf
  obtain ⟨hpos, -, -⟩ := c.legal.period_range
  exact angleIndex_lt (by omega)

theorem toNat_ang_pulseStrip : (pulseStrip c f now t).ang.toNat = angleIndex now (periodOf c f) := by
  rw [pulseStrip_ang, pulseValues_ang, BitVec.toNat_ofNat, Nat.mod_eq_of_lt (angleIndex_periodOf_lt hf now)]

theorem toNat_pb_pulseStrip : (pulseStrip c f now t).pb.toNat = (pulseValues c f now).pb := by
  have hpb := pulseValues_pb_le c f now
  have hamp := amplitudeOf_le hf
  have hmax := c.legal.ampMax_range
  rw [pulseStrip_pb, BitVec.toNat_ofNat, Nat.mod_eq_of_lt (by omega)]

end

theorem toNat_phs_pulseStrip (f now : Nat) (t : Strip) :
    (pulseStrip c f now t).phs.toNat = phaseOf c (angleIndex now (periodOf c f)) := by
  have hle := phaseOf_le c c.legal.sinq_range (angleIndex now (periodOf c f))
  rw [pulseStrip_phs, pulseValues_phs, BitVec.toNat_ofNat, Nat.mod_eq_of_lt (by omega)]

/-- `PB` goes whole into the response. -/
theorem pb_response (v : BitVec 8) : (v.setWidth 32).toNat = v.toNat := BitVec.toNat_setWidth_of_le (by decide)

/-- A strip that the pulse has been added to has the read-outs of R140, at the defaults. -/
theorem pulseOf_of_stripe {t : State} {k : StripId} {f now : Nat} {u : Strip} (hf : f ≤ block.one)
    (ht : t.stripe k = pulseStrip block f now u) : PulseOf t k f now := by
  have hang := angleIndex_periodOf_lt hf now
  rw [PulseOf, ht, toNat_hue_pulseStrip hf, toNat_per_pulseStrip hf, toNat_amp_pulseStrip hf, toNat_ang_pulseStrip hf,
    toNat_phs_pulseStrip, toNat_pb_pulseStrip hf, phaseOf_eq, sine_block hang, ← periodOf_block]
  exact ⟨rnd_block f 255, rfl, rnd_block f 200, rfl, rfl, rfl, rfl⟩

/-! ### The command -/

theorem execute_pulse_completes {s : State c} {sel : BitVec 4} {k : StripId} (hsel : sel.toNat = k.val) (now : BitVec 32) :
    execute (.pulse sel now) s =
      .next (respond ((pulseStrip c (s.fr (c.pulseCh k)).toNat now.toNat (s.stripe k)).pb.setWidth 32)
        (s.setStripe k (pulseStrip c (s.fr (c.pulseCh k)).toNat now.toNat (s.stripe k)))) := by
  simp only [execute, execPulse, stripOf_eq_ok hsel, check_ok]

theorem stripe_of_pulse {s t : State c} {sel : BitVec 4} {k : StripId} {now : BitVec 32} (hsel : sel.toNat = k.val)
    (ht : execute (.pulse sel now) s = .next t) :
    t.stripe k = pulseStrip c (s.fr (c.pulseCh k)).toNat now.toNat (s.stripe k) := by
  rw [execute_pulse_completes hsel, Host.Outcome.next.injEq] at ht
  rw [← ht, stripe_respond, stripe_setStripe_self]

/-! ### The obligations -/

/-- Settles O34: the strip is `pulseStrip` of its fraction and the time, whose read-outs keep the values of R140 whole. -/
theorem pulseComputesAndAddsItsColour : Obligations.PulseComputesAndAddsItsColour := by
  refine ⟨encodedAs_at 12 (by decide), fun s sel now => ⟨faults_badStrip rfl, fun k hsel hf => ?_⟩⟩
  refine ⟨_, (exec_eq_execute _ s).trans (execute_pulse_completes hsel now),
    pulseOf_of_stripe hf (stripe_setStripe_self s k _), fun i hi => ?inside, fun i hi => ?outside, ?lit, ⟨_, rfl, ?answer⟩,
    onlyStrip_setStripe ..⟩
  case inside =>
    rw [pix_setStripe, pulseStrip_pix, block_n, if_pos hi, stripe_respond, stripe_setStripe_self, pulseStrip_pcol]
    rfl
  case outside =>
    rw [pix_setStripe, pulseStrip_pix, block_n, if_neg (Nat.not_lt.mpr hi)]
    rfl
  case lit => rw [stripe_respond, stripe_setStripe_self, pulseStrip_lit]
  case answer => rw [pb_response, stripe_respond, stripe_setStripe_self]

/-- Settles O37: the values at the two ends of the range, the period and the bounds; and `PULSE` leaves `pulseStrip`, which at
fraction 0 adds black, and whose read-outs depend on the fraction and the time alone. -/
theorem pulseFollowsFractionAndTime : Obligations.PulseFollowsFractionAndTime := by
  refine ⟨fun c now => ⟨pulseValues_pb_zero c now, pulseValues_pcol_zero c now⟩,
    fun c now => ⟨periodOf_one c, rnd_one c c.ampMax⟩,
    fun c f now hf => ⟨pulseValues_add_period c f now, pulseValues_pb_le c f now, amplitudeOf_le hf⟩,
    fun c s t k sel now hsel hzero ht i => ?dark, fun c s t u now hfr ht hu => ?equal⟩
  case dark =>
    have hf : (s.fr (c.pulseCh k)).toNat = 0 := (toNat_eq_zero_iff _).mpr hzero
    rw [State.pix, stripe_of_pulse hsel ht, hf, pulseStrip_pix, pulseValues_pcol_zero, satadd_black, ite_self]
    rfl
  case equal =>
    rw [stripe_of_pulse (sel := 0) (k := 0) rfl ht, stripe_of_pulse (sel := 1) (k := 1) rfl hu, hfr]
    exact ⟨rfl, rfl, rfl⟩

end Sys2Proof.Machine
end

section
/-! The saturating adder (44_color_compositor.md R151): each property is one of a single lane, and the three lanes have it apart;
and the default colour lookup (R152, R153). -/

namespace Sys2Proof.Machine

/-! ### One lane -/

section
variable (a b d : Byte)

theorem satLane_comm : satLane a b = satLane b a := by rw [satLane, Nat.add_comm, satLane]

/-- Either way the lane holds the sum of all three at 255. -/
theorem satLane_assoc : satLane (satLane a b) d = satLane a (satLane b d) := by
  rw [← BitVec.toNat_inj]
  simp only [satLane_toNat]
  omega

/-- A lane does not fall. -/
theorem le_satLane : a ≤ satLane a b := by
  rw [BitVec.le_def, satLane_toNat]
  have := a.isLt
  omega

theorem satLane_full : satLane 255 b = 255 := by
  rw [← BitVec.toNat_inj, satLane_toNat]
  exact Nat.min_eq_right (Nat.le_add_right 255 _)

variable {a d} in
theorem satLane_mono (h : a ≤ d) : satLane a b ≤ satLane d b := by
  rw [BitVec.le_def] at h ⊢
  rw [satLane_toNat, satLane_toNat]
  omega

end

/-! ### Three lanes -/

theorem satadd_comm (x y : Pixel) : satadd x y = satadd y x := by
  rw [satadd, satLane_comm x.r, satLane_comm x.g, satLane_comm x.b, satadd]

theorem satadd_assoc (x y z : Pixel) : satadd (satadd x y) z = satadd x (satadd y z) := by
  simp only [satadd, satLane_assoc]

/-! ### The default lookup -/

/-- The channels `p`, `q` and `t` of R152 are the value scaled by at most 255/256. -/
theorem scaledChannel_le (v : Byte) (k : Nat) : BitVec.ofNat 8 (v.toNat * (255 - k) / 256) ≤ v := by
  have hscale : v.toNat * (255 - k) ≤ v.toNat * 256 := Nat.mul_le_mul_left _ (by omega)
  rw [BitVec.le_def, BitVec.toNat_ofNat]
  exact (Nat.mod_le ..).trans (by omega)

/-- No channel is above the value, and one is the value (R153): each region gives one channel the value as it is. -/
theorem hsv2rgbDefault_value (h s v : Byte) :
    (hsv2rgbDefault h s v).r ≤ v ∧ (hsv2rgbDefault h s v).g ≤ v ∧ (hsv2rgbDefault h s v).b ≤ v ∧
      ((hsv2rgbDefault h s v).r = v ∨ (hsv2rgbDefault h s v).g = v ∨ (hsv2rgbDefault h s v).b = v) := by
  have hv : v ≤ v := Nat.le_refl _
  have hscaled := scaledChannel_le v
  unfold hsv2rgbDefault
  split
  case isTrue => exact ⟨hv, hv, hv, .inl rfl⟩
  case isFalse =>
    dsimp only
    split
    case h_1 => exact ⟨hv, hscaled _, hscaled _, .inl rfl⟩
    case h_2 => exact ⟨hscaled _, hv, hscaled _, .inr (.inl rfl)⟩
    case h_3 => exact ⟨hscaled _, hv, hscaled _, .inr (.inl rfl)⟩
    case h_4 => exact ⟨hscaled _, hscaled _, hv, .inr (.inr rfl)⟩
    case h_5 => exact ⟨hscaled _, hscaled _, hv, .inr (.inr rfl)⟩
    case h_6 => exact ⟨hv, hscaled _, hscaled _, .inl rfl⟩

/-! ### The obligations -/

/-- Settles O42: every clause is the property of one lane, three times. -/
theorem saturatingAddIsThreeIndependentLanes : Obligations.SaturatingAddIsThreeIndependentLanes := by
  refine ⟨fun _ _ => ⟨satLane_toNat .., satLane_toNat .., satLane_toNat ..⟩, satadd_black, satadd_comm, satadd_assoc,
    fun _ _ y hr hg hb => ⟨satLane_mono y.r hr, satLane_mono y.g hg, satLane_mono y.b hb⟩,
    fun ⟨r, g, b⟩ y => ⟨?red, ?green, ?blue⟩⟩
  case red => rintro rfl; exact satLane_full y.r
  case green => rintro rfl; exact satLane_full y.g
  case blue => rintro rfl; exact satLane_full y.b

/-- Settles O43: the laws by the regions of R152, the six values by evaluation. -/
theorem defaultLookupMeetsItsLaws : Obligations.DefaultLookupMeetsItsLaws :=
  ⟨hsv2rgbDefault_black, fun _ _ => if_pos rfl, hsv2rgbDefault_value, by decide⟩

end Sys2Proof.Machine
end

section
/-! The commands of the compositor (44_color_compositor.md R155 to R158): the colour of a command word, check 4 and check 5 of
30_encoding.md R78 on it, and that neither `BLEND` nor `PULSE` darkens a strip (R159). -/

namespace Sys2Proof.Machine

open Sys2Proof.Statements

variable {c : Config}

/-! ### The colour of a word (R52) -/

/-- The colour in the low three bytes of a word. -/
def colourIn (imm : BitVec 32) : Pixel := ⟨imm.extractLsb' 16 8, imm.extractLsb' 8 8, imm.extractLsb' 0 8⟩

theorem colourOf_legal {imm : BitVec 32} (h : imm.toNat < 16777216) : colourOf imm = .ok (colourIn imm) :=
  colourOf_ok ((triple_legal_iff imm).mpr h)

theorem topByte_ne_zero {imm : BitVec 32} (h : 16777216 ≤ imm.toNat) : ¬imm.extractLsb' 24 8 = 0 :=
  fun hlegal => Nat.not_lt.mpr h ((triple_legal_iff imm).mp hlegal)

theorem colourOf_illegal {imm : BitVec 32} (h : 16777216 ≤ imm.toNat) : colourOf imm = .error .badOperand :=
  colourOf_error (topByte_ne_zero h)

/-- The three bytes in numbers. -/
theorem colourIn_eq (imm : BitVec 32) :
    colourIn imm = ⟨BitVec.ofNat 8 (imm.toNat / 65536), BitVec.ofNat 8 (imm.toNat / 256), BitVec.ofNat 8 imm.toNat⟩ := by
  have hbyte (start : Nat) : imm.extractLsb' start 8 = BitVec.ofNat 8 (imm.toNat / 2 ^ start) := by
    rw [← Nat.shiftRight_eq_div_pow]
    rfl
  rw [colourIn, hbyte, hbyte, hbyte, Nat.pow_zero, Nat.div_one]
  rfl

theorem colourIn_r {imm : BitVec 32} (h : imm.toNat < 16777216) : (colourIn imm).r.toNat = imm.toNat / 65536 := by
  rw [colourIn_eq]
  exact (BitVec.toNat_ofNat ..).trans (Nat.mod_eq_of_lt (by omega))

theorem colourIn_g (imm : BitVec 32) : (colourIn imm).g.toNat = imm.toNat / 256 % 256 := by
  rw [colourIn_eq]
  exact BitVec.toNat_ofNat ..

theorem colourIn_b (imm : BitVec 32) : (colourIn imm).b.toNat = imm.toNat % 256 := by
  rw [colourIn_eq]
  exact BitVec.toNat_ofNat ..

/-! ### Check 4 of a command on a pixel -/

theorem pixelOf_block {idx : BitVec 16} (h : idx.toNat < 75) : pixelOf block idx = .ok idx.toNat := pixelOf_ok h

theorem faults_badPixel {i : Instr} {s : State} {sel : BitVec 4} {idx : BitVec 16} {go : StripId → Nat → Result block}
    (hi : execute i s = check (stripOf sel) s fun k => check (pixelOf block idx) s (go k)) (hsel : sel.toNat < 2)
    (hidx : 75 ≤ idx.toNat) : Faults i s 4 := by
  have hpixel : pixelOf block idx = .error .badIndex := pixelOf_error (Nat.not_lt.mpr hidx)
  exact faults_of_execute (cause := .badIndex) (by rw [hi, stripOf_ok hsel, check_ok, hpixel, check_error])

/-! ### `BLEND` -/

section
variable {s : State c} {sel : BitVec 4} {imm : BitVec 32}

theorem execute_blend_badOperand (hsel : sel.toNat < 2) (himm : 16777216 ≤ imm.toNat) :
    execute (.blend sel imm) s = .next (takeFault .badOperand s) := by
  simp only [execute, execBlend, stripOf_ok hsel, colourOf_illegal himm, check_ok, check_error]

theorem execute_blend_completes {k : StripId} (hsel : sel.toNat = k.val) (himm : imm.toNat < 16777216) :
    execute (.blend sel imm) s = .next (respond 0 (s.setStripe k (blendStrip c (colourIn imm) (s.stripe k)))) := by
  simp only [execute, execBlend, stripOf_eq_ok hsel, colourOf_legal himm, check_ok]

end

/-! ### Adding one colour to a strip (R154, R159) -/

/-- Every pixel of strip `k` of `t` is that of `s` with the colour `p` added. -/
def AddsColour (p : Pixel) (k : StripId) (s t : State c) : Prop := ∀ j < c.n, t.pix k j = satadd (s.pix k j) p

section
variable {s t : State c} {sel : BitVec 4} {k : StripId} (hsel : sel.toNat = k.val)
include hsel

theorem blend_addsColour {imm : BitVec 32} (ht : execute (.blend sel imm) s = .next t)
    (hrsp : t.rsp ≠ some { err := true, data := 0 }) : AddsColour (colourIn imm) k s t := by
  intro j hj
  by_cases himm : imm.toNat < 16777216
  · rw [execute_blend_completes hsel himm, Host.Outcome.next.injEq] at ht
    rw [← ht, pix_setStripe, blendStrip_pix, if_pos hj, State.pix]
  · have hlt : sel.toNat < 2 := hsel ▸ k.isLt
    rw [execute_blend_badOperand hlt (Nat.not_lt.mp himm), Host.Outcome.next.injEq] at ht
    exact absurd (ht ▸ rsp_takeFault ..) hrsp

theorem pulse_addsColour {now : BitVec 32} (ht : execute (.pulse sel now) s = .next t) :
    AddsColour (pulseValues c (s.fr (c.pulseCh k)).toNat now.toNat).pcol k s t := by
  intro j hj
  rw [State.pix, stripe_of_pulse hsel ht, pulseStrip_pix, if_pos hj, State.pix]

end

/-- `BLEND` and `PULSE` without a fault add one colour to the strip they name. -/
theorem exists_addsColour {s t : State c} {i : Instr} {sel : BitVec 4} {imm : BitVec 32}
    (hi : i = .blend sel imm ∨ i = .pulse sel imm) (ht : execute i s = .next t) :
    ∃ p, ∀ k : StripId, sel.toNat = k.val → t.rsp ≠ some { err := true, data := 0 } → AddsColour p k s t := by
  rcases hi with rfl | rfl
  case inl => exact ⟨colourIn imm, fun k hsel hrsp => blend_addsColour hsel ht hrsp⟩
  case inr =>
    by_cases hlt : sel.toNat < 2
    · obtain ⟨k, hk⟩ : ∃ k : StripId, sel.toNat = k.val := ⟨⟨sel.toNat, hlt⟩, rfl⟩
      refine ⟨(pulseValues c (s.fr (c.pulseCh k)).toNat imm.toNat).pcol, fun k' hk' _ => ?_⟩
      obtain rfl : k = k' := Fin.ext (hk.symm.trans hk')
      exact pulse_addsColour hk ht
    · exact ⟨Pixel.black, fun k hsel => absurd (hsel ▸ k.isLt) hlt⟩

/-! ### `QHSV`, `SETPIX` and `RDPIX` -/

theorem execute_qhsv_completes {s : State c} {imm : BitVec 32} (himm : imm.toNat < 16777216) :
    execute (.qhsv imm) s =
      .next (respond (packColour (c.hsv2rgb (colourIn imm).r (colourIn imm).g (colourIn imm).b)) s) := by
  simp only [execute, execQhsv, tripleOf_ok ((triple_legal_iff imm).mpr himm), check_ok, unpackTriple, colourIn]

section
variable {s : State c} {sel : BitVec 4} {k : StripId} {idx : BitVec 16} (hsel : sel.toNat = k.val) (hidx : idx.toNat < c.n)
include hsel hidx

theorem execute_setpix_completes {imm : BitVec 32} (himm : imm.toNat < 16777216) :
    execute (.setpix sel idx imm) s =
      .next (respond 0 (s.setStripe k { s.stripe k with pix := writePix (s.stripe k).pix idx.toNat (colourIn imm) })) := by
  simp only [execute, execSetpix, stripOf_eq_ok hsel, pixelOf_ok hidx, colourOf_legal himm, check_ok]

theorem execute_rdpix_completes : execute (.rdpix sel idx) s = .next (respond (packColour (s.pix k idx.toNat)) s) := by
  simp only [execute, execRdpix, stripOf_eq_ok hsel, pixelOf_ok hidx, check_ok]

end

/-! ### The obligations -/

/-- Settles O39: each of the 75 pixels is the sum of its own lanes and the three bytes of the operand. -/
theorem blendAddsOneColourSaturating : Obligations.BlendAddsOneColourSaturating := by
  refine ⟨encodedAs_at 15 (by decide), fun s sel imm => ⟨faults_badStrip rfl,
    fun hsel himm => faults_of_execute (execute_blend_badOperand hsel himm), fun k hsel himm => ?_⟩⟩
  refine ⟨_, (exec_eq_execute _ s).trans (execute_blend_completes hsel himm), fun i hi => ?inside, fun i hi => ?outside,
    sameReadouts_setStripe _ (blendStrip_lit ..) (blendStrip_samePulse ..), ⟨_, rfl, rfl⟩, onlyStrip_setStripe ..⟩
  case inside =>
    rw [pix_setStripe, blendStrip_pix, block_n, if_pos hi, ← colourIn_r himm, ← colourIn_g, ← colourIn_b]
    exact ⟨satLane_toNat .., satLane_toNat .., satLane_toNat ..⟩
  case outside =>
    rw [pix_setStripe, blendStrip_pix, block_n, if_neg (Nat.not_lt.mpr hi)]
    rfl

/-- Settles O40: the checks of R157 in their order, then the one pixel. -/
theorem setpixWritesOnePixel : Obligations.SetpixWritesOnePixel := by
  refine ⟨encodedAs_at 16 (by decide), fun s sel idx imm => ⟨faults_badStrip rfl, faults_badPixel rfl,
    fun hsel hidx himm => ?badOperand, fun k hsel hidx himm => ?write⟩⟩
  case badOperand =>
    refine faults_of_execute (cause := .badOperand) ?_
    simp only [execute, execSetpix, stripOf_ok hsel, pixelOf_block hidx, colourOf_illegal himm, check_ok, check_error]
  case write =>
    have hframe := setpix_frame (s := s) hsel imm (s.stripe k) idx (colourIn imm)
    refine ⟨_, (exec_eq_execute _ s).trans (execute_setpix_completes hsel hidx himm), ?_⟩
    simp only [pix_setStripe, readPix_writePix, if_pos]
    refine ⟨colourIn_r himm, colourIn_g imm, colourIn_b imm, fun i hi => if_neg hi.symm,
      sameReadouts_setStripe _ (hframe.lit id) (hframe.pulse id), ⟨_, rfl, rfl⟩, onlyStrip_setStripe ..⟩

/-- Settles O45: the strip has one colour added in every lane, and no lane of the adder falls. -/
theorem blendAndPulseNeverDarken : Obligations.BlendAndPulseNeverDarken := by
  intro c s t i sel imm hi ht
  obtain ⟨p, hp⟩ := exists_addsColour hi ht
  refine ⟨p, fun k j hsel hj hrsp => ?_⟩
  rw [hp k hsel hrsp j hj]
  exact ⟨satLane_toNat .., satLane_toNat .., satLane_toNat .., le_satLane .., le_satLane .., le_satLane ..⟩

/-- Settles O38: check 5, then the lookup of the three bytes of the operand, packed. -/
theorem qhsvAnswersTheLookup : Obligations.QhsvAnswersTheLookup := by
  refine ⟨encodedAs_at 14 (by decide), fun s imm => ⟨fun himm => ?badOperand, fun himm => ?answer⟩⟩
  case badOperand =>
    refine faults_of_execute (cause := .badOperand) ?_
    simp only [execute, execQhsv, tripleOf_error (topByte_ne_zero himm), check_error]
  case answer =>
    refine ⟨_, (exec_eq_execute _ s).trans (execute_qhsv_completes himm), ⟨_, rfl, ?_⟩, sameAll_respond _ s⟩
    rw [packColour_toNat, block_hsv2rgb, colourIn_eq]

/-- Settles O41: the checks of R158 in their order, then the pixel, packed. -/
theorem rdpixReadsOnePixel : Obligations.RdpixReadsOnePixel := by
  refine ⟨encodedAs_at 17 (by decide), fun s sel idx => ⟨faults_badStrip rfl, faults_badPixel rfl, fun k hsel hidx => ?_⟩⟩
  exact ⟨_, (exec_eq_execute _ s).trans (execute_rdpix_completes hsel hidx), ⟨_, rfl, packColour_toNat _⟩,
    sameAll_respond _ s⟩

end Sys2Proof.Machine
end

section
/-! The composite render (45_render_and_system.md R170, R176): the strip that `RENDER` leaves, and that it is `CLR`, `CASC` and
`PULSE` in one command. -/

namespace Sys2Proof.Machine

open Sys2Proof.Statements

variable {c : Config}

/-! ### The strip that is left -/

/-- A pulse at fraction 0 adds black, at every time (R142). -/
theorem pulseStrip_pix_zero (c : Config) (now : Nat) (t : Strip) (i : Nat) :
    readPix (pulseStrip c 0 now t).pix i = readPix t.pix i := by
  rw [pulseStrip_pix, pulseValues_pcol_zero, satadd_black, ite_self]

theorem toNat_lit_renderStrip (fc fp now : Nat) (t : Strip) : (renderStrip c fc fp now t).lit.toNat = litCount c fc :=
  toNat_lit_cascadeStrip fc (clearStrip c t)

theorem renderStrip_pcol (c : Config) (fc fp now : Nat) (t : Strip) :
    (renderStrip c fc fp now t).pcol = (pulseValues c fp now).pcol := rfl

/-- A strip that `RENDER` has left has the read-outs and the closed form of R170, at the defaults. -/
theorem rendered_of_stripe {t : State} {k : StripId} {fc fp now : Nat} {u : Strip} (hfp : fp ≤ block.one)
    (ht : t.stripe k = renderStrip block fc fp now u) :
    (t.stripe k).lit.toNat = litOf fc ∧ PulseOf t k fp now ∧
      (∀ i, i < 75 - (t.stripe k).lit.toNat → t.pix k i = (t.stripe k).pcol) ∧
      (∀ i, 75 - (t.stripe k).lit.toNat ≤ i → i < 75 → t.pix k i = satadd baseColour (t.stripe k).pcol) := by
  have hlit : (t.stripe k).lit.toNat = litOf fc := by rw [ht, toNat_lit_renderStrip, litCount_block]
  rw [hlit]
  refine ⟨rfl, pulseOf_of_stripe hfp ht, fun i hi => ?below, fun i hlo hhi => ?above⟩
  case below =>
    rw [State.pix, ht, renderStrip_pix, block_n, litCount_block, if_pos (by omega), if_neg (Nat.not_le.mpr hi), satadd_comm,
      satadd_black, renderStrip_pcol]
  case above =>
    rw [State.pix, ht, renderStrip_pix, block_n, litCount_block, if_pos hhi, if_pos hlo, renderStrip_pcol]
    rfl

/-! ### The command -/

/-- Strip `k` after `RENDER` at the time `now` (R170). -/
def renderedStrip (s : State c) (k : StripId) (now : BitVec 32) : Strip :=
  renderStrip c (s.fr (c.cascCh k)).toNat (s.fr (c.pulseCh k)).toNat now.toNat (s.stripe k)

section
variable {s : State c} {sel : BitVec 4} {k : StripId} (hsel : sel.toNat = k.val) (now : BitVec 32)
include hsel

theorem execute_render_completes :
    execute (.render sel now) s =
      .next (respond ((renderedStrip s k now).pb.setWidth 32) (s.setStripe k (renderedStrip s k now))) := by
  simp only [execute, execRender, stripOf_eq_ok hsel, check_ok, renderedStrip]

/-- Where `RENDER` leads. -/
theorem eq_of_execute_render {t : State c} (ht : execute (.render sel now) s = .next t) :
    t = respond ((renderedStrip s k now).pb.setWidth 32) (s.setStripe k (renderedStrip s k now)) := by
  rw [execute_render_completes hsel, Host.Outcome.next.injEq] at ht
  exact ht.symm

theorem stripe_of_render {t : State c} (ht : execute (.render sel now) s = .next t) :
    t.stripe k = renderedStrip s k now := by
  rw [eq_of_execute_render hsel now ht, stripe_respond, stripe_setStripe_self]

end

/-! ### `RENDER` as three commands (R170) -/

/-- A run of the words of three commands, each of which goes through. -/
theorem runsTo_triple_iff {s u v r t : State c} {i j l : Instr} (hi : execute i s = .next u) (hj : execute j u = .next v)
    (hl : execute l v = .next r) : RunsTo s [encode i, encode j, encode l] t ↔ r = t := by
  simp only [runsTo_cons_iff, runsTo_nil_iff, obey_ok (decode_encode _), hi, hj, hl, Host.Outcome.next.injEq, exists_eq_left']

theorem execute_badStrip {i : Instr} {s : State c} {sel : BitVec 4} {go : StripId → Result c}
    (hi : execute i s = check (stripOf sel) s go) (hsel : ¬sel.toNat < 2) :
    execute i s = .next (takeFault .badSelector s) := by
  rw [hi, stripOf_error hsel, check_error]

/-- Settles O47: a bad selector takes one fault three times, which is the same as once; otherwise each command goes on with the
strip that the one before left, and the fractions are still those from before. -/
theorem renderIsClearCascadePulse : Obligations.RenderIsClearCascadePulse := by
  intro c s t sel now
  by_cases hlt : sel.toNat < 2
  case neg =>
    rw [execute_badStrip rfl hlt, Host.Outcome.next.injEq, runsTo_triple_iff (execute_badStrip rfl hlt)
      (execute_badStrip rfl hlt) (execute_badStrip rfl hlt), takeFault_takeFault, takeFault_takeFault]
  case pos =>
    obtain ⟨k, hsel⟩ : ∃ k : StripId, sel.toNat = k.val := ⟨⟨sel.toNat, hlt⟩, rfl⟩
    rw [execute_render_completes hsel, Host.Outcome.next.injEq, runsTo_triple_iff (execute_clr_completes hsel)
      (execute_casc_completes hsel) (execute_pulse_completes hsel now)]
    simp only [stripe_respond, stripe_setStripe_self, fr_respond, fr_setStripe, setStripe_respond, respond_respond,
      setStripe_setStripe, renderedStrip, renderStrip]

/-! ### The other obligations -/

/-- Settles O46: the strip is `renderStrip` of its two fractions and the time, which has the closed form of R170. -/
theorem renderComputesTheWholeBuffer : Obligations.RenderComputesTheWholeBuffer := by
  refine ⟨encodedAs_at 18 (by decide), fun s sel now => ⟨faults_badStrip rfl, fun k hsel hfp => ?_⟩⟩
  have hrender := execute_render_completes (s := s) hsel now
  have hstripe := stripe_of_render hsel now hrender
  obtain ⟨hlit, hpulse, hbelow, habove⟩ := rendered_of_stripe hfp hstripe
  refine ⟨_, (exec_eq_execute _ s).trans hrender, hlit, hpulse, hbelow, habove, fun i hi => ?outside, ⟨_, rfl, ?answer⟩,
    onlyStrip_setStripe ..⟩
  case outside =>
    rw [pix_setStripe, renderedStrip, renderStrip_pix, block_n, if_neg (Nat.not_lt.mpr hi), State.pix]
  case answer => rw [pb_response, hstripe]

/-- Settles O48: with the fractions and the time, all that `renderStrip` reads below `N` is fixed; with pulse fraction 0 the pulse
adds black to what `CLR` and `CASC` leave. -/
theorem renderDependsOnlyOnFractionsAndTime : Obligations.RenderDependsOnlyOnFractionsAndTime := by
  refine ⟨fun c s s' t t' k sel now hsel hcasc hpulse ht ht' => ?same, fun c s t k sel now hsel ht => ?frame,
    fun c s t u k sel now hsel hzero ht hrun i => ?dark⟩
  case same =>
    obtain rfl := eq_of_execute_render hsel now ht
    obtain rfl := eq_of_execute_render hsel now ht'
    simp only [SameReadouts, SamePulse, pix_setStripe, stripe_respond, stripe_setStripe_self, renderedStrip, hcasc, hpulse]
    refine ⟨fun i hi => ?_, ⟨rfl, rfl, rfl, rfl, rfl, rfl, rfl, rfl⟩, rfl⟩
    rw [renderStrip_pix, if_pos hi, renderStrip_pix, if_pos hi]
  case frame =>
    rw [eq_of_execute_render hsel now ht]
    exact onlyStrip_setStripe ..
  case dark =>
    have hfp : (s.fr (c.pulseCh k)).toNat = 0 := (toNat_eq_zero_iff _).mpr hzero
    rw [State.pix, State.pix, stripe_of_render hsel now ht, stripe_of_clr_casc hsel hrun, renderedStrip, hfp, renderStrip,
      pulseStrip_pix_zero]

end Sys2Proof.Machine
end

section
/-! The system commands (45_render_and_system.md R171 to R173): each answers what it reads and leaves the state as it was. -/

namespace Sys2Proof.Machine

open Sys2Proof.Statements

/-! ### The word that `RDDIAG` reads (R172) -/

/-- The register with the number `sub`, as a number. -/
def readout (t : Strip) (sub : Fin 8) : Nat :=
  match sub with
  | 0 => t.lit.toNat
  | 1 => t.hue.toNat
  | 2 => t.per.toNat
  | 3 => t.amp.toNat
  | 4 => t.ang.toNat
  | 5 => t.phs.toNat
  | 6 => t.pb.toNat
  | 7 => packed t.pcol

/-- Every read-out register goes whole into the response. -/
theorem toNat_diagWord (t : Strip) (sub : Fin 8) : (diagWord t sub).toNat = readout t sub := by
  match sub with
  | 0 | 1 | 2 | 3 | 4 | 5 | 6 => exact BitVec.toNat_setWidth_of_le (by decide)
  | 7 => exact packColour_toNat t.pcol

theorem execute_rddiag_badNumber {c : Config} {s : State c} {sel sub : BitVec 4} (hsel : sel.toNat < 2)
    (hsub : 8 ≤ sub.toNat) : execute (.rddiag sel sub) s = .next (takeFault .badSelector s) := by
  simp only [execute, execRddiag, stripOf_ok hsel, diagOf_error (Nat.not_lt.mpr hsub), check_ok, check_error]

theorem execute_rddiag_completes {c : Config} {s : State c} {sel sub : BitVec 4} {k : StripId} (hsel : sel.toNat = k.val)
    (hsub : sub.toNat < 8) :
    execute (.rddiag sel sub) s = .next (respond (diagWord (s.stripe k) ⟨sub.toNat, hsub⟩) s) := by
  simp only [execute, execRddiag, stripOf_eq_ok hsel, diagOf_ok hsub, check_ok]

/-! ### The word that `RDSTAT` reads (R32) -/

theorem toNat_bit (b : Bool) : (bit b).toNat = b.toNat := BitVec.toNat_ofBool b

/-- The fields of the status word, each at its place. -/
theorem toNat_statusWord (st : Status) (inited : ChannelId → Bool) :
    (statusWord st inited).toNat = st.err.toNat + 16 * st.cause.toNat + 256 * (inited 0).toNat + 512 * (inited 1).toNat +
      1024 * (inited 2).toNat + 2048 * (inited 3).toNat := by
  simp only [statusWord, toNat_append_eq_add, toNat_bit, BitVec.toNat_ofNat]
  omega

/-! ### The obligations -/

/-- Settles O50: `NOP` only answers. -/
theorem nopDoesNothing : Obligations.NopDoesNothing :=
  ⟨encodedAs_at 0 (by decide), fun s => ⟨respond 0 s, rfl, ⟨_, rfl, rfl⟩, sameAll_respond _ s⟩⟩

/-- Settles O51: the strip's number is checked before the register's, with the same cause; then the register is answered. -/
theorem rddiagReadsAReadout : Obligations.RddiagReadsAReadout := by
  refine ⟨encodedAs_at 19 (by decide), fun s sel sub => ⟨fun hbad => ?badSelector, fun k hsel hsub => ?answer⟩⟩
  case badSelector =>
    by_cases hsel : 2 ≤ sel.toNat
    · exact faults_badStrip rfl hsel
    · exact faults_of_execute (cause := .badSelector)
        (execute_rddiag_badNumber (Nat.not_le.mp hsel) (hbad.resolve_left hsel))
  case answer =>
    have hanswers : Answers (respond (diagWord (s.stripe k) ⟨sub.toNat, hsub⟩) s)
        (readout (s.stripe k) ⟨sub.toNat, hsub⟩) := ⟨_, rfl, toNat_diagWord ..⟩
    refine ⟨_, (exec_eq_execute _ s).trans (execute_rddiag_completes hsel hsub), sameAll_respond _ s, ?_⟩
    refine ⟨?_, ?_, ?_, ?_, ?_, ?_, ?_, ?_⟩ <;> · rintro rfl; exact hanswers

/-- Settles O52: the latch and `INITED` are answered at their places, and stay. -/
theorem rdstatReadsTheLatchAndInited : Obligations.RdstatReadsTheLatchAndInited :=
  ⟨encodedAs_at 20 (by decide), fun s => ⟨respond (statusWord s.status s.inited) s, rfl, sameAll_respond _ s, _, rfl,
    toNat_statusWord ..⟩⟩

end Sys2Proof.Machine
end

section
/-! The frame (45_render_and_system.md R177, 30_encoding.md R82): its first eight commands replace one channel after the other, each
by what it makes of that channel alone; its last two render the two strips from the fractions those have left. -/

namespace Sys2Proof.Machine

open Sys2Proof.Statements

variable {c : Config}

/-! ### One command for each channel -/

/-- Whatever the rest of the state, the command goes through and makes `k'` of channel `ch`, where that is `k`. -/
def ReplacesChannel (i : Instr) (ch : ChannelId) (k k' : Channel c) : Prop :=
  ∀ s : State c, s.channel ch = k → ∃ d, execute i s = .next (respond d (s.setChannel ch k'))

/-- From `s` to `t` every channel of the list has become what `g` says, and the other channels and the latch are the same. -/
structure ChannelsReplaced (chs : List ChannelId) (g : ChannelId → Channel c) (s t : State c) : Prop where
  replaced : ∀ ch ∈ chs, t.channel ch = g ch
  kept : ∀ ch, ch ∉ chs → t.channel ch = s.channel ch
  status : t.status = s.status

/-- A command for each channel of a list: none of them meets a channel that one before it has replaced. -/
theorem exists_runsTo_channels {i : ChannelId → Instr} {g : ChannelId → Channel c} {chs : List ChannelId} (hnodup : chs.Nodup)
    (s : State c) (hi : ∀ ch ∈ chs, ReplacesChannel (i ch) ch (s.channel ch) (g ch)) :
    ∃ t, RunsTo s (chs.map fun ch => encode (i ch)) t ∧ ChannelsReplaced chs g s t := by
  induction chs generalizing s with
  | nil => exact ⟨s, .done s, nofun, fun _ _ => rfl, rfl⟩
  | cons ch chs ih =>
    obtain ⟨hnew, hnodup⟩ := List.nodup_cons.mp hnodup
    obtain ⟨hfirst, hrest⟩ := List.forall_mem_cons.mp hi
    obtain ⟨d, hd⟩ := hfirst s rfl
    have hother (ch' : ChannelId) (hne : ch' ≠ ch) : (respond d (s.setChannel ch (g ch))).channel ch' = s.channel ch' :=
      channel_setChannel_ne _ _ _ _ hne
    obtain ⟨t, hrun, ht⟩ := ih hnodup (respond d (s.setChannel ch (g ch))) fun ch' hmem => by
      rw [hother ch' (ne_of_mem_of_not_mem hmem hnew)]
      exact hrest ch' hmem
    refine ⟨t, .cons ((obey_ok (decode_encode _) s).trans hd) hrun, ?replaced, ?kept, ht.status⟩
    case replaced =>
      refine List.forall_mem_cons.mpr ⟨?_, ht.replaced⟩
      rw [ht.kept ch hnew, channel_respond, channel_setChannel_self]
    case kept =>
      intro ch' hmem
      rw [ht.kept ch' (List.not_mem_of_not_mem_cons hmem), hother ch' (List.ne_of_not_mem_cons hmem)]

theorem smobs_replacesChannel {sel : BitVec 4} {imm : BitVec 32} {ch : ChannelId} {k k' : Channel c} (hsel : sel.toNat = ch.val)
    (himm : imm.toNat ≤ c.adcMax) (hinited : k.inited = true) (hobs : observeChannel c (imm.setWidth c.sampleBits) k = some k') :
    ReplacesChannel (.smobs sel imm) ch k k' := by
  rintro s rfl
  exact ⟨_, execute_smobs_completes hsel himm hinited hobs⟩

theorem norm_replacesChannel {sel : BitVec 4} {ch : ChannelId} (hsel : sel.toNat = ch.val) (k : Channel c) :
    ReplacesChannel (.norm sel) ch k (normChannel c k) := by
  rintro s rfl
  exact ⟨_, execute_norm_completes hsel⟩

/-! ### The parts of a frame -/

/-- The number of a channel as a selector. -/
def channelSel (ch : ChannelId) : BitVec 4 := BitVec.ofNat 4 ch.val

theorem toNat_channelSel (ch : ChannelId) : (channelSel ch).toNat = ch.val :=
  (BitVec.toNat_ofNat ..).trans (Nat.mod_eq_of_lt (Nat.lt_trans ch.isLt (by decide)))

/-- The words of a frame: one sample for each channel, the fraction of each, and the two strips (R82). -/
theorem frameWords_eq (x : ChannelId → BitVec 32) (now : BitVec 32) :
    (frameCommands (x 0) (x 1) (x 2) (x 3) now).map encode =
      ((List.finRange 4).map fun ch => encode (.smobs (channelSel ch) (x ch))) ++
        (((List.finRange 4).map fun ch => encode (.norm (channelSel ch))) ++
          [encode (.render 0 now), encode (.render 1 now)]) := rfl

/-- Both strips are rendered at the time `now`, and the channels and the latch are the same. -/
structure BothRendered (now : BitVec 32) (s t : State c) : Prop where
  stripe : ∀ k, t.stripe k = renderedStrip s k now
  channel : ∀ ch, t.channel ch = s.channel ch
  status : t.status = s.status

/-- The strips share nothing (R176): what becomes of one does not depend on the other. -/
theorem renderedStrip_setStripe_ne (d : BitVec 32) (s : State c) {k k' : StripId} (t : Strip) (now : BitVec 32) (hne : k' ≠ k) :
    renderedStrip (respond d (s.setStripe k t)) k' now = renderedStrip s k' now := by
  simp only [renderedStrip, fr_respond, fr_setStripe, stripe_respond, stripe_setStripe_ne _ _ _ _ hne]

theorem exists_runsTo_renders (s : State c) (now : BitVec 32) :
    ∃ t, RunsTo s [encode (.render 0 now), encode (.render 1 now)] t ∧ BothRendered now s t := by
  refine ⟨_, runsTo_pair_iff.mpr ⟨_, execute_render_completes (sel := 0) (k := 0) rfl now,
    execute_render_completes (sel := 1) (k := 1) rfl now⟩, fun k => ?stripe, fun _ => rfl, rfl⟩
  match k with
  | 0 => rw [stripe_respond, stripe_setStripe_ne _ _ _ _ (by decide), stripe_respond, stripe_setStripe_self]
  | 1 => rw [stripe_respond, stripe_setStripe_self, renderedStrip_setStripe_ne _ _ _ _ (by decide)]

/-! ### What a frame leaves -/

/-- A channel whose sample has been stored and whose mean has been scaled. -/
structure ChannelFramed (x : BitVec 32) (k k' : Channel c) : Prop where
  stored : cellValue k'.hist k.cur.toNat = x.toNat
  others : ∀ j, j ≠ k.cur.toNat → readCell k'.hist j = readCell k.hist j
  cur : k'.cur.toNat = (k.cur.toNat + 1) % c.w
  mean : k'.sm.toInt = meanOf c.w k'.hist
  fr : k'.fr.toNat = normalizeOf c k'.sm.toInt

theorem channelFramed_of_observe {x : BitVec 32} {k k' : Channel c} (hx : x.toNat ≤ c.adcMax)
    (hobs : observeChannel c (x.setWidth c.sampleBits) k = some k') : ChannelFramed x k (normChannel c k') where
  stored := by rw [normChannel_hist, observeChannel_hist hobs, cellValue_putCell, if_pos rfl, sample_toNat hx]
  others j hj := by rw [normChannel_hist, observeChannel_hist hobs, readCell_putCell, if_neg (Ne.symm hj)]
  cur := by rw [normChannel_cur, observeChannel_cur hobs]
  mean := by rw [normChannel_sm, normChannel_hist, toInt_sm_of_holdsMean (observeChannel_holdsMean hobs)]
  fr := fraction_toNat (normalizeOf_le ..)

/-- With every channel initialised and every sample in range a frame goes through, and the strips are rendered in a state `v` in
which each channel has its sample stored and its mean scaled. -/
theorem exists_runsTo_frame {s : State c} {x : ChannelId → BitVec 32} (now : BitVec 32) (hinv : s.Inv)
    (hinited : ∀ ch, s.inited ch = true) (hx : ∀ ch, (x ch).toNat ≤ c.adcMax) :
    ∃ v t, RunsTo s ((frameCommands (x 0) (x 1) (x 2) (x 3) now).map encode) t ∧ BothRendered now v t ∧
      v.status = s.status ∧ ∀ ch, ChannelFramed (x ch) (s.channel ch) (v.channel ch) := by
  have hobserve (ch : ChannelId) : ∃ k, observeChannel c ((x ch).setWidth c.sampleBits) (s.channel ch) = some k :=
    observeChannel_isSome _ fun j hj => by
      obtain ⟨v, hv, -⟩ := (hinv.channel ch).hist_full (hinited ch) j hj
      exact Option.isSome_of_eq_some hv
  choose k hobs using hobserve
  obtain ⟨u, hsmobs, hu⟩ := exists_runsTo_channels (List.nodup_finRange 4) s fun ch _ =>
    smobs_replacesChannel (toNat_channelSel ch) (hx ch) (hinited ch) (hobs ch)
  obtain ⟨v, hnorm, hv⟩ := exists_runsTo_channels (List.nodup_finRange 4) u fun ch _ =>
    norm_replacesChannel (toNat_channelSel ch) (u.channel ch)
  obtain ⟨t, hrender, ht⟩ := exists_runsTo_renders v now
  refine ⟨v, t, ?run, ht, hv.status.trans hu.status, fun ch => ?channel⟩
  case run =>
    rw [frameWords_eq]
    exact runsTo_append_iff.mpr ⟨u, hsmobs, runsTo_append_iff.mpr ⟨v, hnorm, hrender⟩⟩
  case channel =>
    rw [hv.replaced ch (List.mem_finRange ch), hu.replaced ch (List.mem_finRange ch)]
    exact channelFramed_of_observe (hx ch) (hobs ch)

/-- Settles O49: the eight commands on the channels leave the scaled means, and the strips are rendered from those. -/
theorem frameRendersTheScaledMeans : Obligations.FrameRendersTheScaledMeans := by
  intro s x now hinv hgood hinited hx
  obtain ⟨v, t, hrun, ht, hstatus, hchannel⟩ := exists_runsTo_frame now hinv hinited hx
  have hfr (ch : ChannelId) : t.fr ch = v.fr ch := congrArg Channel.fr (ht.channel ch)
  refine ⟨t, hrun, ?good, fun ch => ?channel, fun k => ?strip⟩
  case good =>
    rw [State.Good, ht.status, hstatus]
    exact hgood
  case channel =>
    obtain ⟨hstored, hothers, hcur, hmean, hscaled⟩ := hchannel ch
    rw [← ht.channel ch] at hstored hothers hcur hmean hscaled
    exact ⟨hstored, hothers, hcur, hmean, hscaled⟩
  case strip =>
    have hfp : (v.fr (pulseChannel k)).toNat ≤ block.one := (hchannel (pulseChannel k)).fr.trans_le (normalizeOf_le ..)
    rw [hfr, hfr]
    exact rendered_of_stripe hfp (ht.stripe k)

end Sys2Proof.Machine
end

section
/-! No step of the block stops (60_exceptions.md R196, R204, 70_reset_and_hazards.md R210, R222). The one stop that the model has is
a read of a slot that holds no value, and `SMOBS` and `RDHIST` read only where `INITED` is 1: there every slot holds a value
(10_state.md R35). -/

namespace Sys2Proof.Machine

variable {c : Config}

/-! ### An initialised channel has all its slots (R35) -/

section
variable {s : State c} {ch : ChannelId} (h : s.Inv) (hinited : s.inited ch = true)
include h hinited

theorem exists_readCell_of_inited {j : Nat} (hj : j < c.w) : ∃ v, readCell (s.channel ch).hist j = some v := by
  obtain ⟨v, hv, -⟩ := (h.channel ch).hist_full hinited j hj
  exact ⟨v, hv⟩

theorem exists_hist_of_inited {idx : BitVec 16} {j : Nat} (hj : slotOf c idx = .ok j) : ∃ v, s.hist ch j = some v :=
  exists_readCell_of_inited h hinited (slotOf_eq_ok hj)

theorem exists_observe_of_inited (x : c.Sample) : ∃ k, observeChannel c x (s.channel ch) = some k :=
  observeChannel_isSome x fun _ hj => Option.isSome_iff_exists.mpr (exists_readCell_of_inited h hinited hj)

end

/-! ### Commands, words and steps -/

section
variable {s : State c}

theorem exists_next_of_check {α : Type} {o : Except Cause α} {go : α → Result c} (hgo : ∀ a, o = .ok a → ∃ t, go a = .next t) :
    ∃ t, check o s go = .next t :=
  check_all (fun r => ∃ t, r = .next t) (fun _ => ⟨_, rfl⟩) hgo

/-- Check 6 lets a command go on only where `INITED` is 1. -/
theorem exists_next_of_check_inited {ch : ChannelId} {go : Unit → Result c}
    (hgo : s.inited ch = true → ∃ t, go () = .next t) : ∃ t, check (initedOf s ch) s go = .next t := by
  cases hinited : s.inited ch with
  | false => rw [initedOf_error hinited]; exact ⟨_, rfl⟩
  | true => rw [initedOf_ok hinited]; exact hgo hinited

/-- The commands by the number of checks they make: each check faults or lets the command go on. -/
theorem exists_next_of_execute (i : Instr) (h : s.Inv) : ∃ t, execute i s = .next t := by
  cases i with
  | nop | rdstat => exact ⟨_, rfl⟩
  | rdcur | rdsm | norm | rdfr | clr | casc | pulse | qsin | qhsv | render => exact exists_next_of_check fun _ _ => ⟨_, rfl⟩
  | sminit | setsm | setfr | blend | rdpix | rddiag =>
    exact exists_next_of_check fun _ _ => exists_next_of_check fun _ _ => ⟨_, rfl⟩
  | setpix =>
    exact exists_next_of_check fun _ _ => exists_next_of_check fun _ _ => exists_next_of_check fun _ _ => ⟨_, rfl⟩
  | smobs =>
    refine exists_next_of_check fun ch _ => exists_next_of_check fun x _ => exists_next_of_check_inited fun hinited => ?_
    obtain ⟨k, hk⟩ := exists_observe_of_inited h hinited x
    simp only [hk]
    exact ⟨_, rfl⟩
  | rdhist =>
    refine exists_next_of_check fun ch _ => exists_next_of_check fun j hj => exists_next_of_check_inited fun hinited => ?_
    obtain ⟨v, hv⟩ := exists_hist_of_inited h hinited hj
    simp only [hv]
    exact ⟨_, rfl⟩

theorem exists_next_of_obey (w : Word64) (h : s.Inv) : ∃ t, obey execute w s = .next t := by
  cases hw : decode w with
  | error cause => rw [obey_error hw]; exact ⟨_, rfl⟩
  | ok i => rw [obey_ok hw]; exact exists_next_of_execute i h

theorem exists_next_of_stepOf (h : s.Inv) : ∃ t, stepOf s = .next t := by
  unfold stepOf
  rcases hport : s.port with _ | ⟨_ | _, rest⟩
  case nil => rw [advance_idle hport]; exact ⟨_, rfl⟩
  case cons.command w => rw [advance_command hport]; exact exists_next_of_obey w (setPort_inv rest h)
  case cons.reset => rw [advance_reset hport]; exact ⟨_, rfl⟩

end

/-! ### The obligations -/

/-- Settles O9: a step idles, resets or obeys a word, and a command stops only at a slot that an initialised channel has. -/
theorem stepNeverStops : Obligations.StepNeverStops :=
  ⟨fun s h => step_eq_stepOf s ▸ exists_next_of_stepOf h, fun _ _ h => exists_next_of_stepOf h⟩

/-- Settles O5: one case of `advance` for each part; a word that does not decode takes its fault and does nothing else. -/
theorem stepOnBadWordsResetAndIdle : Obligations.StepOnBadWordsResetAndIdle := by
  refine ⟨fun s w rest cause hport hdecode => ?_, fun s rest hport => advance_reset hport, fun s hport => advance_idle hport⟩
  refine ⟨takeFault cause { s with port := rest }, ?_, takeFault_faultTaken cause _⟩
  rw [step, advance_command hport, obey_error hdecode]

end Sys2Proof.Machine
end

section
/-! A fault once taken (60_exceptions.md R193, R196): it stays in `STATUS` until reset, and nothing but `RDSTAT` reads it there, so that
every other command has the same outcome whatever `STATUS` holds, up to `STATUS` itself. -/

namespace Sys2Proof.Machine

open Sys2Proof.Statements

variable {c : Config}

/-! ### Sticky -/

/-- A latch that is set records nothing more (R193). -/
theorem latchFault_of_err {st : Status} (cause : Cause) (h : st.err = true) : latchFault cause st = st := by
  obtain ⟨err, code⟩ := st
  subst h
  rfl

theorem execute_status_of_err {i : Instr} {s t : State c} (ht : execute i s = .next t) (herr : s.status.err = true) :
    t.status = s.status := by
  have hend := ht ▸ execute_ends i s
  cases hend with
  | fault cause => exact latchFault_of_err cause herr
  | answer | channel | strip => rfl

/-! ### Without effect on later commands -/

@[simp] theorem channel_setStatus (s : State c) (st : Status) (ch : ChannelId) :
    State.channel { s with status := st } ch = s.channel ch := rfl

@[simp] theorem hist_setStatus (s : State c) (st : Status) (ch : ChannelId) (i : Nat) :
    State.hist { s with status := st } ch i = s.hist ch i := rfl

/-- The same outcome with `st` in the latch. -/
def outcomeWithStatus (st : Status) : Result c → Result c
  | .next t => .next { t with status := st }
  | .fault r => .fault r
  | .refused r => .refused r

/-- The second outcome is the first, but for what the latch holds. -/
def SameUpToStatus (r r' : Result c) : Prop := ∃ st, r' = outcomeWithStatus st r

theorem sameUpToStatus_check {α : Type} {o : Except Cause α} {s : State c} {st : Status} {go go' : α → Result c}
    (hgo : ∀ a, SameUpToStatus (go a) (go' a)) : SameUpToStatus (check o s go) (check o { s with status := st } go') := by
  cases o with
  | error cause => exact ⟨latchFault cause st, rfl⟩
  | ok a => exact hgo a

/-- Every command but `RDSTAT` does the same whatever the latch holds: no operand and no unit reads it. -/
theorem execute_setStatus {i : Instr} (hi : i ≠ .rdstat) (s : State c) (st : Status) :
    SameUpToStatus (execute i s) (execute i { s with status := st }) := by
  cases i with
  | rdstat => exact absurd rfl hi
  | nop => exact ⟨st, rfl⟩
  | rdcur | rdsm | norm | rdfr | clr | casc | pulse | qsin | qhsv | render => exact sameUpToStatus_check fun _ => ⟨st, rfl⟩
  | sminit | setsm | setfr | blend | rdpix | rddiag =>
    exact sameUpToStatus_check fun _ => sameUpToStatus_check fun _ => ⟨st, rfl⟩
  | setpix =>
    exact sameUpToStatus_check fun _ => sameUpToStatus_check fun _ => sameUpToStatus_check fun _ => ⟨st, rfl⟩
  | smobs =>
    refine sameUpToStatus_check fun ch => sameUpToStatus_check fun x => sameUpToStatus_check fun _ => ⟨st, ?_⟩
    simp only [channel_setStatus]
    cases observeChannel c x (s.channel ch) <;> rfl
  | rdhist =>
    refine sameUpToStatus_check fun ch => sameUpToStatus_check fun j => sameUpToStatus_check fun _ => ⟨st, ?_⟩
    simp only [hist_setStatus]
    cases s.hist ch j <;> rfl

theorem sameButStatus_setStatus (t : State c) (st : Status) : SameButStatus t { t with status := st } :=
  ⟨fun _ => ⟨fun _ => rfl, rfl, rfl, rfl, rfl⟩, fun _ => ⟨fun _ => rfl, rfl, rfl, rfl, rfl, rfl, rfl, rfl, rfl⟩, rfl, rfl⟩

/-- Settles O12: the ways a command ends for the first part, the step at a reset pulse for the second, `execute_setStatus` for the
third. -/
theorem faultIsStickyAndOtherwiseWithoutEffect : Obligations.FaultIsStickyAndOtherwiseWithoutEffect := by
  refine ⟨fun c i s t => execute_status_of_err, fun c s rest hport => ⟨_, advance_reset hport, rfl⟩, ?_⟩
  intro c i s t st hi ht
  obtain ⟨st', hsame⟩ := execute_setStatus hi s st
  rw [ht] at hsame
  exact ⟨{ t with status := st' }, hsame, sameButStatus_setStatus t st'⟩

end Sys2Proof.Machine
end

section
/-! Valid use (60_exceptions.md R190): the operands of a well-formed command pass the checks 3 to 5 of 30_encoding.md R78, its channel
passes check 6 if it has had its `SMINIT`, and then the command ends without a fault. -/

namespace Sys2Proof.Machine

open Sys2Proof.Statements

variable {c : Config}

/-! ### The operands of a well-formed command pass their checks (R72, R76) -/

theorem channelOf_of_selOk {sel : BitVec 4} (h : channelSelOk sel = true) : ∃ ch, channelOf sel = .ok ch :=
  ⟨_, channelOf_ok (Nat.lt_succ_of_le (of_decide_eq_true h))⟩

theorem stripOf_of_selOk {sel : BitVec 4} (h : stripSelOk sel = true) : ∃ k, stripOf sel = .ok k :=
  ⟨_, stripOf_ok (Nat.lt_succ_of_le (of_decide_eq_true h))⟩

theorem diagOf_of_subOk {sub : BitVec 4} (h : diagSubOk sub = true) : ∃ r, diagOf sub = .ok r :=
  ⟨_, diagOf_ok (Nat.lt_succ_of_le (of_decide_eq_true h))⟩

theorem pixelOf_of_idxOk {idx : BitVec 16} (h : pixelIdxOk c idx = true) : ∃ i, pixelOf c idx = .ok i :=
  ⟨_, pixelOf_ok (of_decide_eq_true h)⟩

theorem slotOf_of_idxOk {idx : BitVec 16} (h : slotIdxOk c idx = true) : ∃ i, slotOf c idx = .ok i :=
  ⟨_, slotOf_ok (of_decide_eq_true h)⟩

theorem sampleOf_of_immOk {imm : BitVec 32} (h : sampleImmOk c imm = true) : ∃ x, sampleOf c imm = .ok x :=
  ⟨_, sampleOf_ok (of_decide_eq_true h)⟩

theorem signedOf_of_immOk {imm : BitVec 32} (h : signedImmOk imm = true) : ∃ v, signedOf imm = .ok v :=
  ⟨_, signedOf_ok ((signedImmOk_iff imm).mp h)⟩

theorem fractionOf_of_immOk {imm : BitVec 32} (h : fractionImmOk c imm = true) : ∃ f, fractionOf c imm = .ok f :=
  ⟨_, fractionOf_ok (of_decide_eq_true h)⟩

theorem angleOf_of_immOk {imm : BitVec 32} (h : angleImmOk imm = true) : ∃ theta, angleOf imm = .ok theta :=
  ⟨_, angleOf_ok (of_decide_eq_true h)⟩

theorem tripleOf_of_immOk {imm : BitVec 32} (h : tripleImmOk imm = true) : ∃ v, tripleOf imm = .ok v :=
  ⟨_, tripleOf_ok (eq_of_beq h)⟩

theorem colourOf_of_immOk {imm : BitVec 32} (h : tripleImmOk imm = true) : ∃ p, colourOf imm = .ok p :=
  ⟨_, colourOf_ok (eq_of_beq h)⟩

/-! ### Which channels have had their `SMINIT` -/

/-- `INITED` after a command that ends without a fault (R91). -/
def initedAfter (inited : ChannelId → Bool) : Instr → ChannelId → Bool
  | .sminit sel _ => fun ch => inited ch || sel.toNat == ch.val
  | _ => inited

/-- The command does not use a history before its channel has had its `SMINIT` (R190). -/
def UsesInited (inited : ChannelId → Bool) : Instr → Prop
  | .smobs sel _ | .rdhist sel _ => ∀ ch : ChannelId, sel.toNat = ch.val → inited ch = true
  | _ => True

/-- Valid use, by the first word. -/
theorem validUse_cons_iff {inited : ChannelId → Bool} {w : Word64} {ws : List Word64} :
    ValidUse c inited (w :: ws) ↔
      ∃ i, decode w = .ok i ∧ i.wellFormed c = true ∧ UsesInited inited i ∧ ValidUse c (initedAfter inited i) ws :=
  Iff.rfl

theorem inited_setChannel (s : State c) (ch : ChannelId) (k : Channel c) (ch' : ChannelId) :
    (s.setChannel ch k).inited ch' = if ch' = ch then k.inited else s.inited ch' := by
  rw [State.inited, channel_setChannel]
  split <;> rfl

/-! ### A command in valid use ends without a fault -/

/-- The outcome of the command `i` in `s` is a next state without a new fault. -/
def EndsWithoutFault (i : Instr) (s : State c) (r : Result c) : Prop :=
  ∃ t, r = .next t ∧ t.status = s.status ∧ t.inited = initedAfter s.inited i

section
variable {i : Instr} {s : State c}

theorem endsWithoutFault_answer (d : BitVec 32) (hi : initedAfter s.inited i = s.inited) :
    EndsWithoutFault i s (.next (respond d s)) := ⟨_, rfl, rfl, hi.symm⟩

theorem endsWithoutFault_strip (d : BitVec 32) (k : StripId) (t : Strip) (hi : initedAfter s.inited i = s.inited) :
    EndsWithoutFault i s (.next (respond d (s.setStripe k t))) := ⟨_, rfl, rfl, hi.symm⟩

theorem endsWithoutFault_channel (d : BitVec 32) {ch : ChannelId} {k : Channel c} (hi : initedAfter s.inited i = s.inited)
    (hk : k.inited = s.inited ch) : EndsWithoutFault i s (.next (respond d (s.setChannel ch k))) := by
  refine ⟨_, rfl, rfl, hi.symm ▸ funext fun ch' => (inited_setChannel s ch k ch').trans ?_⟩
  split
  · next heq => rw [heq, hk]
  · rfl

theorem endsWithoutFault_init (d : BitVec 32) {sel : BitVec 4} {imm : BitVec 32} {ch : ChannelId} {k : Channel c}
    (hch : channelOf sel = .ok ch) (hk : k.inited = true) :
    EndsWithoutFault (.sminit sel imm) s (.next (respond d (s.setChannel ch k))) := by
  refine ⟨_, rfl, rfl, funext fun ch' => (inited_setChannel s ch k ch').trans ?_⟩
  rw [hk, initedAfter, toNat_of_channelOf hch]
  by_cases heq : ch' = ch
  · simp [heq]
  · simp [heq, Fin.val_inj, Ne.symm heq]

theorem endsWithoutFault_check {α : Type} {o : Except Cause α} {go : α → Result c} (ho : ∃ a, o = .ok a)
    (hgo : ∀ a, o = .ok a → EndsWithoutFault i s (go a)) : EndsWithoutFault i s (check o s go) := by
  obtain ⟨a, rfl⟩ := ho
  exact hgo a rfl

/-- Check 6 of a command whose channel has had its `SMINIT`. -/
theorem endsWithoutFault_check_inited {sel : BitVec 4} {ch : ChannelId} {go : Unit → Result c}
    (huses : ∀ ch : ChannelId, sel.toNat = ch.val → s.inited ch = true) (hch : channelOf sel = .ok ch)
    (hgo : s.inited ch = true → EndsWithoutFault i s (go ())) : EndsWithoutFault i s (check (initedOf s ch) s go) := by
  have hinited := huses ch (toNat_of_channelOf hch)
  rw [initedOf_ok hinited]
  exact hgo hinited

end

/-- Every well-formed command, on a channel that is initialised where it must be, passes all its checks. -/
theorem execute_endsWithoutFault {i : Instr} {s : State c} (h : s.Inv) (hwf : i.wellFormed c = true)
    (huses : UsesInited s.inited i) : EndsWithoutFault i s (execute i s) := by
  cases i with
  | nop | rdstat => exact endsWithoutFault_answer _ rfl
  | sminit sel imm =>
    obtain ⟨hsel, himm⟩ := Bool.and_eq_true_iff.mp hwf
    exact endsWithoutFault_check (channelOf_of_selOk hsel) fun _ hch =>
      endsWithoutFault_check (sampleOf_of_immOk himm) fun _ _ => endsWithoutFault_init _ hch rfl
  | smobs sel imm =>
    obtain ⟨hsel, himm⟩ := Bool.and_eq_true_iff.mp hwf
    refine endsWithoutFault_check (channelOf_of_selOk hsel) fun ch hch =>
      endsWithoutFault_check (sampleOf_of_immOk himm) fun x _ =>
      endsWithoutFault_check_inited huses hch fun hinited => ?_
    obtain ⟨k, hk⟩ := exists_observe_of_inited h hinited x
    simp only [hk]
    exact endsWithoutFault_channel _ rfl (observeChannel_inited hk)
  | rdhist sel idx =>
    obtain ⟨hsel, hidx⟩ := Bool.and_eq_true_iff.mp hwf
    refine endsWithoutFault_check (channelOf_of_selOk hsel) fun ch hch =>
      endsWithoutFault_check (slotOf_of_idxOk hidx) fun j hj =>
      endsWithoutFault_check_inited huses hch fun hinited => ?_
    obtain ⟨v, hv⟩ := exists_hist_of_inited h hinited hj
    simp only [hv]
    exact endsWithoutFault_answer _ rfl
  | rdcur | rdsm | rdfr => exact endsWithoutFault_check (channelOf_of_selOk hwf) fun _ _ => endsWithoutFault_answer _ rfl
  | setsm sel imm =>
    obtain ⟨hsel, himm⟩ := Bool.and_eq_true_iff.mp hwf
    exact endsWithoutFault_check (channelOf_of_selOk hsel) fun _ _ =>
      endsWithoutFault_check (signedOf_of_immOk himm) fun _ _ => endsWithoutFault_channel _ rfl rfl
  | norm => exact endsWithoutFault_check (channelOf_of_selOk hwf) fun _ _ => endsWithoutFault_channel _ rfl rfl
  | setfr sel imm =>
    obtain ⟨hsel, himm⟩ := Bool.and_eq_true_iff.mp hwf
    exact endsWithoutFault_check (channelOf_of_selOk hsel) fun _ _ =>
      endsWithoutFault_check (fractionOf_of_immOk himm) fun _ _ => endsWithoutFault_channel _ rfl rfl
  | clr | casc | pulse | render =>
    exact endsWithoutFault_check (stripOf_of_selOk hwf) fun _ _ => endsWithoutFault_strip _ _ _ rfl
  | qsin => exact endsWithoutFault_check (angleOf_of_immOk hwf) fun _ _ => endsWithoutFault_answer _ rfl
  | qhsv => exact endsWithoutFault_check (tripleOf_of_immOk hwf) fun _ _ => endsWithoutFault_answer _ rfl
  | blend sel imm =>
    obtain ⟨hsel, himm⟩ := Bool.and_eq_true_iff.mp hwf
    exact endsWithoutFault_check (stripOf_of_selOk hsel) fun _ _ =>
      endsWithoutFault_check (colourOf_of_immOk himm) fun _ _ => endsWithoutFault_strip _ _ _ rfl
  | setpix sel idx imm =>
    obtain ⟨hselidx, himm⟩ := Bool.and_eq_true_iff.mp hwf
    obtain ⟨hsel, hidx⟩ := Bool.and_eq_true_iff.mp hselidx
    exact endsWithoutFault_check (stripOf_of_selOk hsel) fun _ _ =>
      endsWithoutFault_check (pixelOf_of_idxOk hidx) fun _ _ =>
      endsWithoutFault_check (colourOf_of_immOk himm) fun _ _ => endsWithoutFault_strip _ _ _ rfl
  | rdpix sel idx =>
    obtain ⟨hsel, hidx⟩ := Bool.and_eq_true_iff.mp hwf
    exact endsWithoutFault_check (stripOf_of_selOk hsel) fun _ _ =>
      endsWithoutFault_check (pixelOf_of_idxOk hidx) fun _ _ => endsWithoutFault_answer _ rfl
  | rddiag sel sub =>
    obtain ⟨hsel, hsub⟩ := Bool.and_eq_true_iff.mp hwf
    exact endsWithoutFault_check (stripOf_of_selOk hsel) fun _ _ =>
      endsWithoutFault_check (diagOf_of_subOk hsub) fun _ _ => endsWithoutFault_answer _ rfl

/-! ### A run in valid use -/

/-- By induction on the words: each ends without a fault in a state that meets the invariants, from which the others are in valid
use. -/
theorem exists_runsTo_of_validUse {s : State c} {ws : List Word64} (h : s.Inv) (hvalid : ValidUse c s.inited ws) :
    ∃ t, RunsTo s ws t ∧ t.status = s.status := by
  induction ws generalizing s with
  | nil => exact ⟨s, .done s, rfl⟩
  | cons w ws ih =>
    obtain ⟨i, hdecode, hwf, huses, hrest⟩ := validUse_cons_iff.mp hvalid
    obtain ⟨u, hu, hstatus, hinited⟩ := execute_endsWithoutFault h hwf huses
    rw [← hinited] at hrest
    obtain ⟨t, hrun, hsame⟩ := ih (execute_keeps_inv i h u hu) hrest
    exact ⟨t, .cons ((obey_ok hdecode s).trans hu) hrun, hsame.trans hstatus⟩

/-- Settles O13: a run in valid use leaves `STATUS` as it was, so a good state good. -/
theorem validUseRaisesNoFault : Obligations.ValidUseRaisesNoFault := by
  intro c s ws hinv hgood hvalid
  obtain ⟨t, hrun, hstatus⟩ := exists_runsTo_of_validUse hinv hvalid
  exact ⟨t, hrun, (congrArg Status.err hstatus).trans hgood⟩

end Sys2Proof.Machine
end

section
/-! Good runs (60_exceptions.md R196, 70_reset_and_hazards.md R224): a word that answers `err = 0` leaves `STATUS` as it was and any
other word sets `ERR`, which no later word clears; so the latch at the end of a run tells whether a word of it faulted. -/

namespace Sys2Proof.Machine

variable {c : Config}

/-! ### One word -/

theorem not_completed_takeFault (cause : Cause) (s : State c) : ¬Completed (takeFault cause s) := by
  rintro ⟨d, hd⟩
  cases hd

theorem not_good_takeFault (cause : Cause) (s : State c) : ¬(takeFault cause s).Good := Bool.noConfusion

/-- After a word, one that decodes to no command among them, `ERR` is 0 exactly when it was 0 before and the word answered
`err = 0`. -/
theorem good_of_obey_iff {w : Word64} {s t : State c} (h : obey execute w s = .next t) : t.Good ↔ s.Good ∧ Completed t := by
  have hend := h ▸ obey_ends w s
  cases hend with
  | fault cause => exact iff_of_false (not_good_takeFault cause s) fun hand => not_completed_takeFault cause s hand.2
  | answer d | channel _ _ d | strip _ _ d => exact (and_iff_left ⟨d, rfl⟩).symm

/-! ### The words of a run -/

/-- Each of the words `ws`, issued one after the other from `s`, answers `err = 0`. -/
def EveryWordCompletes (s : State c) (ws : List Word64) : Prop :=
  ∀ (before after : List Word64) (w : Word64) (u v : State c), ws = before ++ w :: after → RunsTo s before u →
    obey execute w u = .next v → Completed v

theorem everyWordCompletes_nil (s : State c) : EveryWordCompletes s [] := by
  intro before after w u v hws
  cases before <;> cases hws

/-- A word of `w :: ws` is the first one, or one of `ws` issued from the state that the first one leaves. -/
theorem everyWordCompletes_cons_iff {s u : State c} {w : Word64} (ws : List Word64) (hw : obey execute w s = .next u) :
    EveryWordCompletes s (w :: ws) ↔ Completed u ∧ EveryWordCompletes u ws := by
  constructor
  · intro h
    refine ⟨h [] ws w s u rfl (.done s) hw, ?_⟩
    rintro before after w' u' v rfl hrun
    exact h (w :: before) after w' u' v rfl (.cons hw hrun)
  · rintro ⟨hu, hrest⟩ before after w' u' v hws hrun hw'
    cases before with
    | nil =>
      obtain ⟨rfl, -⟩ := List.cons.inj hws
      obtain rfl := runsTo_nil_iff.mp hrun
      obtain rfl := Host.Outcome.next.inj (hw.symm.trans hw')
      exact hu
    | cons b before =>
      obtain ⟨rfl, htail⟩ := List.cons.inj hws
      obtain ⟨u₁, hb, hrun⟩ := runsTo_cons_iff.mp hrun
      obtain rfl := Host.Outcome.next.inj (hw.symm.trans hb)
      exact hrest before after w' u' v htail hrun hw'

/-- At the end of a run `ERR` is 0 exactly when it was 0 before the run and every word of it answered `err = 0`. -/
theorem good_of_runsTo_iff {s t : State c} {ws : List Word64} (hrun : RunsTo s ws t) :
    t.Good ↔ s.Good ∧ EveryWordCompletes s ws := by
  induction hrun with
  | done s => exact (and_iff_left (everyWordCompletes_nil s)).symm
  | @cons s u t w ws hw _ ih =>
    calc t.Good ↔ u.Good ∧ EveryWordCompletes u ws := ih
      _ ↔ (s.Good ∧ Completed u) ∧ EveryWordCompletes u ws := and_congr_left' (good_of_obey_iff hw)
      _ ↔ s.Good ∧ EveryWordCompletes s (w :: ws) := by rw [and_assoc, everyWordCompletes_cons_iff ws hw]

/-- Settles O14: `good_of_runsTo_iff` from a good state. -/
theorem runIsGoodExactlyWhenNoWordAnsweredErr : Obligations.RunIsGoodExactlyWhenNoWordAnsweredErr :=
  fun _ _ _ _ hgood hrun => (good_of_runsTo_iff hrun).trans (and_iff_right hgood)

end Sys2Proof.Machine
end
